-- ==== Sys2Proof/Config.lean ====
section
/-! DEFINITION. The implementation parameters of 00_scope.md rule R4: one record with the defaults of the spec. -/

namespace Sys2Proof.Config

/-- The coefficient record `K` of R80: integers over the denominators `qy` (luma) and `qc` (chroma). -/
structure Coeffs where
  yr : Int
  yg : Int
  yb : Int
  ur : Int
  ug : Int
  ub : Int
  u0 : Int
  vr : Int
  vg : Int
  vb : Int
  v0 : Int
deriving DecidableEq, Repr

/-- The width parameters of R4, in bits. -/
structure Widths where
  /-- `DIM_BITS`: WIDTH and HEIGHT -/
  dimBits : Nat
  /-- `LEN_BITS`: the byte and pixel position counters and the SD tally -/
  lenBits : Nat
  /-- `XLEN_BITS`: XLEN and the RLD tally -/
  xlenBits : Nat
  /-- `IDX_BITS`: the saturating frame indices -/
  idxBits : Nat
  /-- `CMD_BITS`: a command word -/
  cmdBits : Nat
  /-- `RSP_BITS`: a response word -/
  rspBits : Nat
deriving DecidableEq, Repr

/-- The parameters of R4. -/
structure Params where
  /-- the widths -/
  widths : Widths
  /-- `L_MAX`, the largest YUV420 frame length -/
  lMax : Nat
  /-- `RUN_CAP`, the largest count of an RLE pair -/
  runCap : Nat
  /-- `QY`, the luma denominator -/
  qy : Int
  /-- `QC`, the chroma denominator -/
  qc : Int
  /-- the colour coefficients -/
  k : Coeffs
deriving DecidableEq, Repr

/-- The default `K` of R80 ("the only values the source supports"). -/
def defaultCoeffs : Coeffs where
  yr := 299
  yg := 587
  yb := 114
  ur := -1690
  ug := -3310
  ub := 4490
  u0 := 1280000
  vr := 4990
  vg := -4180
  vb := -813
  v0 := 1280000

/-- The zero-sum coefficients that 93_implementation_defined.md G1 names as an illustration (vector V0.7b);
the machine does not use them. -/
def zeroSumCoeffs : Coeffs where
  yr := 299
  yg := 587
  yb := 114
  ur := -1690
  ug := -3310
  ub := 5000
  u0 := 1280000
  vr := 5000
  vg := -4180
  vb := -820
  v0 := 1280000

/-- The widths of this model: R4's defaults (DESIGN CHOICE, log entry 7). The word types and every bound and
saturation of the machine read them here. Reducible, so that a width and its number are one width to Lean. -/
@[reducible] def widths : Widths where
  dimBits := 16
  lenBits := 34
  xlenBits := 40
  idxBits := 32
  cmdBits := 64
  rspBits := 64

/-- The parameters of this model: R4's defaults (DESIGN CHOICE, log entry 7). -/
def params : Params where
  widths := widths
  lMax := 6442057734
  runCap := 255
  qy := 1000
  qc := 10000
  k := defaultCoeffs

@[simp] theorem widths_dimBits : widths.dimBits = 16 := rfl
@[simp] theorem widths_lenBits : widths.lenBits = 34 := rfl
@[simp] theorem widths_xlenBits : widths.xlenBits = 40 := rfl
@[simp] theorem widths_idxBits : widths.idxBits = 32 := rfl
@[simp] theorem widths_cmdBits : widths.cmdBits = 64 := rfl
@[simp] theorem widths_rspBits : widths.rspBits = 64 := rfl
@[simp] theorem params_widths : params.widths = widths := rfl
@[simp] theorem params_lMax : params.lMax = 6442057734 := rfl
@[simp] theorem params_runCap : params.runCap = 255 := rfl
@[simp] theorem params_qy : params.qy = 1000 := rfl
@[simp] theorem params_qc : params.qc = 10000 := rfl
@[simp] theorem params_k : params.k = defaultCoeffs := rfl

end Sys2Proof.Config
end

