-- ==== Sys2Proof/Word.lean ====
section
/-! DEFINITION. The word types of the block, at the widths the configuration record gives them (00_scope.md rule R4). -/

namespace Sys2Proof

/-- A byte of data, 0 to 255, always unsigned (R5). -/
abbrev Byte := BitVec 8
/-- WIDTH and HEIGHT: `DIM_BITS`. -/
abbrev Dim := BitVec Config.widths.dimBits
/-- A chroma intermediate: 22 bits, in ten-thousandths (R82, R83). -/
abbrev Chroma := BitVec 22
/-- A frame index: `IDX_BITS`, saturating. -/
abbrev Idx := BitVec Config.widths.idxBits
/-- A position counter or tally: `LEN_BITS`. -/
abbrev Len := BitVec Config.widths.lenBits
/-- XLEN and the RLD tally: `XLEN_BITS`. -/
abbrev XLen := BitVec Config.widths.xlenBits
/-- The operand field of a command word, and a control register as RDCR and WRCR see it: 40 bits (R12, R60). -/
abbrev XWord := BitVec 40
/-- A command word (R60): `CMD_BITS`. -/
abbrev Cmd := BitVec Config.widths.cmdBits
/-- A response word (R62): `RSP_BITS`. -/
abbrev Rsp := BitVec Config.widths.rspBits

end Sys2Proof
end

