-- ==== Sys2Proof/Syntax.lean ====
section
/-! DEFINITION. The fifteen operations of 30_encoding.md rule R64, one constructor per row of spec/opcode_table.json. -/

namespace Sys2Proof

/-- A command the host can issue. Byte operands and the WRCR value are the unsigned fields of R65; a control
register number is the raw 8-bit field, since the operation itself judges it (R171, R172). -/
inductive Instr where
  /-- RDCR cr (0x01): read a control register, R171. -/
  | rdcr (cr : Byte)
  /-- WRCR cr, imm (0x02): write a control register, R172. -/
  | wrcr (cr : Byte) (imm : XWord)
  /-- INIT (0x03): start a new pass, R174. -/
  | init
  /-- FC.PIX r, g, b (0x10): convert one pixel, R87. -/
  | fcPix (r g b : Byte)
  /-- FC.END (0x11): end of the raw input, R91. -/
  | fcEnd
  /-- DLT.SUB a, b (0x20): delta-encode one byte, R101. -/
  | dltSub (a b : Byte)
  /-- DLT.ADD d, b (0x21): delta-decode one byte, R102. -/
  | dltAdd (d b : Byte)
  /-- RLE.PUSH b (0x30): next byte of the run-length encoder, R113. -/
  | rlePush (b : Byte)
  /-- RLE.END (0x31): the run-length encoder's input has ended, R115. -/
  | rleEnd
  /-- RLD.PAIR count, value (0x32): next pair of the run-length decoder, R121. -/
  | rldPair (count value : Byte)
  /-- RLD.END (0x33): deliver the expansion or refuse it, R122. -/
  | rldEnd
  /-- SE.PUSH b (0x40): next frame byte of the stream encoder, R132. -/
  | sePush (b : Byte)
  /-- SE.END (0x41): the video has ended, R136. -/
  | seEnd
  /-- SD.PUSH b (0x50): next stream byte of the stream decoder, R150. -/
  | sdPush (b : Byte)
  /-- SD.END (0x51): the stream has ended, R155. -/
  | sdEnd
deriving DecidableEq, Repr

end Sys2Proof
end

