-- ==== Sys2Proof/WellFormed.lean ====
section
/-! DEFINITION. Well-formed operations: those whose register number and value pass the checks that depend on the
command word alone (60_exceptions.md rule R193, order 3). Every term of `Instr` has an encoding; the ill-formed ones
raise IllegalCommand sub-cause 3, 4 or 5 when executed (45_system.md rules R171, R172). -/

namespace Sys2Proof

/-- The number is one of the seventeen of R12 (0x00 to 0x10). -/
def regDefined (cr : Byte) : Bool := decide (cr.toNat ≤ 0x10)

/-- The number is WIDTH, HEIGHT, XLEN or CTRL, the writable registers of R11. -/
def regWritable (cr : Byte) : Bool := cr == 0x01#8 || cr == 0x02#8 || cr == 0x04#8 || cr == 0x05#8

/-- The value fits the writable register: `DIM_BITS` bits for WIDTH and HEIGHT, one bit for CTRL (R172). -/
def regFits (cr : Byte) (imm : XWord) : Bool :=
  if cr = 0x01#8 ∨ cr = 0x02#8 then decide (imm.toNat < 2 ^ Config.widths.dimBits)
  else if cr = 0x05#8 then decide (imm.toNat < 2)
  else true

/-- An operation that its own word does not make an IllegalCommand. -/
def Instr.wellFormed : Instr → Bool
  | .rdcr cr => regDefined cr
  | .wrcr cr imm => regDefined cr && regWritable cr && regFits cr imm
  | .init => true
  | .fcPix _ _ _ => true
  | .fcEnd => true
  | .dltSub _ _ => true
  | .dltAdd _ _ => true
  | .rlePush _ => true
  | .rleEnd => true
  | .rldPair _ _ => true
  | .rldEnd => true
  | .sePush _ => true
  | .seEnd => true
  | .sdPush _ => true
  | .sdEnd => true

end Sys2Proof
end

