-- ==== Sys2Proof/Decode.lean ====
section
/-! DEFINITION. Command words (30_encoding.md rules R60, R61, R64 to R66): the decoder, total on every 64-bit word and
rejecting by name; the encoder, written from the same tables; the rows of the opcode table with their masks. -/

namespace Sys2Proof

/-- Why a word is no command (R66): sub-cause 1, `op` is not one of the fifteen; sub-cause 2, a must-be-zero bit of
the operation's format is 1. -/
inductive DecodeError where
  | opcode
  | reservedBits
deriving DecidableEq, Repr

/-- The six formats of R61. -/
inductive Format where
  | z
  | cr
  | cw
  | b
  | w
  | p
deriving DecidableEq, Repr

/-! The fields of R60 and the operand bytes of R61. -/

/-- `op`, bits 63:56. -/
def cmdOp (x : Cmd) : Byte := x.extractLsb' 56 8
/-- `cr`, bits 55:48. -/
def cmdCr (x : Cmd) : Byte := x.extractLsb' 48 8
/-- `rsv`, bits 47:40. -/
def cmdRsv (x : Cmd) : Byte := x.extractLsb' 40 8
/-- `imm`, bits 39:0. -/
def cmdImm (x : Cmd) : XWord := x.extractLsb' 0 40
/-- bits 7:0 of `imm` -/
def immLow (x : Cmd) : Byte := x.extractLsb' 0 8
/-- bits 15:8 of `imm` -/
def immMid (x : Cmd) : Byte := x.extractLsb' 8 8
/-- bits 23:16 of `imm` -/
def immHigh (x : Cmd) : Byte := x.extractLsb' 16 8

/-- The must-be-zero bits of each format are 0 (R61). -/
def formatLegal (f : Format) (x : Cmd) : Bool :=
  match f with
  | .z => cmdCr x == 0#8 && cmdRsv x == 0#8 && cmdImm x == 0#40
  | .cr => cmdRsv x == 0#8 && cmdImm x == 0#40
  | .cw => cmdRsv x == 0#8
  | .b => cmdCr x == 0#8 && cmdRsv x == 0#8 && x.extractLsb' 8 32 == 0#32
  | .w => cmdCr x == 0#8 && cmdRsv x == 0#8 && x.extractLsb' 16 24 == 0#24
  | .p => cmdCr x == 0#8 && cmdRsv x == 0#8 && x.extractLsb' 24 16 == 0#16

/-- The opcode map of R64: the format and the operation a word's opcode names, its operands copied out of the word. -/
def operationOf (x : Cmd) : Option (Format × Instr) :=
  match cmdOp x with
  | 0x01#8 => some (.cr, .rdcr (cmdCr x))
  | 0x02#8 => some (.cw, .wrcr (cmdCr x) (cmdImm x))
  | 0x03#8 => some (.z, .init)
  | 0x10#8 => some (.p, .fcPix (immHigh x) (immMid x) (immLow x))
  | 0x11#8 => some (.z, .fcEnd)
  | 0x20#8 => some (.w, .dltSub (immMid x) (immLow x))
  | 0x21#8 => some (.w, .dltAdd (immMid x) (immLow x))
  | 0x30#8 => some (.b, .rlePush (immLow x))
  | 0x31#8 => some (.z, .rleEnd)
  | 0x32#8 => some (.w, .rldPair (immMid x) (immLow x))
  | 0x33#8 => some (.z, .rldEnd)
  | 0x40#8 => some (.b, .sePush (immLow x))
  | 0x41#8 => some (.z, .seEnd)
  | 0x50#8 => some (.b, .sdPush (immLow x))
  | 0x51#8 => some (.z, .sdEnd)
  | _ => none

/-- Decoding (R66): an unknown opcode is looked at before the must-be-zero bits (R193, orders 1 and 2). -/
def decode (x : Cmd) : Except DecodeError Instr :=
  match operationOf x with
  | none => .error .opcode
  | some (f, i) => if formatLegal f x then .ok i else .error .reservedBits

/-! The encoder. -/

/-- `{op, cr, rsv = 0, imm}` (R60). -/
def cmdWord (op cr : Byte) (imm : XWord) : Cmd :=
  op.setWidth 64 <<< 56 ||| cr.setWidth 64 <<< 48 ||| imm.setWidth 64
/-- `imm` of format B: one byte in bits 7:0. -/
def immB (b : Byte) : XWord := b.setWidth 40
/-- `imm` of format W: the byte that comes first in the data stream in bits 15:8. -/
def immW (a b : Byte) : XWord := a.setWidth 40 <<< 8 ||| b.setWidth 40
/-- `imm` of format P: R above G above B. -/
def immP (r g b : Byte) : XWord := r.setWidth 40 <<< 16 ||| g.setWidth 40 <<< 8 ||| b.setWidth 40

/-- The opcode of each operation (R64). -/
def opcodeOf : Instr → Byte
  | .rdcr _ => 0x01#8
  | .wrcr _ _ => 0x02#8
  | .init => 0x03#8
  | .fcPix _ _ _ => 0x10#8
  | .fcEnd => 0x11#8
  | .dltSub _ _ => 0x20#8
  | .dltAdd _ _ => 0x21#8
  | .rlePush _ => 0x30#8
  | .rleEnd => 0x31#8
  | .rldPair _ _ => 0x32#8
  | .rldEnd => 0x33#8
  | .sePush _ => 0x40#8
  | .seEnd => 0x41#8
  | .sdPush _ => 0x50#8
  | .sdEnd => 0x51#8

/-- The command word of an operation. -/
def encode (i : Instr) : Cmd :=
  match i with
  | .rdcr cr => cmdWord (opcodeOf i) cr 0#40
  | .wrcr cr imm => cmdWord (opcodeOf i) cr imm
  | .init => cmdWord (opcodeOf i) 0#8 0#40
  | .fcPix r g b => cmdWord (opcodeOf i) 0#8 (immP r g b)
  | .fcEnd => cmdWord (opcodeOf i) 0#8 0#40
  | .dltSub a b => cmdWord (opcodeOf i) 0#8 (immW a b)
  | .dltAdd d b => cmdWord (opcodeOf i) 0#8 (immW d b)
  | .rlePush b => cmdWord (opcodeOf i) 0#8 (immB b)
  | .rleEnd => cmdWord (opcodeOf i) 0#8 0#40
  | .rldPair c v => cmdWord (opcodeOf i) 0#8 (immW c v)
  | .rldEnd => cmdWord (opcodeOf i) 0#8 0#40
  | .sePush b => cmdWord (opcodeOf i) 0#8 (immB b)
  | .seEnd => cmdWord (opcodeOf i) 0#8 0#40
  | .sdPush b => cmdWord (opcodeOf i) 0#8 (immB b)
  | .sdEnd => cmdWord (opcodeOf i) 0#8 0#40

/-! The rows of the opcode table as mask and match (R66). -/

/-- A row of the opcode table: a word `x` is a legal instance exactly when `x &&& mask = pattern`. -/
structure Row where
  mnemonic : String
  mask : Cmd
  pattern : Cmd
deriving DecidableEq, Repr

/-- The fifteen rows, masks and patterns as the table prints them. -/
def opcodeRows : List Row :=
  [ ⟨"RDCR", 0xFF00FFFFFFFFFFFF#64, 0x0100000000000000#64⟩,
    ⟨"WRCR", 0xFF00FF0000000000#64, 0x0200000000000000#64⟩,
    ⟨"INIT", 0xFFFFFFFFFFFFFFFF#64, 0x0300000000000000#64⟩,
    ⟨"FC.PIX", 0xFFFFFFFFFF000000#64, 0x1000000000000000#64⟩,
    ⟨"FC.END", 0xFFFFFFFFFFFFFFFF#64, 0x1100000000000000#64⟩,
    ⟨"DLT.SUB", 0xFFFFFFFFFFFF0000#64, 0x2000000000000000#64⟩,
    ⟨"DLT.ADD", 0xFFFFFFFFFFFF0000#64, 0x2100000000000000#64⟩,
    ⟨"RLE.PUSH", 0xFFFFFFFFFFFFFF00#64, 0x3000000000000000#64⟩,
    ⟨"RLE.END", 0xFFFFFFFFFFFFFFFF#64, 0x3100000000000000#64⟩,
    ⟨"RLD.PAIR", 0xFFFFFFFFFFFF0000#64, 0x3200000000000000#64⟩,
    ⟨"RLD.END", 0xFFFFFFFFFFFFFFFF#64, 0x3300000000000000#64⟩,
    ⟨"SE.PUSH", 0xFFFFFFFFFFFFFF00#64, 0x4000000000000000#64⟩,
    ⟨"SE.END", 0xFFFFFFFFFFFFFFFF#64, 0x4100000000000000#64⟩,
    ⟨"SD.PUSH", 0xFFFFFFFFFFFFFF00#64, 0x5000000000000000#64⟩,
    ⟨"SD.END", 0xFFFFFFFFFFFFFFFF#64, 0x5100000000000000#64⟩ ]

/-- The word a table row's bits make: the low `nbits` bits of `w`, every bit above them 0 (log entry 11). -/
def tableWord (nbits w : Nat) : Cmd := BitVec.ofNat Config.widths.cmdBits (w % 2 ^ nbits)

/-- The instruction the decoder reads from an instruction whose bits are `w`. A command is one word of `CMD_BITS`; there
is no instruction of more bits (log entry 11). -/
def decodeTableWord (nbits w : Nat) : Option Instr :=
  if nbits ≤ Config.widths.cmdBits then
    match decode (tableWord nbits w) with
    | .ok i => some i
    | .error _ => none
  else none

end Sys2Proof
end

