-- ==== Sys2Proof/Machine/State.lean ====
section
/-! DEFINITION. The state of the SRVE core as 10_state.md gives it (rules R10 to R27), the reasons a step of the model
can stop, and the state right after reset. -/

namespace Sys2Proof.Machine

/-! The kinds of thing the state names. -/

/-- The unit codes of R63 (code 7 never appears). -/
inductive UnitCode where
  | sys
  | fc
  | dlt
  | rle
  | rld
  | se
  | sd
deriving DecidableEq, Repr

/-- The four errors of R186. -/
inductive ErrKind where
  | invalidDimensions
  | corruptStream
  | lengthMismatch
  | illegalCommand
deriving DecidableEq, Repr

/-- The modes of unit SD (R22, R13); mode number 3 never occurs. -/
inductive SdMode where
  | rawFrame
  | rlePair
  | failed
deriving DecidableEq, Repr

/-- The buffers that a rule reads element by element (R40). -/
inductive BufId where
  | fcY
  | fcU
  | fcV
  | seCur
  | sePrev
  | sdAcc
  | sdPrev
deriving DecidableEq, Repr

/-- A buffer: the elements written so far as (index, element) pairs, indices strictly rising (`Memory.wf`). An index
that is not listed has no value (R26, R28; log entry 4). -/
abbrev Memory (α : Type) := List (Nat × α)

/-- Why a step of the model stops. No run from reset reaches any of these: each stands for a case that a rule of the
spec proves impossible, in a state no run reaches. All are SAFE: the model stops where the spec gives no value. -/
inductive Fault where
  /-- Raised by a frame completion (FC.PIX, SE.PUSH, SD.PUSH) that reads element `i` of buffer `b` before anything
  wrote it. R28 and U5 allow a model to fault here and show that no run does. Safe. -/
  | unwrittenElement (b : BufId) (i : Nat)
  /-- Raised by FC.PIX, SE.PUSH on an index outside the buffer, which R41 shows no rule computes. Safe. -/
  | indexOutOfRange (b : BufId) (i : Nat)
  /-- Raised by SD.PUSH when the pairs of `sd.acc` do not expand to `L` bytes although `sd.tally = L`, which R157
  shows impossible. Safe. -/
  | tallyDisagrees
deriving DecidableEq, Repr

/-- Why the model has no answer. No arm of `exec` answers this: every operation has its meaning. -/
inductive Refusal where
  /-- The instruction has no meaning yet. Safe. -/
  | notModelled (mnemonic : String)
deriving DecidableEq, Repr

/-! The parts of the state. -/

/-- The four writable control registers (R11). CTRL holds one bit, CHAIN. -/
structure CtlRegs where
  width : Dim
  height : Dim
  xlen : XLen
  chain : Bool
deriving DecidableEq, Repr

/-- The error record (R14): the first error since reset or INIT; code 0 is "no error". -/
structure ErrRecord where
  code : Byte
  stage : Byte
  sub : Byte
  idx : Idx
deriving DecidableEq, Repr

/-- Unit FC (R17). -/
structure FcUnit where
  pos : Len
  idx : Idx
  y : Memory Byte
  u : Memory Chroma
  v : Memory Chroma
deriving DecidableEq, Repr

/-- Unit RLE (R19). -/
structure RleUnit where
  active : Bool
  val : Byte
  cnt : Byte
deriving DecidableEq, Repr

/-- Unit RLD (R20); `overrun` is `rld.over`. -/
structure RldUnit where
  tally : XLen
  overrun : Bool
  buf : List Byte
deriving DecidableEq, Repr

/-- Unit SE (R21). -/
structure SeUnit where
  first : Bool
  pos : Len
  idx : Idx
  cur : Memory Byte
  prev : Memory Byte
deriving DecidableEq, Repr

/-- Unit SD (R22). `phase` is 1 (true) when the next byte is a value byte. -/
structure SdUnit where
  mode : SdMode
  phase : Bool
  tally : Len
  idx : Idx
  fsub : Byte
  fidx : Idx
  acc : List Byte
  prev : Memory Byte
deriving DecidableEq, Repr

/-- One element of OUT (R63): `{src, last, data}`. -/
structure Beat where
  src : UnitCode
  last : Bool
  data : Byte
deriving DecidableEq, Repr

/-- A response word (R62) by its fields. -/
structure Response where
  code : Byte
  stage : Byte
  sub : Byte
  val : XWord
deriving DecidableEq, Repr

/-- What the host can do to the block between two operations: present a command word (R8), assert `rst` (R210), or
remove the beat at the head of OUT (R24). Log entries 1, 2, 3. -/
inductive HostEvent where
  | command (w : Cmd)
  | rst
  | takeBeat
deriving DecidableEq, Repr

/-- The state of the block (R10), and the model's own queue of host events (log entry 1). -/
structure State where
  /-- the configuration registers, R11 -/
  ctl : CtlRegs
  /-- the error record, R14 -/
  err : ErrRecord
  /-- unit FC, R17 -/
  fc : FcUnit
  /-- unit RLE, R19 -/
  rle : RleUnit
  /-- unit RLD, R20 -/
  rld : RldUnit
  /-- unit SE, R21 -/
  se : SeUnit
  /-- unit SD, R22 -/
  sd : SdUnit
  /-- the output queue OUT, head first, R24 -/
  out : List Beat
  /-- RSP, the response of the most recent operation, R25; none before the first -/
  rsp : Option Response
  /-- the MODEL's own: host events not yet handled, oldest first -/
  inputs : List HostEvent
deriving DecidableEq, Repr

/-- The state after reset, R26. No buffer element is listed, since the spec gives them no reset value (log entry 4);
no host event waits (log entry 1). -/
def State.reset : State where
  ctl := { width := 0#16, height := 0#16, xlen := 0#40, chain := false }
  err := { code := 0#8, stage := 0#8, sub := 0#8, idx := 0#32 }
  fc := { pos := 0#34, idx := 0#32, y := [], u := [], v := [] }
  rle := { active := false, val := 0#8, cnt := 0#8 }
  rld := { tally := 0#40, overrun := false, buf := [] }
  se := { first := true, pos := 0#34, idx := 0#32, cur := [], prev := [] }
  sd := { mode := .rawFrame, phase := false, tally := 0#34, idx := 0#32, fsub := 0#8, fidx := 0#32,
          acc := [], prev := [] }
  out := []
  rsp := none
  inputs := []

end Sys2Proof.Machine
end

