-- ==== Sys2Proof/Machine/Geometry.lean ====
section
/-! DEFINITION. The derived quantities of 00_scope.md rule R4 (`dims_ok`, `NPIX`, `NC`, `L`, `RGBLEN`), recomputed from WIDTH and
HEIGHT whenever used (R10), and `dims_sub` of 40_color_convert.md rule R93. -/

namespace Sys2Proof.Machine

/-- `w`, the frame width in pixels. -/
def frameW (s : State) : Nat := s.ctl.width.toNat
/-- `h`, the frame height in pixels. -/
def frameH (s : State) : Nat := s.ctl.height.toNat

/-- `NPIX`: pixels of a frame, bytes of the Y plane. -/
def npixOf (w h : Nat) : Nat := w * h
/-- `NC`: bytes of each subsampled chroma plane. -/
def ncOf (w h : Nat) : Nat := w * h / 4
/-- `L`: bytes of a YUV420 frame. -/
def lenOf (w h : Nat) : Nat := 3 * w * h / 2

/-- `RGBLEN`: bytes of an RGB24 frame, three for each pixel (R4, R42). -/
def rgbLenOf (w h : Nat) : Nat := 3 * npixOf w h

/-- `dims_ok` for a width and a height (R4). -/
def dimsLegal (w h : Nat) : Bool :=
  w != 0 && h != 0 && w % 2 == 0 && h % 2 == 0 && decide (lenOf w h ≤ Config.params.lMax)

/-- `dims_ok` of the configured size. -/
def dimsOk (s : State) : Bool := dimsLegal (frameW s) (frameH s)
/-- `NPIX` of the configured size. -/
def npix (s : State) : Nat := npixOf (frameW s) (frameH s)
/-- `NC` of the configured size. -/
def chromaLen (s : State) : Nat := ncOf (frameW s) (frameH s)
/-- `L` of the configured size. -/
def frameLen (s : State) : Nat := lenOf (frameW s) (frameH s)
/-- `RGBLEN` of the configured size. -/
def rgbLen (s : State) : Nat := rgbLenOf (frameW s) (frameH s)

/-- `dims_sub()` (R93, R187): 1 ZERO, else 2 ODD, else 3 TOO_LARGE. -/
def dimsSubOf (w h : Nat) : Byte :=
  if w = 0 ∨ h = 0 then 1#8
  else if w % 2 ≠ 0 ∨ h % 2 ≠ 0 then 2#8
  else 3#8

/-- The sub-cause that InvalidDimensions reports for the configured size. -/
def dimsSub (s : State) : Byte := dimsSubOf (frameW s) (frameH s)

end Sys2Proof.Machine
end

