-- ==== Sys2Proof/Machine/Ops.lean ====
section
/-! DEFINITION. The named operations the meanings share: reading and writing buffers (R40, R41), `emit` and `respond`
(R7, R62, R63), raising an error and the return from one (R190, R194), `reinit` (R27), and what the host's events do. -/

namespace Sys2Proof.Machine

/-! Buffers. -/

/-- The canonical form of a buffer: indices strictly rising. No listed element can equal what an unlisted index reads
as, since an unlisted index has no value. -/
abbrev Memory.wf {α : Type} (m : Memory α) : Prop := m.Pairwise (fun a b => a.1 < b.1)

/-- Element `i`, if anything wrote it. -/
def bufGet {α : Type} (m : Memory α) (i : Nat) : Option α :=
  match m with
  | [] => none
  | (j, x) :: rest => if i = j then some x else bufGet rest i

/-- Element `i` replaced by `v`, the indices kept rising. -/
def bufPut {α : Type} (m : Memory α) (i : Nat) (v : α) : Memory α :=
  match m with
  | [] => [(i, v)]
  | (j, x) :: rest =>
    if i < j then (i, v) :: (j, x) :: rest
    else if i = j then (i, v) :: rest
    else (j, x) :: bufPut rest i v

/-- `BufRead(b, i)` of a buffer of `n` elements (R41). -/
def bufRead {α : Type} (b : BufId) (n : Nat) (m : Memory α) (i : Nat) : Except Fault α :=
  if i < n then
    match bufGet m i with
    | some x => .ok x
    | none => .error (.unwrittenElement b i)
  else .error (.indexOutOfRange b i)

/-- `BufWrite(b, i, v)` of a buffer of `n` elements (R41). -/
def bufWrite {α : Type} (b : BufId) (n : Nat) (m : Memory α) (i : Nat) (v : α) : Except Fault (Memory α) :=
  if i < n then .ok (bufPut m i v) else .error (.indexOutOfRange b i)

/-- Element `i` of a sequence, `sd.acc[i]`. -/
def seqRead {α : Type} (b : BufId) (xs : List α) (i : Nat) : Except Fault α :=
  match xs[i]? with
  | some x => .ok x
  | none => .error (.unwrittenElement b i)

/-- The values `f k, f (k+1), …`, `n` of them, in order: the loop `for i in k .. k+n-1` of a rule. -/
def collect {α : Type} (f : Nat → Except Fault α) (k : Nat) : Nat → Except Fault (List α)
  | 0 => .ok []
  | n + 1 =>
    match f k with
    | .error e => .error e
    | .ok x =>
      match collect f (k + 1) n with
      | .error e => .error e
      | .ok xs => .ok (x :: xs)

/-- The first `n` elements of a buffer of `n` elements. -/
def bufReadAll {α : Type} (b : BufId) (n : Nat) (m : Memory α) : Except Fault (List α) :=
  collect (bufRead b n m) 0 n

/-- Elements `k`, `k+1`, … replaced by the list's members in order. -/
def bufPutFrom {α : Type} (m : Memory α) (k : Nat) : List α → Memory α
  | [] => m
  | x :: xs => bufPutFrom (bufPut m k x) (k + 1) xs

/-! Output. -/

/-- The beats of one `emit` call (R7, R63): one per byte, `last` on the final one only; none for no bytes. -/
def beatsOf (src : UnitCode) : List Byte → List Beat
  | [] => []
  | [b] => [{ src := src, last := true, data := b }]
  | b :: b' :: bs => { src := src, last := false, data := b } :: beatsOf src (b' :: bs)

/-- `emit(src, bytes)`: append the beats to OUT (R7, R24). -/
def emit (src : UnitCode) (bytes : List Byte) (s : State) : State :=
  { s with out := s.out ++ beatsOf src bytes }

/-- The unit code as `stage` and `src` carry it (R63). -/
def unitNumber : UnitCode → Byte
  | .sys => 0#8
  | .fc => 1#8
  | .dlt => 2#8
  | .rle => 3#8
  | .rld => 4#8
  | .se => 5#8
  | .sd => 6#8

/-- A beat as the 12 bits of R63: `src` in 11:9, `last` in 8, `data` in 7:0. -/
def beatBits (b : Beat) : BitVec 12 :=
  (unitNumber b.src).setWidth 12 <<< 9 ||| (if b.last then 0x100#12 else 0#12) ||| b.data.setWidth 12

/-- A response as the word of R62: `code` in 63:56, `stage` in 55:48, `sub` in 47:40, `val` in 39:0. -/
def responseBits (r : Response) : Rsp :=
  r.code.setWidth 64 <<< 56 ||| r.stage.setWidth 64 <<< 48 ||| r.sub.setWidth 64 <<< 40 ||| r.val.setWidth 64

/-- `respond(code, stage, sub, val)` (R7, R62): the operation's one response. -/
def respond (code stage sub : Byte) (val : XWord) (s : State) : State :=
  { s with rsp := some { code := code, stage := stage, sub := sub, val := val } }

/-- `respond(OK, 0, 0, val)`. -/
def respondOk (val : XWord) (s : State) : State := respond 0#8 0#8 0#8 val s

/-! Errors: taking one, and the return. -/

/-- The code of an error (R186). -/
def errCode : ErrKind → Byte
  | .invalidDimensions => 1#8
  | .corruptStream => 2#8
  | .lengthMismatch => 3#8
  | .illegalCommand => 4#8

/-- The first error since reset or INIT is latched; a later one leaves the record (R190, R14). -/
def latchError (e : ErrKind) (stage : UnitCode) (sub : Byte) (idx : Idx) (s : State) : State :=
  if s.err.code = 0#8 then
    { s with err := { code := errCode e, stage := unitNumber stage, sub := sub, idx := idx } }
  else s

/-- `raise E(stage, sub, idx)`, the block's trap entry (R190): latch, then answer with the error. Nothing else. -/
def raise (e : ErrKind) (stage : UnitCode) (sub : Byte) (idx : Idx) (s : State) : State :=
  respond (errCode e) (unitNumber stage) sub (idx.setWidth 40) (latchError e stage sub idx s)

/-- The clearing of the error record, INIT's part of the return from an error (R174, R194). -/
def clearError (s : State) : State :=
  { s with err := { code := 0#8, stage := 0#8, sub := 0#8, idx := 0#32 } }

/-- The number of a sub-cause of a word that is no command (R66, R189). -/
def decodeErrorSub : DecodeError → Byte
  | .opcode => 1#8
  | .reservedBits => 2#8

/-- A command word that is no operation raises IllegalCommand from SYS with index 0 and does nothing else (R66, R189). -/
def raiseIllegalWord (e : DecodeError) (s : State) : State :=
  raise .illegalCommand .sys (decodeErrorSub e) 0#32 s

/-! `reinit(u)` (R27): buffer contents are left as they are. -/

/-- `reinit(FC)`. -/
def reinitFc (s : State) : State := { s with fc := { s.fc with pos := 0#34, idx := 0#32 } }

/-- `reinit(RLE)`. -/
def reinitRle (s : State) : State := { s with rle := { s.rle with active := false } }

/-- `reinit(RLD)`. -/
def reinitRld (s : State) : State := { s with rld := { tally := 0#40, overrun := false, buf := [] } }

/-- `reinit(SE)`. -/
def reinitSe (s : State) : State := { s with se := { s.se with first := true, pos := 0#34, idx := 0#32 } }

/-- `reinit(SD)`. -/
def reinitSd (s : State) : State :=
  { s with sd := { mode := .rawFrame, phase := false, tally := 0#34, idx := 0#32, fsub := 0#8, fidx := 0#32,
                   acc := [], prev := s.sd.prev } }

/-- What a write of WIDTH or HEIGHT reinitialises (R173). -/
def reinitFrameUnits (s : State) : State := reinitSd (reinitSe (reinitFc s))

/-! Frame indices. -/

/-- `sat_N(v + 1)` for N = `IDX_BITS` (R6, R222): frame indices stop at `2^N - 1`. -/
def satInc (v : Idx) : Idx :=
  BitVec.ofNat Config.widths.idxBits (min (v.toNat + 1) (2 ^ Config.widths.idxBits - 1))

/-! From a computation that can fault to an outcome. -/

/-- A state, or the fault that stops the step. -/
def finish (r : Except Fault State) : Host.Outcome State Fault Refusal :=
  match r with
  | .ok s => .next s
  | .error f => .fault f

/-! The host's side. -/

/-- The oldest host event and the state with it taken off the queue. -/
def nextEvent (s : State) : Option (HostEvent × State) :=
  match s.inputs with
  | [] => none
  | e :: rest => some (e, { s with inputs := rest })

/-- `rst` asserted (R210): every piece of the block's state at its reset value; the host's later events stay. -/
def applyReset (s : State) : State := { State.reset with inputs := s.inputs }

/-- The host removes the beat at the head of OUT, if there is one (R24). -/
def removeBeat (s : State) : State := { s with out := s.out.drop 1 }

/-- The host presents a command word next, before every event still waiting. -/
def presentNext (w : Cmd) (s : State) : State := { s with inputs := .command w :: s.inputs }

end Sys2Proof.Machine
end

