-- ==== Sys2Proof/Machine/Operands.lean ====
section
/-! DEFINITION. Operand forms (30_encoding.md rule R65): the control register numbers of 10_state.md rule R12 and how a
WRCR value is checked against its register (45_system.md rule R172). Byte operands are used as they stand. -/

namespace Sys2Proof.Machine

/-- The seventeen control registers of R12. -/
inductive CtlReg where
  | id
  | width
  | height
  | len
  | xlen
  | ctrl
  | status
  | errstat
  | erridx
  | fcPos
  | fcIdx
  | sePos
  | seIdx
  | sdTally
  | sdIdx
  | rldTally
  | rleRun
deriving DecidableEq, Repr

/-- The register a number names; none for a reserved number (R12). -/
def ctlRegOf (n : Byte) : Option CtlReg :=
  match n with
  | 0x00#8 => some .id
  | 0x01#8 => some .width
  | 0x02#8 => some .height
  | 0x03#8 => some .len
  | 0x04#8 => some .xlen
  | 0x05#8 => some .ctrl
  | 0x06#8 => some .status
  | 0x07#8 => some .errstat
  | 0x08#8 => some .erridx
  | 0x09#8 => some .fcPos
  | 0x0A#8 => some .fcIdx
  | 0x0B#8 => some .sePos
  | 0x0C#8 => some .seIdx
  | 0x0D#8 => some .sdTally
  | 0x0E#8 => some .sdIdx
  | 0x0F#8 => some .rldTally
  | 0x10#8 => some .rleRun
  | _ => none

/-- What a WRCR of a register with a value meets, in the order of R172. -/
inductive WriteCheck where
  /-- sub-cause 3: reserved register number -/
  | reserved
  /-- sub-cause 4: read-only register -/
  | readOnly
  /-- sub-cause 5: the value does not fit -/
  | tooWide
  /-- WIDTH takes the value -/
  | toWidth
  /-- HEIGHT takes the value -/
  | toHeight
  /-- XLEN takes the value -/
  | toXlen
  /-- CTRL takes the value -/
  | toCtrl
deriving DecidableEq, Repr

/-- The checks of R172 on a register number and a value: number, then writability, then range. -/
def writeCheck (cr : Byte) (imm : XWord) : WriteCheck :=
  match ctlRegOf cr with
  | none => .reserved
  | some .width => if imm.toNat < 2 ^ Config.widths.dimBits then .toWidth else .tooWide
  | some .height => if imm.toNat < 2 ^ Config.widths.dimBits then .toHeight else .tooWide
  | some .xlen => .toXlen
  | some .ctrl => if imm.toNat < 2 then .toCtrl else .tooWide
  | some _ => .readOnly

end Sys2Proof.Machine
end

