-- ==== Sys2Proof/Machine/Flags.lean ====
section
/-! DEFINITION. The one-bit state as software sees it (10_state.md rules R13, R16): the STATUS view, the `err` pin
(60_exceptions.md rule R196), and the value every control register reads as (rule R12). -/

namespace Sys2Proof.Machine

/-- The output pin `err` (R196). -/
def errPin (s : State) : Bool := s.err.code != 0#8

/-- `sd.mode` as STATUS shows it (R13). -/
def modeNumber : SdMode → BitVec 2
  | .rawFrame => 0#2
  | .rlePair => 1#2
  | .failed => 2#2

/-- A flag at bit `k` of a 40-bit register. -/
def flagAt (k : Nat) (b : Bool) : XWord := if b then 1#40 <<< k else 0#40

/-- FC_BUSY, `fc.pos != 0`. -/
def fcBusy (s : State) : Bool := s.fc.pos != 0#34
/-- SE_BUSY, `se.pos != 0`. -/
def seBusy (s : State) : Bool := s.se.pos != 0#34
/-- SD_BUSY, `len(sd.acc) != 0`. -/
def sdBusy (s : State) : Bool := !s.sd.acc.isEmpty
/-- RLD_BUSY, `rld.tally != 0 or rld.over`. -/
def rldBusy (s : State) : Bool := s.rld.tally != 0#40 || s.rld.overrun

/-- STATUS, assembled at the time of the read (R13). -/
def statusValue (s : State) : XWord :=
  flagAt 0 (dimsOk s) ||| flagAt 1 (errPin s) ||| (modeNumber s.sd.mode).setWidth 40 <<< 2 |||
  flagAt 4 s.sd.phase ||| flagAt 5 s.se.first ||| flagAt 6 s.rle.active ||| flagAt 7 s.rld.overrun |||
  flagAt 8 (fcBusy s) ||| flagAt 9 (seBusy s) ||| flagAt 10 (sdBusy s) ||| flagAt 11 (rldBusy s)

/-- ERRSTAT, `{err.sub, err.stage, err.code}` in bits 23:0 (R14). -/
def errstatValue (e : ErrRecord) : XWord :=
  e.sub.setWidth 40 <<< 16 ||| e.stage.setWidth 40 <<< 8 ||| e.code.setWidth 40

/-- RLE_RUN, `{rle.cnt, rle.val}` in bits 15:0 while a run is open, else 0 (R12). -/
def rleRunValue (r : RleUnit) : XWord :=
  if r.active then r.cnt.setWidth 40 <<< 8 ||| r.val.setWidth 40 else 0#40

/-- LEN, `L` if `dims_ok`, else 0 (R12). -/
def lenValue (s : State) : XWord := if dimsOk s then BitVec.ofNat 40 (frameLen s) else 0#40

/-- The value read from each control register (R12). -/
def ctlValue (r : CtlReg) (s : State) : XWord :=
  match r with
  | .id => 0x0053525607#40
  | .width => s.ctl.width.setWidth 40
  | .height => s.ctl.height.setWidth 40
  | .len => lenValue s
  | .xlen => s.ctl.xlen.setWidth 40
  | .ctrl => flagAt 0 s.ctl.chain
  | .status => statusValue s
  | .errstat => errstatValue s.err
  | .erridx => s.err.idx.setWidth 40
  | .fcPos => s.fc.pos.setWidth 40
  | .fcIdx => s.fc.idx.setWidth 40
  | .sePos => s.se.pos.setWidth 40
  | .seIdx => s.se.idx.setWidth 40
  | .sdTally => s.sd.tally.setWidth 40
  | .sdIdx => s.sd.idx.setWidth 40
  | .rldTally => s.rld.tally.setWidth 40
  | .rleRun => rleRunValue s.rle

end Sys2Proof.Machine
end

