-- ==== Sys2Proof/Machine/Delta.lean ====
section
/-! DEFINITION. Unit DLT, the mod-256 delta coder (41_delta.md rules R100 to R102). -/

namespace Sys2Proof.Machine

/-- `delta_enc(a, b) = (a - b) mod 256` (R100), over the integers as the rule asks. -/
def deltaEnc (a b : Byte) : Byte := BitVec.ofInt 8 (((a.toNat : Int) - (b.toNat : Int)) % 256)

/-- `delta_dec(d, b) = (d + b) mod 256` (R100). -/
def deltaDec (d b : Byte) : Byte := BitVec.ofInt 8 (((d.toNat : Int) + (b.toNat : Int)) % 256)

/-- DLT.SUB a, b (R101). -/
def execDltSub (a b : Byte) (s : State) : Host.Outcome State Fault Refusal :=
  .next (respondOk 0#40 (emit .dlt [deltaEnc a b] s))

/-- DLT.ADD d, b (R102). -/
def execDltAdd (d b : Byte) (s : State) : Host.Outcome State Fault Refusal :=
  .next (respondOk 0#40 (emit .dlt [deltaDec d b] s))

end Sys2Proof.Machine
end

