-- ==== Sys2Proof/Machine/Rle.lean ====
section
/-! DEFINITION. Units RLE and RLD: the run-length functions and the four operations (42_rle.md rules R110 to R123). -/

namespace Sys2Proof.Machine

/-! The two functions. -/

/-- The pairs of `xs` with a run of `n` copies of `v` already open: the inner loop of R110 and what follows it. A run
closes when the next byte differs, when the input ends, or at the cap. -/
def rleEncodeRun (v : Byte) (n : Nat) : List Byte → List Byte
  | [] => [BitVec.ofNat 8 n, v]
  | x :: xs =>
    if x = v ∧ n < Config.params.runCap then rleEncodeRun v (n + 1) xs
    else BitVec.ofNat 8 n :: v :: rleEncodeRun x 1 xs

/-- `rle_encode(S)` (R110): the count and value bytes of the maximal runs, capped at 255. -/
def rleEncode : List Byte → List Byte
  | [] => []
  | x :: xs => rleEncodeRun x 1 xs

/-- `pairs(s)`: a byte sequence read as (count, value) pairs (R153); an odd last byte is in no pair. -/
def pairsOf : List Byte → List (Byte × Byte)
  | c :: v :: rest => (c, v) :: pairsOf rest
  | _ => []

/-- `rep(c, v)` for every pair, concatenated (R111). -/
def expandPairs : List (Byte × Byte) → List Byte
  | [] => []
  | (c, v) :: rest => List.replicate c.toNat v ++ expandPairs rest

/-- `rle_decode(P, X)` (R111): none where the length is not the expected one (LengthMismatch). -/
def rleDecode (ps : List (Byte × Byte)) (x : Nat) : Option (List Byte) :=
  if (expandPairs ps).length = x then some (expandPairs ps) else none

/-! The encoder. -/

/-- The open run as its pair, count byte first (R113, R114). -/
def openRun (r : RleUnit) : List Byte := [r.cnt, r.val]

/-- RLE.PUSH b (R113). -/
def execRlePush (b : Byte) (s : State) : Host.Outcome State Fault Refusal :=
  if s.rle.active = false then
    .next (respondOk 0#40 { s with rle := { active := true, val := b, cnt := 1#8 } })
  else if b = s.rle.val ∧ s.rle.cnt.toNat < Config.params.runCap then
    .next (respondOk 0#40 { s with rle := { s.rle with cnt := s.rle.cnt + 1#8 } })
  else
    .next (respondOk 0#40 { emit .rle (openRun s.rle) s with rle := { s.rle with val := b, cnt := 1#8 } })

/-- RLE.END (R115). -/
def execRleEnd (s : State) : Host.Outcome State Fault Refusal :=
  .next (respondOk 0#40 (reinitRle (if s.rle.active then emit .rle (openRun s.rle) s else s)))

/-! The decoder. -/

/-- RLD.PAIR count, value (R121). -/
def execRldPair (c v : Byte) (s : State) : Host.Outcome State Fault Refusal :=
  if s.rld.overrun then .next (respondOk 0#40 s)
  else if s.rld.tally.toNat + c.toNat > s.ctl.xlen.toNat then
    .next (respondOk 0#40 { s with rld := { s.rld with overrun := true } })
  else
    .next (respondOk 0#40
      { s with rld := { s.rld with buf := s.rld.buf ++ List.replicate c.toNat v,
                                   tally := s.rld.tally + c.setWidth Config.widths.xlenBits } })

/-- RLD.END (R122): sub-cause 2 LONG, 1 SHORT, or the expansion. -/
def execRldEnd (s : State) : Host.Outcome State Fault Refusal :=
  if s.rld.overrun then .next (raise .lengthMismatch .rld 2#8 0#32 (reinitRld s))
  else if s.rld.tally ≠ s.ctl.xlen then .next (raise .lengthMismatch .rld 1#8 0#32 (reinitRld s))
  else .next (respondOk 0#40 (reinitRld (emit .rld s.rld.buf s)))

end Sys2Proof.Machine
end

