-- ==== Sys2Proof/Machine/StreamEncode.lean ====
section
/-! DEFINITION. Unit SE, the stream encoder (43_stream_encode.md rules R130 to R137). -/

namespace Sys2Proof.Machine

/-- What a completed frame puts on OUT (R133): frame 0 raw, a later one the RLE of its delta against `se.prev`. -/
def seFrameBytes (n : Nat) (se : SeUnit) (cur : List Byte) : Except Fault (List Byte) :=
  if se.first then .ok cur
  else
    match bufReadAll .sePrev n se.prev with
    | .error e => .error e
    | .ok prev => .ok (rleEncode (List.zipWith deltaEnc cur prev))

/-- `se_frame()` (R133): the frame in `se.cur` is complete. -/
def seFrame (s : State) : Except Fault State :=
  match bufReadAll .seCur (frameLen s) s.se.cur with
  | .error e => .error e
  | .ok cur =>
    match seFrameBytes (frameLen s) s.se cur with
    | .error e => .error e
    | .ok bytes =>
      .ok { emit .se bytes s with
            se := { first := false, pos := 0#34, idx := satInc s.se.idx, cur := s.se.cur,
                    prev := bufPutFrom s.se.prev 0 cur } }

/-- `se_push(b)` (R132), the body that SE.PUSH and the chain share. -/
def sePushByte (b : Byte) (s : State) : Except Fault State :=
  match bufWrite .seCur (frameLen s) s.se.cur s.se.pos.toNat b with
  | .error e => .error e
  | .ok cur =>
    if s.se.pos.toNat + 1 < frameLen s then
      .ok { s with se := { s.se with cur := cur, pos := s.se.pos + 1#34 } }
    else seFrame { s with se := { s.se with cur := cur } }

/-- The bytes of a chained frame pushed one after the other (R90). -/
def sePushAll : List Byte → State → Except Fault State
  | [], s => .ok s
  | b :: bs, s =>
    match sePushByte b s with
    | .error e => .error e
    | .ok s' => sePushAll bs s'

/-- SE.PUSH b (R132). -/
def execSePush (b : Byte) (s : State) : Host.Outcome State Fault Refusal :=
  if dimsOk s then
    match sePushByte b s with
    | .error e => .fault e
    | .ok s' => .next (respondOk 0#40 s')
  else .next (raise .invalidDimensions .se (dimsSub s) s.se.idx s)

/-- SE.END (R136): a partial frame is dropped and its length reported. -/
def execSeEnd (s : State) : Host.Outcome State Fault Refusal :=
  .next (respondOk (s.se.pos.setWidth 40) (reinitSe s))

end Sys2Proof.Machine
end

