-- ==== Sys2Proof/Machine/StreamDecode.lean ====
section
/-! DEFINITION. Unit SD, the stream frame-boundary decoder (44_stream_decode.md rules R145 to R160). -/

namespace Sys2Proof.Machine

/-- `sd_fail(sub)` (R154): enter Failed mode, record the failure, raise CorruptStream. -/
def sdFail (sub : Byte) (s : State) : State :=
  raise .corruptStream .sd sub s.sd.idx
    { s with sd := { s.sd with fsub := sub, fidx := s.sd.idx, mode := .failed } }

/-- A frame is complete: it leaves by one `emit`, becomes the previous frame, and the per-frame state is reset
(the common ending of R151 and R153). -/
def sdDeliver (frame prev : List Byte) (s : State) : State :=
  { emit .sd frame s with
    sd := { s.sd with mode := .rlePair, phase := false, tally := 0#34, idx := satInc s.sd.idx, acc := [],
                      prev := bufPutFrom s.sd.prev 0 prev } }

/-- `sd_raw(b)` (R151): a byte of frame 0. -/
def sdRaw (b : Byte) (s : State) : Except Fault State :=
  let acc := s.sd.acc ++ [b]
  let tally := s.sd.tally + 1#34
  if tally.toNat = frameLen s then
    match collect (seqRead .sdAcc acc) 0 (frameLen s) with
    | .error e => .error e
    | .ok kept => .ok (respondOk 0#40 (sdDeliver acc kept s))
  else .ok (respondOk 0#40 { s with sd := { s.sd with acc := acc, tally := tally } })

/-- `sd_count(c)` (R152): a count byte; passing `L` fails at once with sub-cause 1 OVERSHOOT. -/
def sdCount (c : Byte) (s : State) : State :=
  let s' := { s with sd := { s.sd with acc := s.sd.acc ++ [c],
                                       tally := s.sd.tally + c.setWidth Config.widths.lenBits, phase := true } }
  if s'.sd.tally.toNat > frameLen s then sdFail 1#8 s' else respondOk 0#40 s'

/-- The frame that the pairs in `acc` and the previous frame give (R153). -/
def sdFrame (n : Nat) (acc : List Byte) (prev : Memory Byte) : Except Fault (List Byte) :=
  match rleDecode (pairsOf acc) n with
  | none => .error .tallyDisagrees
  | some d =>
    match bufReadAll .sdPrev n prev with
    | .error e => .error e
    | .ok p => .ok (List.zipWith deltaDec d p)

/-- `sd_value(v)` (R153): a value byte; the frame completes when the tally is `L`. -/
def sdValue (v : Byte) (s : State) : Except Fault State :=
  let acc := s.sd.acc ++ [v]
  if s.sd.tally.toNat = frameLen s then
    match sdFrame (frameLen s) acc s.sd.prev with
    | .error e => .error e
    | .ok frame => .ok (respondOk 0#40 (sdDeliver frame frame s))
  else .ok (respondOk 0#40 { s with sd := { s.sd with acc := acc, phase := false } })

/-- The three sub-steps of SD.PUSH and its Failed mode (R150, R192), the dimensions being legal. -/
def sdPushByte (b : Byte) (s : State) : Except Fault State :=
  match s.sd.mode with
  | .failed => .ok (raise .corruptStream .sd s.sd.fsub s.sd.fidx s)
  | .rawFrame => sdRaw b s
  | .rlePair => if s.sd.phase then sdValue b s else .ok (sdCount b s)

/-- SD.PUSH b (R150). -/
def execSdPush (b : Byte) (s : State) : Host.Outcome State Fault Refusal :=
  if dimsOk s then finish (sdPushByte b s)
  else .next (raise .invalidDimensions .sd (dimsSub s) s.sd.idx s)

/-- SD.END (R155): clean at a frame boundary, else MIDPAIR or TRUNCATED; in Failed mode the latched failure. -/
def execSdEnd (s : State) : Host.Outcome State Fault Refusal :=
  if s.sd.mode = .failed then .next (raise .corruptStream .sd s.sd.fsub s.sd.fidx s)
  else if s.sd.acc = [] then .next (respondOk 0#40 (reinitSd s))
  else if s.sd.mode = .rlePair ∧ s.sd.phase = true ∧ s.sd.tally.toNat = frameLen s then .next (sdFail 3#8 s)
  else .next (sdFail 2#8 s)

end Sys2Proof.Machine
end

