-- ==== Sys2Proof/Machine/ColorConvert.lean ====
section
/-! DEFINITION. Unit FC: colour conversion, chroma subsampling and frame packing (40_color_convert.md rules R80 to R93). -/

namespace Sys2Proof.Machine

/-! The arithmetic, over a coefficient record. -/

/-- `clamp8` of an integer (R84): truncation has already been made by a floor division, and the two differ only below
0, where both clamp to 0. -/
def clamp8 (q : Int) : Byte := BitVec.ofNat 8 (min 255 q.toNat)

/-- `y1000(r, g, b)` (R81). -/
def y1000 (k : Config.Coeffs) (r g b : Byte) : Int :=
  k.yr * (r.toNat : Int) + k.yg * (g.toNat : Int) + k.yb * (b.toNat : Int)

/-- `csc_y(r, g, b)` (R81). -/
def cscY (k : Config.Coeffs) (r g b : Byte) : Byte := clamp8 (y1000 k r g b / Config.params.qy)

/-- `csc_u(r, g, b)` (R82), in ten-thousandths. -/
def cscU (k : Config.Coeffs) (r g b : Byte) : Int :=
  k.u0 + k.ur * (r.toNat : Int) + k.ug * (g.toNat : Int) + k.ub * (b.toNat : Int)

/-- `csc_v(r, g, b)` (R82), in ten-thousandths. -/
def cscV (k : Config.Coeffs) (r g b : Byte) : Int :=
  k.v0 + k.vr * (r.toNat : Int) + k.vg * (g.toNat : Int) + k.vb * (b.toNat : Int)

/-- `css_avg(a, b, c, d)` (R85): the exact average of four intermediates, truncated once. -/
def cssAvg (a b c d : Int) : Byte := clamp8 ((a + b + c + d) / (4 * Config.params.qc))

/-! Frame packing. -/

/-- The chroma byte of cell `(cx, cy)`: the average of its 2x2 block (R54, R86). -/
def chromaCell (b : BufId) (n w : Nat) (m : Memory Chroma) (cy cx : Nat) : Except Fault Byte :=
  let i00 := (2 * cy) * w + 2 * cx
  match bufRead b n m i00, bufRead b n m (i00 + 1), bufRead b n m (i00 + w), bufRead b n m (i00 + w + 1) with
  | .ok p00, .ok p10, .ok p01, .ok p11 =>
    .ok (cssAvg (p00.toNat : Int) (p10.toNat : Int) (p01.toNat : Int) (p11.toNat : Int))
  | .error e, _, _, _ => .error e
  | _, .error e, _, _ => .error e
  | _, _, .error e, _ => .error e
  | _, _, _, .error e => .error e

/-- A subsampled chroma plane: cell `k` of the plane is `(k mod (w/2), k div (w/2))`, row-major (R44, R86). -/
def chromaPlane (b : BufId) (w h : Nat) (m : Memory Chroma) : Except Fault (List Byte) :=
  collect (fun k => chromaCell b (npixOf w h) w m (k / (w / 2)) (k % (w / 2))) 0 (ncOf w h)

/-- `fc_pack()` (R86): the Y plane, then the subsampled U plane, then the subsampled V plane. -/
def fcPack (w h : Nat) (fc : FcUnit) : Except Fault (List Byte) :=
  match bufReadAll .fcY (npixOf w h) fc.y, chromaPlane .fcU w h fc.u, chromaPlane .fcV w h fc.v with
  | .ok y, .ok u, .ok v => .ok (y ++ u ++ v)
  | .error e, _, _ => .error e
  | _, .error e, _ => .error e
  | _, _, .error e => .error e

/-! The operations. -/

/-- The three buffer writes of FC.PIX at `fc.pos` (R87). -/
def fcStore (r g b : Byte) (s : State) : Except Fault State :=
  match bufWrite .fcY (npix s) s.fc.y s.fc.pos.toNat (cscY Config.params.k r g b),
        bufWrite .fcU (npix s) s.fc.u s.fc.pos.toNat (BitVec.ofInt 22 (cscU Config.params.k r g b)),
        bufWrite .fcV (npix s) s.fc.v s.fc.pos.toNat (BitVec.ofInt 22 (cscV Config.params.k r g b)) with
  | .ok y, .ok u, .ok v => .ok { s with fc := { s.fc with y := y, u := u, v := v } }
  | .error e, _, _ => .error e
  | _, .error e, _ => .error e
  | _, _, .error e => .error e

/-- Where a completed frame goes (R87, R90): OUT, or unit SE when CHAIN is 1. -/
def fcDeliver (frame : List Byte) (s : State) : Except Fault State :=
  if s.ctl.chain then sePushAll frame s else .ok (emit .fc frame s)

/-- Frame completion (R87, R88). -/
def fcFrame (s : State) : Except Fault State :=
  match fcPack (frameW s) (frameH s) s.fc with
  | .error e => .error e
  | .ok frame => fcDeliver frame { s with fc := { s.fc with pos := 0#34, idx := satInc s.fc.idx } }

/-- The pixel is stored; the position moves on or the frame completes (R87). -/
def fcPixel (r g b : Byte) (s : State) : Except Fault State :=
  match fcStore r g b s with
  | .error e => .error e
  | .ok s' =>
    if s.fc.pos.toNat + 1 < npix s then .ok { s' with fc := { s'.fc with pos := s.fc.pos + 1#34 } }
    else fcFrame s'

/-- FC.PIX r, g, b (R87). -/
def execFcPix (r g b : Byte) (s : State) : Host.Outcome State Fault Refusal :=
  if dimsOk s then
    match fcPixel r g b s with
    | .error e => .fault e
    | .ok s' => .next (respondOk 0#40 s')
  else .next (raise .invalidDimensions .fc (dimsSub s) s.fc.idx s)

/-- FC.END (R91): a partial frame is dropped and its pixel count reported. -/
def execFcEnd (s : State) : Host.Outcome State Fault Refusal :=
  .next (respondOk (s.fc.pos.setWidth 40) (reinitFc s))

end Sys2Proof.Machine
end

