-- ==== Sys2Proof/Machine/System.lean ====
section
/-! DEFINITION. The system operations RDCR, WRCR, INIT (45_system.md rules R170 to R174). -/

namespace Sys2Proof.Machine

/-- RDCR cr (R171): sub-cause 3 for a reserved number, else the register's value. -/
def execRdcr (cr : Byte) (s : State) : Host.Outcome State Fault Refusal :=
  match ctlRegOf cr with
  | none => .next (raise .illegalCommand .sys 3#8 0#32 s)
  | some r => .next (respondOk (ctlValue r s) s)

/-- WRCR cr, imm (R172, R173): a refused write changes nothing; WIDTH and HEIGHT reinitialise FC, SE and SD, XLEN
reinitialises RLD, CTRL has no side effect. -/
def execWrcr (cr : Byte) (imm : XWord) (s : State) : Host.Outcome State Fault Refusal :=
  match writeCheck cr imm with
  | .reserved => .next (raise .illegalCommand .sys 3#8 0#32 s)
  | .readOnly => .next (raise .illegalCommand .sys 4#8 0#32 s)
  | .tooWide => .next (raise .illegalCommand .sys 5#8 0#32 s)
  | .toWidth =>
    .next (respondOk 0#40 (reinitFrameUnits
      { s with ctl := { s.ctl with width := imm.setWidth Config.widths.dimBits } }))
  | .toHeight =>
    .next (respondOk 0#40 (reinitFrameUnits
      { s with ctl := { s.ctl with height := imm.setWidth Config.widths.dimBits } }))
  | .toXlen =>
    .next (respondOk 0#40 (reinitRld { s with ctl := { s.ctl with xlen := imm.setWidth Config.widths.xlenBits } }))
  | .toCtrl => .next (respondOk 0#40 { s with ctl := { s.ctl with chain := imm.getLsbD 0 } })

/-- INIT (R174): every unit reinitialised and the error record cleared; the configuration and OUT stay. -/
def execInit (s : State) : Host.Outcome State Fault Refusal :=
  .next (respondOk 0#40 (clearError (reinitSd (reinitSe (reinitRld (reinitRle (reinitFc s)))))))

end Sys2Proof.Machine
end

