-- ==== Sys2Proof/Machine/Dispatch.lean ====
section
/-! DEFINITION. One arm per operation of 30_encoding.md rule R64. -/

namespace Sys2Proof.Machine

def exec (i : Instr) (s : State) : Host.Outcome State Fault Refusal :=
  match i with
  | .rdcr cr => Sys2Proof.Machine.execRdcr cr s
  | .wrcr cr imm => Sys2Proof.Machine.execWrcr cr imm s
  | .init => Sys2Proof.Machine.execInit s
  | .fcPix r g b => Sys2Proof.Machine.execFcPix r g b s
  | .fcEnd => Sys2Proof.Machine.execFcEnd s
  | .dltSub a b => Sys2Proof.Machine.execDltSub a b s
  | .dltAdd d b => Sys2Proof.Machine.execDltAdd d b s
  | .rlePush b => Sys2Proof.Machine.execRlePush b s
  | .rleEnd => Sys2Proof.Machine.execRleEnd s
  | .rldPair c v => Sys2Proof.Machine.execRldPair c v s
  | .rldEnd => Sys2Proof.Machine.execRldEnd s
  | .sePush b => Sys2Proof.Machine.execSePush b s
  | .seEnd => Sys2Proof.Machine.execSeEnd s
  | .sdPush b => Sys2Proof.Machine.execSdPush b s
  | .sdEnd => Sys2Proof.Machine.execSdEnd s

end Sys2Proof.Machine
end

