-- ==== Sys2Proof/Machine/Step.lean ====
section
/-! DEFINITION. One step of the block: the oldest host event is handled to completion (00_scope.md rule R8). -/

namespace Sys2Proof.Machine

/-- A command word executed: decoded and run, or answered with IllegalCommand (R8, R66, R193). -/
def runWord (w : Cmd) (s : State) : Host.Outcome State Fault Refusal :=
  match decode w with
  | .ok i => exec i s
  | .error e => .next (raiseIllegalWord e s)

/-- One step. With no host event waiting the block waits and nothing changes (R210, R224; log entry 2). -/
def step (s : State) : Host.Outcome State Fault Refusal :=
  match nextEvent s with
  | none => .next s
  | some (.command w, s') => runWord w s'
  | some (.rst, s') => .next (applyReset s')
  | some (.takeBeat, s') => .next (removeBeat s')

/-- The state in which the host presents the command word of those bits next (log entry 1). -/
def State.withFetchWord (s : State) (nbits w : Nat) : State := presentNext (tableWord nbits w) s

end Sys2Proof.Machine
end

