-- ==== Sys2Proof/Machine/Stream.lean ====
section
/-! DEFINITION. What sequences of operations compute: running a list of operations, the stream functions of
43_stream_encode.md rule R130 and 44_stream_decode.md rule R160, and the bounded form of unit SD (rule R156). The step
function uses none of them; statements about whole inputs do. -/

namespace Sys2Proof.Machine

/-- Operations executed one after the other (R8, R51), stopping at a fault or a refusal. -/
def execAll : List Instr → State → Host.Outcome State Fault Refusal
  | [], s => .next s
  | i :: is, s =>
    match exec i s with
    | .next s' => execAll is s'
    | .fault f => .fault f
    | .refused r => .refused r

/-! The encoder's function (R130). -/

/-- `E_i ++ E_(i+1) ++ …`: the RLE of the delta of each frame against the one before it. -/
def streamEncodeAfter (prev : List Byte) : List (List Byte) → List Byte
  | [] => []
  | f :: fs => rleEncode (List.zipWith deltaEnc f prev) ++ streamEncodeAfter f fs

/-- `stream_encode(V)` (R130): frame 0 raw, every later frame by its delta. -/
def streamEncode : List (List Byte) → List Byte
  | [] => []
  | f :: fs => f ++ streamEncodeAfter f fs

/-! The decoder's function (R160). -/

/-- The frames decoded and, if the stream is corrupt, the sub-cause and the index of the frame that failed. -/
structure DecodeResult where
  frames : List (List Byte)
  failure : Option (Byte × Nat)
deriving DecidableEq, Repr

/-- One more frame before the others. -/
def consFrame (f : List Byte) (r : DecodeResult) : DecodeResult := { r with frames := f :: r.frames }

/-- The loop of R160 from a pair boundary of frame `i`: `t` is the tally and `ps` the pairs of the frame so far. -/
def streamDecodeAfter (n : Nat) (prev : List Byte) (i t : Nat) (ps : List (Byte × Byte)) : List Byte → DecodeResult
  | [] => { frames := [], failure := if ps = [] then none else some (2#8, i) }
  | [c] =>
    { frames := [],
      failure := some (if t + c.toNat > n then 1#8 else if t + c.toNat = n then 3#8 else 2#8, i) }
  | c :: v :: rest =>
    if t + c.toNat > n then { frames := [], failure := some (1#8, i) }
    else if t + c.toNat = n then
      let f := List.zipWith deltaDec (expandPairs (ps ++ [(c, v)])) prev
      consFrame f (streamDecodeAfter n f (i + 1) 0 [] rest)
    else streamDecodeAfter n prev i (t + c.toNat) (ps ++ [(c, v)]) rest

/-- `stream_decode(B)` (R160) for the frame length `n`. -/
def streamDecode (n : Nat) (bytes : List Byte) : DecodeResult :=
  if bytes = [] then { frames := [], failure := none }
  else if bytes.length < n then { frames := [], failure := some (2#8, 0) }
  else consFrame (bytes.take n) (streamDecodeAfter n (bytes.take n) 1 0 [] (bytes.drop n))

/-- The frame index a failure reports: indices saturate (R222). -/
def satIndex (i : Nat) : Idx := BitVec.ofNat Config.widths.idxBits (min i (2 ^ Config.widths.idxBits - 1))

/-- The beats of several frames, one `emit` each. -/
def beatsOfFrames (src : UnitCode) : List (List Byte) → List Beat
  | [] => []
  | f :: fs => beatsOf src f ++ beatsOfFrames src fs

/-! The bounded form of unit SD (R156). -/

/-- Unit SD holding, in RLEPair mode, the expansion of the complete pairs, the pending count and a dirty bit in place
of `sd.acc`; in RawFrame mode the raw bytes. -/
structure SdBounded where
  mode : SdMode
  phase : Bool
  tally : Len
  idx : Idx
  fsub : Byte
  fidx : Idx
  raw : List Byte
  exp : List Byte
  pend : Byte
  dirty : Bool
  prev : Memory Byte
deriving DecidableEq, Repr

/-- What an operation of unit SD answers: OK with the frame it emits (empty for none), or CorruptStream. -/
inductive SdReply where
  | ok (frame : List Byte)
  | corrupt (sub : Byte) (idx : Idx)
deriving DecidableEq, Repr

/-- A frame boundary in the bounded form: all three stand-ins are cleared. -/
def boundedDeliver (frame : List Byte) (x : SdBounded) : SdBounded :=
  { x with mode := .rlePair, phase := false, tally := 0#34, idx := satInc x.idx, raw := [], exp := [], pend := 0#8,
           dirty := false, prev := bufPutFrom x.prev 0 frame }

/-- SD.PUSH in the bounded form for the frame length `n`, the dimensions being legal (R156). -/
def boundedPush (n : Nat) (b : Byte) (x : SdBounded) : Except Fault (SdBounded × SdReply) :=
  match x.mode with
  | .failed => .ok (x, .corrupt x.fsub x.fidx)
  | .rawFrame =>
    let x' := { x with raw := x.raw ++ [b], tally := x.tally + 1#34, dirty := true }
    if x'.tally.toNat = n then .ok (boundedDeliver x'.raw x', .ok x'.raw) else .ok (x', .ok [])
  | .rlePair =>
    if x.phase then
      let d := x.exp ++ List.replicate x.pend.toNat b
      if x.tally.toNat = n then
        match bufReadAll .sdPrev n x.prev with
        | .error e => .error e
        | .ok p => .ok (boundedDeliver (List.zipWith deltaDec d p) x, .ok (List.zipWith deltaDec d p))
      else .ok ({ x with exp := d, phase := false }, .ok [])
    else
      let x' := { x with pend := b, dirty := true, tally := x.tally + b.setWidth Config.widths.lenBits, phase := true }
      if x'.tally.toNat > n then .ok ({ x' with mode := .failed, fsub := 1#8, fidx := x.idx }, .corrupt 1#8 x.idx)
      else .ok (x', .ok [])

/-- SD.END in the bounded form (R155, R156): `len(sd.acc) == 0` becomes `dirty == 0`. -/
def boundedEnd (n : Nat) (x : SdBounded) : SdBounded × SdReply :=
  if x.mode = .failed then (x, .corrupt x.fsub x.fidx)
  else if x.dirty = false then
    ({ mode := .rawFrame, phase := false, tally := 0#34, idx := 0#32, fsub := 0#8, fidx := 0#32, raw := [], exp := [],
       pend := 0#8, dirty := false, prev := x.prev }, .ok [])
  else if x.mode = .rlePair ∧ x.phase = true ∧ x.tally.toNat = n then
    ({ x with mode := .failed, fsub := 3#8, fidx := x.idx }, .corrupt 3#8 x.idx)
  else ({ x with mode := .failed, fsub := 2#8, fidx := x.idx }, .corrupt 2#8 x.idx)

/-- The bounded form stands for the unit: the shared registers agree and the stand-ins are what R156 says. -/
structure SdBounded.StandsFor (x : SdBounded) (sd : SdUnit) : Prop where
  mode : x.mode = sd.mode
  phase : x.phase = sd.phase
  tally : x.tally = sd.tally
  idx : x.idx = sd.idx
  fsub : x.fsub = sd.fsub
  fidx : x.fidx = sd.fidx
  prev : x.prev = sd.prev
  dirty : x.dirty = !sd.acc.isEmpty
  raw : sd.mode = .rawFrame → x.raw = sd.acc
  exp : sd.mode = .rlePair → x.exp = expandPairs (pairsOf sd.acc)
  pend : sd.mode = .rlePair → sd.phase = true → sd.acc.getLast? = some x.pend

end Sys2Proof.Machine
end

