-- ==== Sys2Proof/Machine/Assembler.lean ====
section
/-! DEFINITION. The assembly notation of 30_encoding.md rules R68 and R69: pseudo-operations with their fixed
expansions, and the assembler of one line. The block itself knows nothing of it. -/

namespace Sys2Proof.Machine

/-! Pseudo-operations (R69). -/

/-- The six pseudo-operations. -/
inductive Pseudo where
  | config (w h : XWord)
  | fcFrame (bytes : List Byte)
  | rleBytes (bytes : List Byte)
  | rldPairs (bytes : List Byte)
  | seFrame (bytes : List Byte)
  | sdBytes (bytes : List Byte)
deriving DecidableEq, Repr

/-- FC.PIX for each triplet; none when the byte count is not a multiple of 3. -/
def pixelOps : List Byte → Option (List Instr)
  | [] => some []
  | r :: g :: b :: rest => (pixelOps rest).map (fun is => .fcPix r g b :: is)
  | _ => none

/-- RLD.PAIR for each pair; none when the byte count is odd. -/
def pairOps : List Byte → Option (List Instr)
  | [] => some []
  | c :: v :: rest => (pairOps rest).map (fun is => .rldPair c v :: is)
  | _ => none

/-- The expansion of a pseudo-operation (R69); none where the assembler refuses the line. -/
def expandPseudo : Pseudo → Option (List Instr)
  | .config w h => some [.wrcr 0x01#8 w, .wrcr 0x02#8 h]
  | .fcFrame bs => pixelOps bs
  | .rleBytes bs => some (bs.map .rlePush)
  | .rldPairs bs => pairOps bs
  | .seFrame bs => some (bs.map .sePush)
  | .sdBytes bs => some (bs.map .sdPush)

/-! The assembler (R68), on the characters of one line. -/

/-- The line without its comment. -/
def dropComment (cs : List Char) : List Char := cs.takeWhile (fun c => c != ';')

/-- Without leading spaces. -/
def dropSpaces (cs : List Char) : List Char := cs.dropWhile (fun c => c == ' ')

/-- Without leading and trailing spaces. -/
def trimSpaces (cs : List Char) : List Char := (dropSpaces (dropSpaces cs).reverse).reverse

/-- The parts between commas. -/
def splitCommas : List Char → List (List Char)
  | [] => [[]]
  | c :: cs =>
    if c = ',' then [] :: splitCommas cs
    else
      match splitCommas cs with
      | [] => [[c]]
      | p :: ps => (c :: p) :: ps

/-- A digit of a base up to 16. -/
def digitValue (base : Nat) (c : Char) : Option Nat :=
  let n := c.toNat
  let d := if 48 ≤ n ∧ n ≤ 57 then n - 48
    else if 65 ≤ n ∧ n ≤ 70 then n - 55
    else if 97 ≤ n ∧ n ≤ 102 then n - 87
    else base
  if d < base then some d else none

/-- Digits read from the left, after the value `acc`. -/
def digitsValue (base acc : Nat) : List Char → Option Nat
  | [] => some acc
  | c :: cs =>
    match digitValue base c with
    | none => none
    | some d => digitsValue base (acc * base + d) cs

/-- A decimal number, or `0x` and a hexadecimal one. -/
def parseNumber : List Char → Option Nat
  | [] => none
  | '0' :: 'x' :: [] => none
  | '0' :: 'x' :: ds => digitsValue 16 0 ds
  | ds => digitsValue 10 0 ds

/-- A number below `2^n`. -/
def parseField (n : Nat) (cs : List Char) : Option (BitVec n) :=
  match parseNumber cs with
  | none => none
  | some v => if v < 2 ^ n then some (BitVec.ofNat n v) else none

/-- The control register names of R12 with their numbers. -/
def registerNames : List (List Char × Byte) :=
  [ ("ID".toList, 0x00#8), ("WIDTH".toList, 0x01#8), ("HEIGHT".toList, 0x02#8), ("LEN".toList, 0x03#8),
    ("XLEN".toList, 0x04#8), ("CTRL".toList, 0x05#8), ("STATUS".toList, 0x06#8), ("ERRSTAT".toList, 0x07#8),
    ("ERRIDX".toList, 0x08#8), ("FC_POS".toList, 0x09#8), ("FC_IDX".toList, 0x0A#8), ("SE_POS".toList, 0x0B#8),
    ("SE_IDX".toList, 0x0C#8), ("SD_TALLY".toList, 0x0D#8), ("SD_IDX".toList, 0x0E#8),
    ("RLD_TALLY".toList, 0x0F#8), ("RLE_RUN".toList, 0x10#8) ]

/-- A control register by name or number. -/
def parseRegister (cs : List Char) : Option Byte :=
  match registerNames.find? (fun p => p.1 == cs) with
  | some (_, n) => some n
  | none => parseField 8 cs

/-- A list of bytes. -/
def parseBytes : List (List Char) → Option (List Byte)
  | [] => some []
  | p :: ps =>
    match parseField 8 p, parseBytes ps with
    | some b, some bs => some (b :: bs)
    | _, _ => none

/-- The operations of a mnemonic with no operand. -/
def noOperandOps : List (List Char × Instr) :=
  [ ("INIT".toList, .init), ("FC.END".toList, .fcEnd), ("RLE.END".toList, .rleEnd), ("RLD.END".toList, .rldEnd),
    ("SE.END".toList, .seEnd), ("SD.END".toList, .sdEnd) ]

/-- An operation or pseudo-operation whose operands are all bytes. -/
def byteOps (m : List Char) (bs : List Byte) : Option (List Instr) :=
  if m = "FC.FRAME".toList then expandPseudo (.fcFrame bs)
  else if m = "RLE.BYTES".toList then expandPseudo (.rleBytes bs)
  else if m = "RLD.PAIRS".toList then expandPseudo (.rldPairs bs)
  else if m = "SE.FRAME".toList then expandPseudo (.seFrame bs)
  else if m = "SD.BYTES".toList then expandPseudo (.sdBytes bs)
  else
    match bs with
    | [b] =>
      if m = "RLE.PUSH".toList then some [.rlePush b]
      else if m = "SE.PUSH".toList then some [.sePush b]
      else if m = "SD.PUSH".toList then some [.sdPush b]
      else none
    | [a, b] =>
      if m = "DLT.SUB".toList then some [.dltSub a b]
      else if m = "DLT.ADD".toList then some [.dltAdd a b]
      else if m = "RLD.PAIR".toList then some [.rldPair a b]
      else none
    | [r, g, b] => if m = "FC.PIX".toList then some [.fcPix r g b] else none
    | _ => none

/-- A mnemonic with its operands' characters. -/
def assembleOp (m : List Char) (ps : List (List Char)) : Option (List Instr) :=
  match noOperandOps.find? (fun p => p.1 == m), ps with
  | some (_, i), [[]] => some [i]
  | some _, _ => none
  | none, ps =>
    if m = "RDCR".toList then
      match ps with
      | [r] => (parseRegister r).map (fun cr => [.rdcr cr])
      | _ => none
    else if m = "WRCR".toList then
      match ps with
      | [r, v] =>
        match parseRegister r, parseField 40 v with
        | some cr, some imm => some [.wrcr cr imm]
        | _, _ => none
      | _ => none
    else if m = "CONFIG".toList then
      match ps with
      | [w, h] =>
        match parseField 40 w, parseField 40 h with
        | some w, some h => expandPseudo (.config w h)
        | _, _ => none
      | _ => none
    else
      match parseBytes ps with
      | some bs => byteOps m bs
      | none => none

/-- One line (R68): the operations it stands for; none where the line is no assembly. A blank line or a comment
stands for no operation. -/
def assembleLine (line : List Char) : Option (List Instr) :=
  let cs := trimSpaces (dropComment line)
  if cs = [] then some []
  else assembleOp (cs.takeWhile (fun c => c != ' '))
    ((splitCommas (cs.dropWhile (fun c => c != ' '))).map trimSpaces)

end Sys2Proof.Machine
end

