-- ==== Sys2Proof/Safety.lean ====
section
/-! DEFINITION. What counts as a safe run: a step answers a next state, and the state meets the ranges and the
written-before-read conditions that the spec states of every state a run reaches (10_state.md rules R14, R15, R17 to R23,
R28; 40_color_convert.md rule R83; 44_stream_decode.md rule R149; 60_exceptions.md rules R186, R187, R192). -/

namespace Sys2Proof.Machine

/-- The outcome is a next state. -/
def answersNext (o : Host.Outcome State Fault Refusal) : Prop := ∃ t, o = .next t

/-- The outcome is a next state that meets `P`. -/
def answersNextWith (o : Host.Outcome State Fault Refusal) (P : State → Prop) : Prop := ∃ t, o = .next t ∧ P t

/-- Every element below `n` has been written. -/
def writtenBelow {α : Type} (m : Memory α) (n : Nat) : Prop := ∀ i, i < n → (bufGet m i).isSome = true

/-- Every buffer is in canonical form. -/
structure BuffersWf (s : State) : Prop where
  y : Memory.wf s.fc.y
  u : Memory.wf s.fc.u
  v : Memory.wf s.fc.v
  cur : Memory.wf s.se.cur
  prev : Memory.wf s.se.prev
  sdPrev : Memory.wf s.sd.prev

/-- The error record and the response (R14, R186): codes 0 to 4; no stage, sub-cause or index without a code. -/
structure ErrorInv (s : State) : Prop where
  code : s.err.code.toNat ≤ 4
  none : s.err.code = 0#8 → s.err.stage = 0#8 ∧ s.err.sub = 0#8 ∧ s.err.idx = 0#32
  response : ∀ r, s.rsp = some r → r.code.toNat ≤ 4 ∧ (r.code = 0#8 → r.stage = 0#8 ∧ r.sub = 0#8)

/-- Unit FC (R17, R28, R83): the position is a pixel of the frame, every pixel before it is written, the intermediates
are in range; with illegal dimensions the unit is idle. -/
structure FcInv (s : State) : Prop where
  pos : dimsOk s = true → s.fc.pos.toNat < npix s
  y : writtenBelow s.fc.y s.fc.pos.toNat
  u : writtenBelow s.fc.u s.fc.pos.toNat
  v : writtenBelow s.fc.v s.fc.pos.toNat
  uRange : ∀ i x, bufGet s.fc.u i = some x → 5000 ≤ x.toNat ∧ x.toNat ≤ 2424950
  vRange : ∀ i x, bufGet s.fc.v i = some x → 6785 ≤ x.toNat ∧ x.toNat ≤ 2552450
  idle : dimsOk s = false → s.fc.pos = 0#34 ∧ s.fc.idx = 0#32

/-- Unit RLE (R15, R114): an open run counts 1 to 255. -/
structure RleInv (s : State) : Prop where
  count : s.rle.active = true → s.rle.cnt ≠ 0#8

/-- Unit RLD (R20). -/
structure RldInv (s : State) : Prop where
  length : s.rld.buf.length = s.rld.tally.toNat
  bound : s.rld.tally.toNat ≤ s.ctl.xlen.toNat

/-- Unit SE (R21, R28): the position is a byte of the frame, every byte before it is written, the previous frame is
whole once there is one; with illegal dimensions the unit is idle. -/
structure SeInv (s : State) : Prop where
  pos : dimsOk s = true → s.se.pos.toNat < frameLen s
  cur : writtenBelow s.se.cur s.se.pos.toNat
  prev : s.se.first = false → writtenBelow s.se.prev (frameLen s)
  first : s.se.first = true ↔ s.se.idx = 0#32
  idle : dimsOk s = false → s.se.first = true ∧ s.se.pos = 0#34

/-- The sum of the count bytes of a sequence that starts with one (R152, R157). -/
def countSum : List Byte → Nat
  | [] => 0
  | [c] => c.toNat
  | c :: _ :: rest => c.toNat + countSum rest

/-- Unit SD (R22, R28, R149, R157, R192), mode by mode; with illegal dimensions nothing has been accepted (R155). -/
structure SdInv (s : State) : Prop where
  raw : s.sd.mode = .rawFrame →
    s.sd.phase = false ∧ s.sd.idx = 0#32 ∧ s.sd.acc.length = s.sd.tally.toNat ∧
    (dimsOk s = true → s.sd.tally.toNat < frameLen s)
  pair : s.sd.mode = .rlePair →
    s.sd.idx ≠ 0#32 ∧ writtenBelow s.sd.prev (frameLen s) ∧ countSum s.sd.acc = s.sd.tally.toNat ∧
    s.sd.acc.length % 2 = (if s.sd.phase then 1 else 0) ∧
    (if s.sd.phase then s.sd.tally.toNat ≤ frameLen s else s.sd.tally.toNat < frameLen s)
  failed : s.sd.mode = .failed →
    s.sd.fidx = s.sd.idx ∧ (s.sd.fsub = 1#8 ∨ s.sd.fsub = 2#8 ∨ s.sd.fsub = 3#8) ∧
    s.sd.tally.toNat ≤ frameLen s + 254 ∧ s.err.code ≠ 0#8
  clean : s.sd.mode ≠ .failed → s.sd.fsub = 0#8 ∧ s.sd.fidx = 0#32
  idle : dimsOk s = false → s.sd.mode = .rawFrame ∧ s.sd.acc = []

/-- What holds of every state a run reaches. -/
structure Inv (s : State) : Prop where
  buffers : BuffersWf s
  error : ErrorInv s
  fc : FcInv s
  rle : RleInv s
  rld : RldInv s
  se : SeInv s
  sd : SdInv s
  /-- unit code 0, SYS, never emits (R63) -/
  out : ∀ b, b ∈ s.out → b.src ≠ .sys

/-! The terms statements use, written from the rules' own numbers. -/

/-- The OK response with a value (R62). -/
def okReply (val : XWord) : Option Response := some { code := 0#8, stage := 0#8, sub := 0#8, val := val }

/-- Exactly what R190 lets a raise do, in numbers: the record takes the error if it holds none, and the response
carries it. -/
def raised (code stage sub : Byte) (idx : Idx) (s : State) : State :=
  { s with
    err := if s.err.code = 0#8 then { code := code, stage := stage, sub := sub, idx := idx } else s.err
    rsp := some { code := code, stage := stage, sub := sub, val := idx.setWidth 40 } }

/-- The operations that write a unit's state, by the tables of R15 and R27; `chain` is CTRL.CHAIN. -/
def mayWrite (u : UnitCode) (chain : Bool) : Instr → Bool
  | .rdcr _ => false
  | .wrcr cr _ =>
    match u with
    | .fc | .se | .sd => cr == 0x01#8 || cr == 0x02#8
    | .rld => cr == 0x04#8
    | _ => false
  | .init => true
  | .fcPix _ _ _ => u == .fc || (u == .se && chain)
  | .fcEnd => u == .fc
  | .dltSub _ _ => false
  | .dltAdd _ _ => false
  | .rlePush _ => u == .rle
  | .rleEnd => u == .rle
  | .rldPair _ _ => u == .rld
  | .rldEnd => u == .rld
  | .sePush _ => u == .se
  | .seEnd => u == .se
  | .sdPush _ => u == .sd
  | .sdEnd => u == .sd

/-- The (code, sub-cause) pairs an operation can answer with besides OK: the rows of R200 less the two of command
decode. -/
def errorMatrix : Instr → List (Byte × Byte)
  | .rdcr _ => [(4#8, 3#8)]
  | .wrcr _ _ => [(4#8, 3#8), (4#8, 4#8), (4#8, 5#8)]
  | .init => []
  | .fcPix _ _ _ => [(1#8, 1#8), (1#8, 2#8), (1#8, 3#8)]
  | .fcEnd => []
  | .dltSub _ _ => []
  | .dltAdd _ _ => []
  | .rlePush _ => []
  | .rleEnd => []
  | .rldPair _ _ => []
  | .rldEnd => [(3#8, 1#8), (3#8, 2#8)]
  | .sePush _ => [(1#8, 1#8), (1#8, 2#8), (1#8, 3#8)]
  | .seEnd => []
  | .sdPush _ => [(1#8, 1#8), (1#8, 2#8), (1#8, 3#8), (2#8, 1#8), (2#8, 2#8), (2#8, 3#8)]
  | .sdEnd => [(2#8, 1#8), (2#8, 2#8), (2#8, 3#8)]

/-- Unit SD at its reset values (R26, R27); `sd.prev` keeps whatever it holds. -/
def sdIdle (sd : SdUnit) : Prop :=
  sd = { mode := .rawFrame, phase := false, tally := 0#34, idx := 0#32, fsub := 0#8, fidx := 0#32, acc := [],
         prev := sd.prev }

/-- Unit FC with the pixel stored at its position (R87). -/
def fcStored (r g b : Byte) (fc : FcUnit) : FcUnit :=
  { fc with
    y := bufPut fc.y fc.pos.toNat (cscY Config.params.k r g b)
    u := bufPut fc.u fc.pos.toNat (BitVec.ofInt 22 (cscU Config.params.k r g b))
    v := bufPut fc.v fc.pos.toNat (BitVec.ofInt 22 (cscV Config.params.k r g b)) }

/-- Unit FC after the last pixel of a frame (R87). -/
def fcDone (r g b : Byte) (fc : FcUnit) : FcUnit :=
  { fcStored r g b fc with pos := 0#34, idx := satInc fc.idx }

/-- The element of a buffer, or the byte just pushed at `pos`: the frame a completing push makes. -/
def frameByte (m : Memory Byte) (pos : Nat) (b : Byte) (k : Nat) : Option Byte :=
  if k = pos then some b else bufGet m k

end Sys2Proof.Machine
end

