-- ==== Sys2Proof/Certificates/Slice0/Obligations.lean ====
section
/-! DEFINITION. The statements for the provers, one `def Obligations.<Name> : Prop` each; OBLIGATIONS.json lists them
with the rules they formalise. -/

open Sys2Proof Sys2Proof.Machine

/-! ### Command words and the step -/

/-- Every operation's word decodes to that operation, with every operand at every value. -/
def Obligations.DecodeOfEncodeIsTheOperation : Prop :=
  ∀ i : Instr, decode (encode i) = .ok i

/-- Each legal word is the one word of its operation: the other direction of the round trip. -/
def Obligations.EncodeOfDecodeIsTheWord : Prop :=
  ∀ (w : Cmd) (i : Instr), decode w = .ok i → encode i = w

/-- Words written out from R61, R64 and R68, one for each format and family, decode to the operation they stand for. -/
def Obligations.SampleWordsDecode : Prop :=
  decode 0x0106000000000000#64 = .ok (.rdcr 6#8) ∧
  decode 0x0201000000000004#64 = .ok (.wrcr 1#8 4#40) ∧
  decode 0x0300000000000000#64 = .ok .init ∧
  decode 0x1000000000FF0000#64 = .ok (.fcPix 255#8 0#8 0#8) ∧
  decode 0x2000000000000AFA#64 = .ok (.dltSub 10#8 250#8) ∧
  decode 0x3000000000000007#64 = .ok (.rlePush 7#8) ∧
  decode 0x32000000000008FF#64 = .ok (.rldPair 8#8 255#8) ∧
  decode 0x4000000000000005#64 = .ok (.sePush 5#8) ∧
  decode 0x5100000000000000#64 = .ok .sdEnd

/-- R66: a word is a legal instance of a row exactly when its masked bits are the row's; any other word raises
IllegalCommand from SYS with index 0, sub-cause 1 when its top byte is none of the fifteen opcodes and 2 otherwise,
and changes nothing else; no word matches two rows. -/
def Obligations.IllegalWordsRaiseAndDoNothingElse : Prop :=
  ∀ (w : Cmd) (rest : List HostEvent) (s : State), s.inputs = .command w :: rest →
    (cmdOp w ∉ [0x01#8, 0x02#8, 0x03#8, 0x10#8, 0x11#8, 0x20#8, 0x21#8, 0x30#8, 0x31#8, 0x32#8, 0x33#8, 0x40#8,
        0x41#8, 0x50#8, 0x51#8] →
      step s = .next (raised 4#8 0#8 1#8 0#32 { s with inputs := rest })) ∧
    (cmdOp w ∈ [0x01#8, 0x02#8, 0x03#8, 0x10#8, 0x11#8, 0x20#8, 0x21#8, 0x30#8, 0x31#8, 0x32#8, 0x33#8, 0x40#8,
        0x41#8, 0x50#8, 0x51#8] →
      (∀ r ∈ opcodeRows, w &&& r.mask ≠ r.pattern) →
      step s = .next (raised 4#8 0#8 2#8 0#32 { s with inputs := rest })) ∧
    ((∃ r ∈ opcodeRows, w &&& r.mask = r.pattern) → ∃ i, decode w = .ok i) ∧
    (∀ r ∈ opcodeRows, ∀ r' ∈ opcodeRows, w &&& r.mask = r.pattern → w &&& r'.mask = r'.pattern → r = r')

/-- A step whose oldest event is a decodable command word runs exactly that operation, the event taken off the queue. -/
def Obligations.StepRunsTheDecodedOperation : Prop :=
  ∀ (w : Cmd) (i : Instr) (rest : List HostEvent) (s : State),
    s.inputs = .command w :: rest → decode w = .ok i → step s = exec i { s with inputs := rest }

/-- Model's choice (log entries 1, 2, 3), resting on R24 and R210: with no event the block waits; `rst` leaves reset
values and the host's later events; a removal takes the beat at OUT's head and nothing else. -/
def Obligations.StepOfOtherHostEvents : Prop :=
  (∀ s : State, s.inputs = [] → step s = .next s) ∧
  (∀ (s : State) (rest : List HostEvent), s.inputs = .rst :: rest →
    step s = .next { State.reset with inputs := rest }) ∧
  (∀ (s : State) (rest : List HostEvent) (b : Beat) (bs : List Beat), s.inputs = .takeBeat :: rest →
    s.out = b :: bs → step s = .next { s with inputs := rest, out := bs })

/-! ### Whole-machine statements -/

/-- The invariant holds right after reset. -/
def Obligations.ResetMeetsTheInvariant : Prop := Inv State.reset

/-- Every step keeps the invariant: canonical buffers, positions inside their frames, everything read has been written,
intermediates in their ranges, tallies in their bounds, legal modes and codes. -/
def Obligations.EveryStepKeepsTheInvariant : Prop :=
  ∀ s t : State, Inv s → step s = .next t → Inv t

/-- In a state that meets the invariant no step stops: in particular no unwritten element is read (R28). -/
def Obligations.NoStepStopsUnderTheInvariant : Prop :=
  ∀ s : State, Inv s → answersNext (step s)

/-- No run from reset stops, whatever the host does and for however long: the faults of the model are unreachable. -/
def Obligations.NoRunFromResetStops : Prop :=
  ∀ (events : List HostEvent) (n : Nat), answersNext (Host.Core.run Sys2Proof.core n { State.reset with inputs := events })

/-- OUT is only appended to, and neither what an operation does nor what it appends depends on what OUT holds. -/
def Obligations.OperationsOnlyAppendToOut : Prop :=
  ∀ (i : Instr) (s t : State), exec i s = .next t →
    ∃ bs, t.out = s.out ++ bs ∧ ∀ o, exec i { s with out := o } = .next { t with out := o ++ bs }

/-- No operation reads the last response, and each leaves one. -/
def Obligations.NoOperationReadsTheResponse : Prop :=
  ∀ (i : Instr) (s : State) (r : Option Response),
    exec i { s with rsp := r } = exec i s ∧ ∀ t, exec i s = .next t → t.rsp.isSome = true

/-- The record takes the response's code, stage, sub-cause and index when it holds no error and the response is one;
else it stays. INIT alone clears it. The pin `err` is up exactly while the record holds an error. -/
def Obligations.ErrorRecordKeepsTheFirstError : Prop :=
  ∀ (i : Instr) (s t : State) (r : Response), exec i s = .next t → t.rsp = some r →
    (i ≠ .init → t.err =
      if s.err.code = 0#8 ∧ r.code ≠ 0#8 then
        { code := r.code, stage := r.stage, sub := r.sub, idx := r.val.setWidth 32 }
      else s.err) ∧
    (i = .init → t.err = { code := 0#8, stage := 0#8, sub := 0#8, idx := 0#32 }) ∧
    (errPin t = true ↔ t.err.code ≠ 0#8)

/-- An operation that raises emits no beat and changes nothing but the record, the response, and what its own rule
names: unit SD for a new CorruptStream, unit RLD for a LengthMismatch. -/
def Obligations.RaisingOperationsEmitNothing : Prop :=
  ∀ (i : Instr) (s t : State) (r : Response), exec i s = .next t → t.rsp = some r → r.code ≠ 0#8 →
    t.out = s.out ∧ t = { s with err := t.err, rsp := t.rsp, rld := t.rld, sd := t.sd } ∧
    (r.code ≠ 2#8 → t.sd = s.sd) ∧ (r.code ≠ 3#8 → t.rld = s.rld)

/-- The complete matrix of R200: which word can be answered with which error. -/
def Obligations.OnlyTheMatrixErrorsAreRaised : Prop :=
  ∀ (w : Cmd) (s t : State) (r : Response), Inv s → runWord w s = .next t → t.rsp = some r → r.code ≠ 0#8 →
    match decode w with
    | .error .opcode => (r.code, r.sub) = (4#8, 1#8)
    | .error .reservedBits => (r.code, r.sub) = (4#8, 2#8)
    | .ok i => (r.code, r.sub) ∈ errorMatrix i

/-- Units share no state but for the chain: an operation leaves every unit whose table of R15 does not name it, leaves
the control registers unless it is WRCR, and leaves the host's queue. -/
def Obligations.UnitsDoNotDisturbEachOther : Prop :=
  ∀ (i : Instr) (s t : State), exec i s = .next t →
    (mayWrite .fc s.ctl.chain i = false → t.fc = s.fc) ∧
    (mayWrite .rle s.ctl.chain i = false → t.rle = s.rle) ∧
    (mayWrite .rld s.ctl.chain i = false → t.rld = s.rld) ∧
    (mayWrite .se s.ctl.chain i = false → t.se = s.se) ∧
    (mayWrite .sd s.ctl.chain i = false → t.sd = s.sd) ∧
    ((∀ cr imm, i ≠ .wrcr cr imm) → t.ctl = s.ctl) ∧
    t.inputs = s.inputs

/-! ### Errors -/

/-- R190: a raise latches the first error and answers, and does nothing else. -/
def Obligations.RaiseLatchesAndAnswers : Prop :=
  ∀ (e : ErrKind) (u : UnitCode) (sub : Byte) (idx : Idx) (s : State),
    raise e u sub idx s =
      { s with
        err := if s.err.code = 0#8 then { code := errCode e, stage := unitNumber u, sub := sub, idx := idx } else s.err
        rsp := some { code := errCode e, stage := unitNumber u, sub := sub, val := idx.setWidth 40 } }

/-- R187: with illegal dimensions the three data operations raise InvalidDimensions, ZERO before ODD, whatever mode SD
is in, and write nothing; the index reported is then 0. TOO_LARGE, which no 16-bit size reaches, is what the check of a
larger size gives. -/
def Obligations.IllegalDimensionsRaise : Prop :=
  ∀ (r g b : Byte) (s : State), dimsOk s = false →
    (∃ sub : Byte,
      ((s.ctl.width = 0#16 ∨ s.ctl.height = 0#16) → sub = 1#8) ∧
      (s.ctl.width ≠ 0#16 → s.ctl.height ≠ 0#16 →
        (s.ctl.width.toNat % 2 = 1 ∨ s.ctl.height.toNat % 2 = 1) → sub = 2#8) ∧
      exec (.fcPix r g b) s = .next (raised 1#8 1#8 sub s.fc.idx s) ∧
      exec (.sePush b) s = .next (raised 1#8 5#8 sub s.se.idx s) ∧
      exec (.sdPush b) s = .next (raised 1#8 6#8 sub s.sd.idx s)) ∧
    (Inv s → s.fc.idx = 0#32 ∧ s.se.idx = 0#32 ∧ s.sd.idx = 0#32) ∧
    (∀ w h : Nat, w ≠ 0 → h ≠ 0 → w % 2 = 0 → h % 2 = 0 → 6442057734 < 3 * w * h / 2 →
      dimsLegal w h = false ∧ dimsSubOf w h = 3#8)

/-- R192: in Failed mode SD.PUSH and SD.END repeat the latched failure and change nothing else, reads show the frozen
state, and no operation but INIT and a write of WIDTH or HEIGHT changes the unit; these and `rst` put it at its reset
values. -/
def Obligations.FailedDecoderStaysFailed : Prop :=
  ∀ (s : State), s.sd.mode = .failed →
    (∀ b, dimsOk s = true → exec (.sdPush b) s = .next (raised 2#8 6#8 s.sd.fsub s.sd.fidx s)) ∧
    (∀ b, dimsOk s = false → exec (.sdPush b) s = .next (raised 1#8 6#8 (dimsSub s) s.sd.idx s)) ∧
    exec .sdEnd s = .next (raised 2#8 6#8 s.sd.fsub s.sd.fidx s) ∧
    exec (.rdcr 0x0D#8) s = .next { s with rsp := okReply (s.sd.tally.setWidth 40) } ∧
    exec (.rdcr 0x0E#8) s = .next { s with rsp := okReply (s.sd.idx.setWidth 40) } ∧
    (∃ v : XWord, exec (.rdcr 0x06#8) s = .next { s with rsp := okReply v } ∧ v.extractLsb' 2 2 = 2#2) ∧
    (∀ i t, exec i s = .next t → i ≠ .init → (∀ imm, i ≠ .wrcr 0x01#8 imm) → (∀ imm, i ≠ .wrcr 0x02#8 imm) →
      t.sd = s.sd) ∧
    (∃ t, exec .init s = .next t ∧ sdIdle t.sd) ∧
    (∀ imm : XWord, imm.toNat < 2 ^ 16 →
      (∃ t, exec (.wrcr 0x01#8 imm) s = .next t ∧ sdIdle t.sd) ∧
      (∃ t, exec (.wrcr 0x02#8 imm) s = .next t ∧ sdIdle t.sd)) ∧
    (∀ rest, s.inputs = .rst :: rest → ∃ t, step s = .next t ∧ sdIdle t.sd)

/-- R158, the rows within a stream: where SD.PUSH and SD.END take the mode and the phase; and no other operation but
INIT and a write of WIDTH or HEIGHT moves them. -/
def Obligations.DecoderModeTransitions : Prop :=
  (∀ (b : Byte) (s t : State), Inv s → dimsOk s = true → exec (.sdPush b) s = .next t →
    (s.sd.mode = .rawFrame → s.sd.tally.toNat + 1 < frameLen s → t.sd.mode = .rawFrame) ∧
    (s.sd.mode = .rawFrame → s.sd.tally.toNat + 1 = frameLen s → t.sd.mode = .rlePair ∧ t.sd.phase = false) ∧
    (s.sd.mode = .rlePair → s.sd.phase = false → s.sd.tally.toNat + b.toNat ≤ frameLen s →
      t.sd.mode = .rlePair ∧ t.sd.phase = true) ∧
    (s.sd.mode = .rlePair → s.sd.phase = false → frameLen s < s.sd.tally.toNat + b.toNat →
      t.sd.mode = .failed ∧ t.sd.fsub = 1#8) ∧
    (s.sd.mode = .rlePair → s.sd.phase = true →
      t.sd.mode = .rlePair ∧ t.sd.phase = false ∧ (s.sd.tally.toNat = frameLen s → t.sd.tally = 0#34)) ∧
    (s.sd.mode = .failed → t.sd = s.sd)) ∧
  (∀ (s t : State), exec .sdEnd s = .next t →
    (s.sd.mode ≠ .failed → s.sd.acc = [] → sdIdle t.sd) ∧
    (s.sd.mode ≠ .failed → s.sd.acc ≠ [] → t.sd.mode = .failed ∧ (t.sd.fsub = 2#8 ∨ t.sd.fsub = 3#8)) ∧
    (s.sd.mode = .failed → t.sd = s.sd)) ∧
  (∀ (s t : State), exec .init s = .next t → sdIdle t.sd) ∧
  (∀ (imm : XWord) (s t : State), imm.toNat < 2 ^ 16 →
    (exec (.wrcr 0x01#8 imm) s = .next t ∨ exec (.wrcr 0x02#8 imm) s = .next t) → sdIdle t.sd) ∧
  (∀ (i : Instr) (s t : State), exec i s = .next t → (∀ b, i ≠ .sdPush b) → i ≠ .sdEnd → i ≠ .init →
    (∀ imm, i ≠ .wrcr 0x01#8 imm) → (∀ imm, i ≠ .wrcr 0x02#8 imm) → t.sd = s.sd)

/-! ### System operations -/

/-- R211, R26: what RDCR of each register answers right after reset, and what the outputs hold. -/
def Obligations.RegistersReadAfterReset : Prop :=
  State.reset.out = [] ∧ State.reset.rsp = none ∧ State.reset.se.first = true ∧ State.reset.sd.mode = .rawFrame ∧
  exec (.rdcr 0x00#8) State.reset = .next { State.reset with rsp := okReply 0x0053525607#40 } ∧
  exec (.rdcr 0x06#8) State.reset = .next { State.reset with rsp := okReply 0x20#40 } ∧
  ∀ cr : Byte, cr.toNat ≤ 0x10 → cr ≠ 0x00#8 → cr ≠ 0x06#8 →
    exec (.rdcr cr) State.reset = .next { State.reset with rsp := okReply 0#40 }

/-- RDCR of each register but STATUS, ERRSTAT and RLE_RUN answers the value R12 gives and changes nothing; a reserved
number raises IllegalCommand sub-cause 3. -/
def Obligations.RdcrReadsTheRegisterFile : Prop :=
  ∀ s : State,
    exec (.rdcr 0x00#8) s = .next { s with rsp := okReply 0x0053525607#40 } ∧
    exec (.rdcr 0x01#8) s = .next { s with rsp := okReply (s.ctl.width.setWidth 40) } ∧
    exec (.rdcr 0x02#8) s = .next { s with rsp := okReply (s.ctl.height.setWidth 40) } ∧
    (∃ v : XWord, exec (.rdcr 0x03#8) s = .next { s with rsp := okReply v } ∧
      v.toNat = if dimsOk s then 3 * s.ctl.width.toNat * s.ctl.height.toNat / 2 else 0) ∧
    exec (.rdcr 0x04#8) s = .next { s with rsp := okReply s.ctl.xlen } ∧
    exec (.rdcr 0x05#8) s = .next { s with rsp := okReply (if s.ctl.chain then 1#40 else 0#40) } ∧
    exec (.rdcr 0x08#8) s = .next { s with rsp := okReply (s.err.idx.setWidth 40) } ∧
    exec (.rdcr 0x09#8) s = .next { s with rsp := okReply (s.fc.pos.setWidth 40) } ∧
    exec (.rdcr 0x0A#8) s = .next { s with rsp := okReply (s.fc.idx.setWidth 40) } ∧
    exec (.rdcr 0x0B#8) s = .next { s with rsp := okReply (s.se.pos.setWidth 40) } ∧
    exec (.rdcr 0x0C#8) s = .next { s with rsp := okReply (s.se.idx.setWidth 40) } ∧
    exec (.rdcr 0x0D#8) s = .next { s with rsp := okReply (s.sd.tally.setWidth 40) } ∧
    exec (.rdcr 0x0E#8) s = .next { s with rsp := okReply (s.sd.idx.setWidth 40) } ∧
    exec (.rdcr 0x0F#8) s = .next { s with rsp := okReply s.rld.tally } ∧
    ∀ cr : Byte, 0x10 < cr.toNat → exec (.rdcr cr) s = .next (raised 4#8 0#8 3#8 0#32 s)

/-- STATUS bit by bit (R13), and ERRSTAT and RLE_RUN field by field (R14, R12). -/
def Obligations.RdcrReadsTheStatusViews : Prop :=
  ∀ s : State,
    (∃ v : XWord, exec (.rdcr 0x06#8) s = .next { s with rsp := okReply v } ∧
      v.getLsbD 0 = dimsOk s ∧
      v.getLsbD 1 = (s.err.code != 0#8) ∧
      v.extractLsb' 2 2 = (match s.sd.mode with | .rawFrame => 0#2 | .rlePair => 1#2 | .failed => 2#2) ∧
      v.getLsbD 4 = s.sd.phase ∧
      v.getLsbD 5 = s.se.first ∧
      v.getLsbD 6 = s.rle.active ∧
      v.getLsbD 7 = s.rld.overrun ∧
      v.getLsbD 8 = (s.fc.pos != 0#34) ∧
      v.getLsbD 9 = (s.se.pos != 0#34) ∧
      v.getLsbD 10 = (s.sd.acc.length != 0) ∧
      v.getLsbD 11 = (s.rld.tally != 0#40 || s.rld.overrun) ∧
      ∀ k, 12 ≤ k → v.getLsbD k = false) ∧
    (∃ v : XWord, exec (.rdcr 0x07#8) s = .next { s with rsp := okReply v } ∧
      v.extractLsb' 0 8 = s.err.code ∧ v.extractLsb' 8 8 = s.err.stage ∧ v.extractLsb' 16 8 = s.err.sub ∧
      v.extractLsb' 24 16 = 0#16) ∧
    (∃ v : XWord, exec (.rdcr 0x10#8) s = .next { s with rsp := okReply v } ∧
      (s.rle.active = true → v.extractLsb' 0 8 = s.rle.val ∧ v.extractLsb' 8 8 = s.rle.cnt ∧
        v.extractLsb' 16 24 = 0#24) ∧
      (s.rle.active = false → v = 0#40))

/-- R172, R173: a WRCR that fits stores the value; WIDTH and HEIGHT reinitialise FC, SE and SD, XLEN reinitialises RLD,
CTRL nothing; the record, unit RLE and OUT stay. A refused write changes nothing but the record and the response. -/
def Obligations.WrcrStoresOrRefuses : Prop :=
  ∀ (cr : Byte) (imm : XWord) (s : State),
    decode (cmdWord 0x02#8 cr imm) = .ok (.wrcr cr imm) ∧
    (imm.toNat < 2 ^ 16 → exec (.wrcr 0x01#8 imm) s = .next
      { s with
        ctl := { s.ctl with width := imm.setWidth 16 }
        fc := { s.fc with pos := 0#34, idx := 0#32 }
        se := { s.se with first := true, pos := 0#34, idx := 0#32 }
        sd := { mode := .rawFrame, phase := false, tally := 0#34, idx := 0#32, fsub := 0#8, fidx := 0#32, acc := [],
                prev := s.sd.prev }
        rsp := okReply 0#40 }) ∧
    (imm.toNat < 2 ^ 16 → exec (.wrcr 0x02#8 imm) s = .next
      { s with
        ctl := { s.ctl with height := imm.setWidth 16 }
        fc := { s.fc with pos := 0#34, idx := 0#32 }
        se := { s.se with first := true, pos := 0#34, idx := 0#32 }
        sd := { mode := .rawFrame, phase := false, tally := 0#34, idx := 0#32, fsub := 0#8, fidx := 0#32, acc := [],
                prev := s.sd.prev }
        rsp := okReply 0#40 }) ∧
    exec (.wrcr 0x04#8 imm) s = .next
      { s with
        ctl := { s.ctl with xlen := imm }
        rld := { tally := 0#40, overrun := false, buf := [] }
        rsp := okReply 0#40 } ∧
    (imm.toNat < 2 → exec (.wrcr 0x05#8 imm) s = .next
      { s with ctl := { s.ctl with chain := decide (imm = 1#40) }, rsp := okReply 0#40 }) ∧
    (0x10 < cr.toNat → exec (.wrcr cr imm) s = .next (raised 4#8 0#8 3#8 0#32 s)) ∧
    (cr.toNat ≤ 0x10 → cr ∉ [0x01#8, 0x02#8, 0x04#8, 0x05#8] →
      exec (.wrcr cr imm) s = .next (raised 4#8 0#8 4#8 0#32 s)) ∧
    (cr ∈ [0x01#8, 0x02#8] → 2 ^ 16 ≤ imm.toNat → exec (.wrcr cr imm) s = .next (raised 4#8 0#8 5#8 0#32 s)) ∧
    (2 ≤ imm.toNat → exec (.wrcr 0x05#8 imm) s = .next (raised 4#8 0#8 5#8 0#32 s))

/-- R174: INIT reinitialises every unit and clears the record; the configuration and OUT stay; it never raises. -/
def Obligations.InitStartsANewPass : Prop :=
  decode 0x0300000000000000#64 = .ok .init ∧
  ∀ s : State, exec .init s = .next
    { s with
      err := { code := 0#8, stage := 0#8, sub := 0#8, idx := 0#32 }
      fc := { s.fc with pos := 0#34, idx := 0#32 }
      rle := { s.rle with active := false }
      rld := { tally := 0#40, overrun := false, buf := [] }
      se := { s.se with first := true, pos := 0#34, idx := 0#32 }
      sd := { mode := .rawFrame, phase := false, tally := 0#34, idx := 0#32, fsub := 0#8, fidx := 0#32, acc := [],
              prev := s.sd.prev }
      rsp := okReply 0#40 }

/-! ### Unit FC -/

/-- R81, R82: the colour conversion in the literals of the rules, for every pixel; grey keeps its level as luma. -/
def Obligations.ColourConversionLiterals : Prop :=
  ∀ r g b : Byte,
    (cscY Config.params.k r g b).toNat = (299 * r.toNat + 587 * g.toNat + 114 * b.toNat) / 1000 ∧
    cscU Config.params.k r g b = 1280000 - 1690 * (r.toNat : Int) - 3310 * (g.toNat : Int) + 4490 * (b.toNat : Int) ∧
    cscV Config.params.k r g b = 1280000 + 4990 * (r.toNat : Int) - 4180 * (g.toNat : Int) - 813 * (b.toNat : Int) ∧
    (0 ≤ y1000 Config.params.k r g b ∧ y1000 Config.params.k r g b ≤ 255000) ∧
    cscY Config.params.k r r r = r

/-- R83: the intermediates' ranges over all pixels, both ends reached, and the bytes a block average of them gives. -/
def Obligations.ChromaIntermediatesStayInRange : Prop :=
  (∀ r g b : Byte,
    5000 ≤ cscU Config.params.k r g b ∧ cscU Config.params.k r g b ≤ 2424950 ∧
    6785 ≤ cscV Config.params.k r g b ∧ cscV Config.params.k r g b ≤ 2552450 ∧
    cscU Config.params.k r g b / 10000 ≤ 242 ∧ cscV Config.params.k r g b / 10000 ≤ 255) ∧
  cscU Config.params.k 255#8 255#8 0#8 = 5000 ∧ cscU Config.params.k 0#8 0#8 255#8 = 2424950 ∧
  cscV Config.params.k 0#8 255#8 255#8 = 6785 ∧ cscV Config.params.k 255#8 0#8 0#8 = 2552450 ∧
  (∀ a b c d : Int, 5000 ≤ a → a ≤ 2424950 → 5000 ≤ b → b ≤ 2424950 → 5000 ≤ c → c ≤ 2424950 → 5000 ≤ d →
    d ≤ 2424950 →
    a + b + c + d < 2 ^ 24 ∧ ((cssAvg a b c d).toNat : Int) = (a + b + c + d) / 40000 ∧
      (cssAvg a b c d).toNat ≤ 242) ∧
  (∀ a b c d : Int, 6785 ≤ a → a ≤ 2552450 → 6785 ≤ b → b ≤ 2552450 → 6785 ≤ c → c ≤ 2552450 → 6785 ≤ d →
    d ≤ 2552450 →
    a + b + c + d < 2 ^ 24 ∧ ((cssAvg a b c d).toNat : Int) = (a + b + c + d) / 40000)

/-- R86: with every element written, the packed frame has `L` bytes: the Y plane in pixel order, then one U byte and one
V byte for each cell, row-major, each the average of its 2x2 block. -/
def Obligations.PackedFrameLayout : Prop :=
  ∀ (w h : Nat) (fc : FcUnit), dimsLegal w h = true →
    writtenBelow fc.y (w * h) → writtenBelow fc.u (w * h) → writtenBelow fc.v (w * h) →
    ∃ frame : List Byte, fcPack w h fc = .ok frame ∧
      frame.length = w * h + 2 * (w * h / 4) ∧
      (∀ p, p < w * h → frame[p]? = bufGet fc.y p) ∧
      (∀ cx cy, cx < w / 2 → cy < h / 2 →
        (∃ p00 p10 p01 p11 : Chroma,
          bufGet fc.u (2 * cy * w + 2 * cx) = some p00 ∧ bufGet fc.u (2 * cy * w + 2 * cx + 1) = some p10 ∧
          bufGet fc.u ((2 * cy + 1) * w + 2 * cx) = some p01 ∧
          bufGet fc.u ((2 * cy + 1) * w + 2 * cx + 1) = some p11 ∧
          frame[w * h + cy * (w / 2) + cx]? = some (cssAvg p00.toNat p10.toNat p01.toNat p11.toNat)) ∧
        (∃ p00 p10 p01 p11 : Chroma,
          bufGet fc.v (2 * cy * w + 2 * cx) = some p00 ∧ bufGet fc.v (2 * cy * w + 2 * cx + 1) = some p10 ∧
          bufGet fc.v ((2 * cy + 1) * w + 2 * cx) = some p01 ∧
          bufGet fc.v ((2 * cy + 1) * w + 2 * cx + 1) = some p11 ∧
          frame[w * h + w * h / 4 + cy * (w / 2) + cx]? =
            some (cssAvg p00.toNat p10.toNat p01.toNat p11.toNat)))

/-- FC.PIX before the last pixel of a frame (R87): the three elements at the position take the converted pixel, every
other element of every buffer reads as before, the position moves on, nothing is emitted. -/
def Obligations.FcPixStoresAPixel : Prop :=
  ∀ (r g b : Byte) (s : State), dimsOk s = true → s.fc.pos.toNat + 1 < npix s →
    ∃ t, exec (.fcPix r g b) s = .next t ∧
      t.fc.pos.toNat = s.fc.pos.toNat + 1 ∧
      (∃ y : Byte, bufGet t.fc.y s.fc.pos.toNat = some y ∧
        y.toNat = (299 * r.toNat + 587 * g.toNat + 114 * b.toNat) / 1000) ∧
      (∃ u : Chroma, bufGet t.fc.u s.fc.pos.toNat = some u ∧
        (u.toNat : Int) = 1280000 - 1690 * (r.toNat : Int) - 3310 * (g.toNat : Int) + 4490 * (b.toNat : Int)) ∧
      (∃ v : Chroma, bufGet t.fc.v s.fc.pos.toNat = some v ∧
        (v.toNat : Int) = 1280000 + 4990 * (r.toNat : Int) - 4180 * (g.toNat : Int) - 813 * (b.toNat : Int)) ∧
      (∀ a, a ≠ s.fc.pos.toNat →
        bufGet t.fc.y a = bufGet s.fc.y a ∧ bufGet t.fc.u a = bufGet s.fc.u a ∧ bufGet t.fc.v a = bufGet s.fc.v a) ∧
      t = { s with fc := { t.fc with idx := s.fc.idx }, rsp := okReply 0#40 }

/-- FC.PIX of the last pixel with CHAIN 0 (R87, R88): the packed frame leaves by one `emit` of FC, the position returns
to 0, the frame index saturates upwards, and nothing else changes. -/
def Obligations.FcPixLastPixelEmitsTheFrame : Prop :=
  ∀ (r g b : Byte) (s : State), dimsOk s = true → s.fc.pos.toNat + 1 = npix s → s.ctl.chain = false →
    writtenBelow s.fc.y s.fc.pos.toNat → writtenBelow s.fc.u s.fc.pos.toNat → writtenBelow s.fc.v s.fc.pos.toNat →
    ∃ frame : List Byte, fcPack s.ctl.width.toNat s.ctl.height.toNat (fcStored r g b s.fc) = .ok frame ∧
      frame.length = frameLen s ∧
      exec (.fcPix r g b) s = .next
        { s with fc := fcDone r g b s.fc, out := s.out ++ beatsOf .fc frame, rsp := okReply 0#40 }

/-- FC.PIX of the last pixel with CHAIN 1 (R90): the frame goes to SE exactly as if the host had issued its `L` bytes as
SE.PUSH operations, and nothing of FC is emitted. -/
def Obligations.FcPixChainedFrameIsPushedIntoSe : Prop :=
  ∀ (r g b : Byte) (s : State), dimsOk s = true → s.fc.pos.toNat + 1 = npix s → s.ctl.chain = true →
    writtenBelow s.fc.y s.fc.pos.toNat → writtenBelow s.fc.u s.fc.pos.toNat → writtenBelow s.fc.v s.fc.pos.toNat →
    s.se.pos.toNat < frameLen s → writtenBelow s.se.cur s.se.pos.toNat →
    (s.se.first = false → writtenBelow s.se.prev (frameLen s)) →
    ∃ (frame : List Byte) (t : State),
      fcPack s.ctl.width.toNat s.ctl.height.toNat (fcStored r g b s.fc) = .ok frame ∧
      execAll (frame.map .sePush) { s with fc := fcDone r g b s.fc } = .next t ∧
      exec (.fcPix r g b) s = .next t ∧ t.fc = fcDone r g b s.fc ∧ t.rsp = okReply 0#40

/-- R91: FC.END answers the number of pixels dropped, reinitialises FC and touches nothing else. -/
def Obligations.FcEndDropsThePartialFrame : Prop :=
  decode 0x1100000000000000#64 = .ok .fcEnd ∧
  ∀ s : State, exec .fcEnd s = .next
    { s with fc := { s.fc with pos := 0#34, idx := 0#32 }, rsp := okReply (s.fc.pos.setWidth 40) }

/-! ### Unit DLT -/

/-- R101, R102: each operation emits one byte, the difference or the sum modulo 256, and changes nothing else. -/
def Obligations.DeltaOperationsEmitOneByte : Prop :=
  ∀ (a b : Byte) (s : State),
    decode (cmdWord 0x20#8 0#8 (immW a b)) = .ok (.dltSub a b) ∧
    decode (cmdWord 0x21#8 0#8 (immW a b)) = .ok (.dltAdd a b) ∧
    (∃ d : Byte, d.toNat = (a.toNat + 256 - b.toNat) % 256 ∧
      exec (.dltSub a b) s =
        .next { s with out := s.out ++ [{ src := .dlt, last := true, data := d }], rsp := okReply 0#40 }) ∧
    (∃ d : Byte, d.toNat = (a.toNat + b.toNat) % 256 ∧
      exec (.dltAdd a b) s =
        .next { s with out := s.out ++ [{ src := .dlt, last := true, data := d }], rsp := okReply 0#40 })

/-- R103 over a frame: decoding the delta of a frame against any frame of the same length gives the frame back, and
encoding a decoded delta gives the delta back. -/
def Obligations.DeltaCodingIsInvertibleOverFrames : Prop :=
  ∀ f p : List Byte, f.length = p.length →
    List.zipWith deltaDec (List.zipWith deltaEnc f p) p = f ∧
    List.zipWith deltaEnc (List.zipWith deltaDec f p) p = f

/-! ### Units RLE and RLD -/

/-- R113: a byte opens a run, lengthens it below the cap, or closes it as (count, value) and opens its own. -/
def Obligations.RlePushRunsAndCap : Prop :=
  ∀ (b : Byte) (s : State),
    decode (cmdWord 0x30#8 0#8 (immB b)) = .ok (.rlePush b) ∧
    (s.rle.active = false → exec (.rlePush b) s = .next
      { s with rle := { active := true, val := b, cnt := 1#8 }, rsp := okReply 0#40 }) ∧
    (s.rle.active = true → b = s.rle.val → s.rle.cnt.toNat < 255 → exec (.rlePush b) s = .next
      { s with rle := { active := true, val := s.rle.val, cnt := s.rle.cnt + 1#8 }, rsp := okReply 0#40 }) ∧
    (s.rle.active = true → (b ≠ s.rle.val ∨ s.rle.cnt = 255#8) → exec (.rlePush b) s = .next
      { s with
        rle := { active := true, val := b, cnt := 1#8 }
        out := s.out ++ [{ src := .rle, last := false, data := s.rle.cnt }, { src := .rle, last := true, data := s.rle.val }]
        rsp := okReply 0#40 })

/-- R115: RLE.END emits the open run, if there is one, and closes it. -/
def Obligations.RleEndFlushesTheRun : Prop :=
  decode 0x3100000000000000#64 = .ok .rleEnd ∧
  ∀ s : State,
    (s.rle.active = true → exec .rleEnd s = .next
      { s with
        rle := { s.rle with active := false }
        out := s.out ++ [{ src := .rle, last := false, data := s.rle.cnt }, { src := .rle, last := true, data := s.rle.val }]
        rsp := okReply 0#40 }) ∧
    (s.rle.active = false → exec .rleEnd s = .next { s with rsp := okReply 0#40 })

/-- R117: run-length coding is invertible for every byte sequence, and its counts sum to the sequence's length. -/
def Obligations.RunLengthCodingIsInvertible : Prop :=
  ∀ xs : List Byte,
    rleDecode (pairsOf (rleEncode xs)) xs.length = some xs ∧ countSum (rleEncode xs) = xs.length

/-- R114: no emitted count is 0, and two adjacent pairs have equal values only if the first count is 255. -/
def Obligations.RunLengthCountsAndMaximalRuns : Prop :=
  ∀ xs : List Byte,
    (∀ p ∈ pairsOf (rleEncode xs), 1 ≤ p.1.toNat ∧ p.1.toNat ≤ 255) ∧
    ∀ k (p q : Byte × Byte), (pairsOf (rleEncode xs))[k]? = some p → (pairsOf (rleEncode xs))[k + 1]? = some q →
      p.2 = q.2 → p.1 = 255#8

/-- R116: the beats of RLE.PUSH over a sequence and RLE.END, from no open run, are the pairs of `rle_encode`, one `emit`
each, and the unit is left with no open run. The encoding has between ceil(n / 255) and n pairs of two bytes, and n pairs
where no two adjacent bytes are equal. -/
def Obligations.RleOperationsComputeRleEncode : Prop :=
  ∀ (xs : List Byte) (s : State), s.rle.active = false →
    ∃ t, execAll (xs.map .rlePush ++ [.rleEnd]) s = .next t ∧
      t.out = s.out ++ beatsOfFrames .rle ((pairsOf (rleEncode xs)).map fun p => [p.1, p.2]) ∧
      t = { s with rle := t.rle, out := t.out, rsp := okReply 0#40 } ∧ t.rle.active = false ∧
      (rleEncode xs).length = 2 * (pairsOf (rleEncode xs)).length ∧
      (xs.length + 254) / 255 ≤ (pairsOf (rleEncode xs)).length ∧
      (pairsOf (rleEncode xs)).length ≤ xs.length ∧
      ((∀ k a b, xs[k]? = some a → xs[k + 1]? = some b → a ≠ b) → (rleEncode xs).length = 2 * xs.length)

/-- R121: a pair is expanded, or passes XLEN and sets the sticky flag, or comes after that and is ignored. -/
def Obligations.RldPairExpandsOrOverruns : Prop :=
  ∀ (c v : Byte) (s : State),
    decode (cmdWord 0x32#8 0#8 (immW c v)) = .ok (.rldPair c v) ∧
    (s.rld.overrun = true → exec (.rldPair c v) s = .next { s with rsp := okReply 0#40 }) ∧
    (s.rld.overrun = false → s.ctl.xlen.toNat < s.rld.tally.toNat + c.toNat → exec (.rldPair c v) s = .next
      { s with rld := { s.rld with overrun := true }, rsp := okReply 0#40 }) ∧
    (s.rld.overrun = false → s.rld.tally.toNat + c.toNat ≤ s.ctl.xlen.toNat →
      ∃ n : XWord, n.toNat = s.rld.tally.toNat + c.toNat ∧ exec (.rldPair c v) s = .next
        { s with
          rld := { tally := n, overrun := false, buf := s.rld.buf ++ List.replicate c.toNat v }
          rsp := okReply 0#40 })

/-- R122: RLD.END delivers the expansion in one `emit` when its length is XLEN, else raises LengthMismatch, LONG before
SHORT; either way the unit is idle. -/
def Obligations.RldEndDeliversOrRefuses : Prop :=
  decode 0x3300000000000000#64 = .ok .rldEnd ∧
  ∀ s : State,
    (s.rld.overrun = true → exec .rldEnd s = .next
      (raised 3#8 4#8 2#8 0#32 { s with rld := { tally := 0#40, overrun := false, buf := [] } })) ∧
    (s.rld.overrun = false → s.rld.tally ≠ s.ctl.xlen → exec .rldEnd s = .next
      (raised 3#8 4#8 1#8 0#32 { s with rld := { tally := 0#40, overrun := false, buf := [] } })) ∧
    (s.rld.overrun = false → s.rld.tally = s.ctl.xlen → exec .rldEnd s = .next
      { s with
        rld := { tally := 0#40, overrun := false, buf := [] }
        out := s.out ++ beatsOf .rld s.rld.buf
        rsp := okReply 0#40 })

/-- R123: RLD.PAIR over a sequence of pairs and RLD.END, from the idle state, give exactly the result of `rle_decode`
with the expected length XLEN; and the buffer never holds more than XLEN bytes. -/
def Obligations.RldOperationsComputeRleDecode : Prop :=
  ∀ (ps : List (Byte × Byte)) (s : State), s.rld = { tally := 0#40, overrun := false, buf := [] } →
    (∀ xs, rleDecode ps s.ctl.xlen.toNat = some xs →
      execAll (ps.map (fun p => .rldPair p.1 p.2) ++ [.rldEnd]) s =
        .next { s with out := s.out ++ beatsOf .rld xs, rsp := okReply 0#40 }) ∧
    (rleDecode ps s.ctl.xlen.toNat = none →
      execAll (ps.map (fun p => .rldPair p.1 p.2) ++ [.rldEnd]) s =
        .next (raised 3#8 4#8 (if (expandPairs ps).length < s.ctl.xlen.toNat then 1#8 else 2#8) 0#32 s)) ∧
    (∀ t, execAll (ps.map (fun p => .rldPair p.1 p.2)) s = .next t → t.rld.buf.length ≤ s.ctl.xlen.toNat)

/-! ### Unit SE -/

/-- R132, before the last byte of a frame: the byte goes to `se.cur` at the position, every other element reads as
before, the position moves on, nothing is emitted. -/
def Obligations.SePushStoresAByte : Prop :=
  ∀ (b : Byte) (s : State), dimsOk s = true → s.se.pos.toNat + 1 < frameLen s →
    ∃ t, exec (.sePush b) s = .next t ∧
      t.se.pos.toNat = s.se.pos.toNat + 1 ∧
      (∀ a, bufGet t.se.cur a = frameByte s.se.cur s.se.pos.toNat b a) ∧
      t = { s with se := { s.se with cur := t.se.cur, pos := t.se.pos }, rsp := okReply 0#40 }

/-- R133: the last byte of a frame emits frame 0 raw, and any later frame as the RLE of its delta against the previous
one, by one `emit`; the frame becomes the previous frame; the position returns to 0 and the index saturates upwards. -/
def Obligations.SePushLastByteEmitsTheFrame : Prop :=
  ∀ (b : Byte) (s : State), dimsOk s = true → s.se.pos.toNat + 1 = frameLen s →
    writtenBelow s.se.cur s.se.pos.toNat → (s.se.first = false → writtenBelow s.se.prev (frameLen s)) →
    ∃ (frame bytes : List Byte) (t : State), exec (.sePush b) s = .next t ∧
      frame.length = frameLen s ∧
      (∀ k, k < frameLen s → frame[k]? = frameByte s.se.cur s.se.pos.toNat b k) ∧
      (s.se.first = true → bytes = frame) ∧
      (s.se.first = false → ∃ prev : List Byte, prev.length = frameLen s ∧
        (∀ k, k < frameLen s → prev[k]? = bufGet s.se.prev k) ∧
        bytes = rleEncode (List.zipWith deltaEnc frame prev)) ∧
      t.out = s.out ++ beatsOf .se bytes ∧
      t.se.first = false ∧ t.se.pos = 0#34 ∧ t.se.idx.toNat = min (s.se.idx.toNat + 1) (2 ^ 32 - 1) ∧
      (∀ a, bufGet t.se.cur a = frameByte s.se.cur s.se.pos.toNat b a) ∧
      (∀ a, bufGet t.se.prev a = if a < frameLen s then frame[a]? else bufGet s.se.prev a) ∧
      t = { s with se := t.se, out := t.out, rsp := okReply 0#40 }

/-- R136: SE.END answers the number of bytes dropped, reinitialises SE, emits nothing and never raises. -/
def Obligations.SeEndDropsThePartialFrame : Prop :=
  decode 0x4100000000000000#64 = .ok .seEnd ∧
  ∀ s : State, exec .seEnd s = .next
    { s with se := { s.se with first := true, pos := 0#34, idx := 0#32 }, rsp := okReply (s.se.pos.setWidth 40) }

/-- R135, R134: pushing the bytes of any frames, from the first-frame state, puts exactly `stream_encode` of them on OUT
as the data of SE beats, and nothing else. -/
def Obligations.EncoderComputesStreamEncode : Prop :=
  ∀ (video : List (List Byte)) (s : State), dimsOk s = true → s.se.first = true → s.se.pos = 0#34 →
    (∀ f ∈ video, f.length = frameLen s) →
    ∃ (t : State) (bs : List Beat), execAll (video.flatten.map .sePush) s = .next t ∧
      t.out = s.out ++ bs ∧ bs.map (·.data) = streamEncode video ∧ (∀ b ∈ bs, b.src = .se) ∧
      t.err = s.err ∧ t.se.pos = 0#34

/-! ### Unit SD -/

/-- R151: a byte of frame 0 is kept and counted; the one that makes `L` emits the frame, makes it the previous frame and
switches to RLEPair mode. -/
def Obligations.SdPushRawByte : Prop :=
  ∀ (b : Byte) (s : State), dimsOk s = true → s.sd.mode = .rawFrame → s.sd.acc.length = s.sd.tally.toNat →
    (s.sd.tally.toNat + 1 < frameLen s →
      ∃ n : Len, n.toNat = s.sd.tally.toNat + 1 ∧ exec (.sdPush b) s = .next
        { s with sd := { s.sd with acc := s.sd.acc ++ [b], tally := n }, rsp := okReply 0#40 }) ∧
    (s.sd.tally.toNat + 1 = frameLen s →
      ∃ (t : State) (k : Idx) (m : Memory Byte), exec (.sdPush b) s = .next t ∧
        k.toNat = min (s.sd.idx.toNat + 1) (2 ^ 32 - 1) ∧
        (∀ a, bufGet m a = if a < frameLen s then (s.sd.acc ++ [b])[a]? else bufGet s.sd.prev a) ∧
        t = { s with
              sd := { s.sd with mode := .rlePair, phase := false, tally := 0#34, idx := k, acc := [], prev := m }
              out := s.out ++ beatsOf .sd (s.sd.acc ++ [b])
              rsp := okReply 0#40 })

/-- R152, R154: a count byte is kept and added to the tally; a tally above `L` fails at once with OVERSHOOT, the rest of
the unit frozen as it stands. -/
def Obligations.SdPushCountByte : Prop :=
  ∀ (c : Byte) (s : State), dimsOk s = true → s.sd.mode = .rlePair → s.sd.phase = false →
    s.sd.tally.toNat ≤ frameLen s →
    ∃ n : Len, n.toNat = s.sd.tally.toNat + c.toNat ∧
      (n.toNat ≤ frameLen s → exec (.sdPush c) s = .next
        { s with sd := { s.sd with acc := s.sd.acc ++ [c], tally := n, phase := true }, rsp := okReply 0#40 }) ∧
      (frameLen s < n.toNat → exec (.sdPush c) s = .next
        (raised 2#8 6#8 1#8 s.sd.idx
          { s with sd := { s.sd with acc := s.sd.acc ++ [c], tally := n, phase := true, mode := .failed, fsub := 1#8,
                                     fidx := s.sd.idx } }))

/-- R153: a value byte completes a pair, and the frame when the tally is `L`: the delta's run-length expansion is added
to the previous frame byte by byte, emitted by one `emit`, and becomes the previous frame. -/
def Obligations.SdPushValueByte : Prop :=
  ∀ (v : Byte) (s : State), dimsOk s = true → s.sd.mode = .rlePair → s.sd.phase = true →
    s.sd.acc.length % 2 = 1 → countSum s.sd.acc = s.sd.tally.toNat → writtenBelow s.sd.prev (frameLen s) →
    (s.sd.tally.toNat ≠ frameLen s → exec (.sdPush v) s = .next
      { s with sd := { s.sd with acc := s.sd.acc ++ [v], phase := false }, rsp := okReply 0#40 }) ∧
    (s.sd.tally.toNat = frameLen s →
      ∃ (delta frame : List Byte) (t : State) (k : Idx) (m : Memory Byte), exec (.sdPush v) s = .next t ∧
        rleDecode (pairsOf (s.sd.acc ++ [v])) (frameLen s) = some delta ∧
        frame.length = frameLen s ∧
        (∀ a, a < frameLen s → ∃ d p, delta[a]? = some d ∧ bufGet s.sd.prev a = some p ∧
          frame[a]? = some (deltaDec d p)) ∧
        k.toNat = min (s.sd.idx.toNat + 1) (2 ^ 32 - 1) ∧
        (∀ a, bufGet m a = if a < frameLen s then frame[a]? else bufGet s.sd.prev a) ∧
        t = { s with
              sd := { s.sd with mode := .rlePair, phase := false, tally := 0#34, idx := k, acc := [], prev := m }
              out := s.out ++ beatsOf .sd frame
              rsp := okReply 0#40 })

/-- R155: SD.END repeats a latched failure; else it is clean at a frame boundary, MIDPAIR when only the last value byte
is missing, TRUNCATED otherwise; it looks at no dimensions. -/
def Obligations.SdEndJudgesTheStream : Prop :=
  decode 0x5100000000000000#64 = .ok .sdEnd ∧
  ∀ s : State,
    (s.sd.mode = .failed → exec .sdEnd s = .next (raised 2#8 6#8 s.sd.fsub s.sd.fidx s)) ∧
    (s.sd.mode ≠ .failed → s.sd.acc = [] → exec .sdEnd s = .next
      { s with
        sd := { mode := .rawFrame, phase := false, tally := 0#34, idx := 0#32, fsub := 0#8, fidx := 0#32, acc := [],
                prev := s.sd.prev }
        rsp := okReply 0#40 }) ∧
    (s.sd.mode ≠ .failed → s.sd.acc ≠ [] → s.sd.mode = .rlePair → s.sd.phase = true → s.sd.tally.toNat = frameLen s →
      exec .sdEnd s = .next (raised 2#8 6#8 3#8 s.sd.idx
        { s with sd := { s.sd with mode := .failed, fsub := 3#8, fidx := s.sd.idx } })) ∧
    (s.sd.mode ≠ .failed → s.sd.acc ≠ [] → ¬ (s.sd.mode = .rlePair ∧ s.sd.phase = true ∧ s.sd.tally.toNat = frameLen s) →
      exec .sdEnd s = .next (raised 2#8 6#8 2#8 s.sd.idx
        { s with sd := { s.sd with mode := .failed, fsub := 2#8, fidx := s.sd.idx } }))

/-- R160, R222: pushing any byte sequence and then SD.END, from the idle state, emits exactly the frames `stream_decode` gives
and answers with its failure, if any: the sub-cause and the (saturating) index of the frame that failed. -/
def Obligations.DecoderComputesStreamDecode : Prop :=
  ∀ (bytes : List Byte) (s : State), dimsOk s = true → sdIdle s.sd →
    ∃ t, execAll (bytes.map .sdPush ++ [.sdEnd]) s = .next t ∧
      t.out = s.out ++ beatsOfFrames .sd (streamDecode (frameLen s) bytes).frames ∧
      match (streamDecode (frameLen s) bytes).failure with
      | none => t.rsp = okReply 0#40 ∧ t.err = s.err ∧ sdIdle t.sd
      | some (sub, i) =>
        t.rsp = some { code := 2#8, stage := 6#8, sub := sub, val := (satIndex i).setWidth 40 } ∧
          t.sd.mode = .failed

/-- R138: for every video of `L`-byte frames, feeding `stream_encode` of it to unit SD and then SD.END emits exactly the
video's frames and raises nothing; the decoder's previous frame is then the video's last. -/
def Obligations.StreamRoundTrip : Prop :=
  ∀ (video : List (List Byte)) (s : State), dimsOk s = true → sdIdle s.sd →
    (∀ f ∈ video, f.length = frameLen s) →
    ∃ t, execAll ((streamEncode video).map .sdPush ++ [.sdEnd]) s = .next t ∧
      t.out = s.out ++ beatsOfFrames .sd video ∧ t.rsp = okReply 0#40 ∧ t.err = s.err ∧ sdIdle t.sd ∧
      ∀ f, video.getLast? = some f → ∀ k, k < frameLen s → bufGet t.sd.prev k = f[k]?

/-- R156: the bounded form of the unit gives the same beats and the same responses for every operation of the unit, and
goes on standing for it. -/
def Obligations.BoundedDecoderIsEquivalent : Prop :=
  ∀ (s : State) (x : SdBounded), Inv s → x.StandsFor s.sd →
    (∀ b : Byte, dimsOk s = true →
      ∃ (t : State) (x' : SdBounded) (reply : SdReply),
        exec (.sdPush b) s = .next t ∧ boundedPush (frameLen s) b x = .ok (x', reply) ∧ x'.StandsFor t.sd ∧
        match reply with
        | .ok frame => t.out = s.out ++ beatsOf .sd frame ∧ t.rsp = okReply 0#40
        | .corrupt sub i =>
          t.out = s.out ∧ t.rsp = some { code := 2#8, stage := 6#8, sub := sub, val := i.setWidth 40 }) ∧
    (∃ t : State, exec .sdEnd s = .next t ∧ (boundedEnd (frameLen s) x).1.StandsFor t.sd ∧ t.out = s.out ∧
      match (boundedEnd (frameLen s) x).2 with
      | .ok _ => t.rsp = okReply 0#40
      | .corrupt sub i => t.rsp = some { code := 2#8, stage := 6#8, sub := sub, val := i.setWidth 40 })

/-! ### Parameters and the RGB frame -/

/-- R4: the parameters at their values, the registers' ranges that the widths give, the derived run-time quantities in
the rule's own formulas, and the bounds that legal dimensions give. -/
def Obligations.ParametersAndDerivedQuantities : Prop :=
  Config.params.widths =
    { dimBits := 16, lenBits := 2 * 16 + 2, xlenBits := 40, idxBits := 32, cmdBits := 64, rspBits := 64 } ∧
  (Config.params.lMax = 3 * (2 ^ 16 - 2) ^ 2 / 2 ∧ Config.params.lMax = 6442057734) ∧
  Config.params.runCap = 255 ∧ Config.params.qy = 1000 ∧ Config.params.qc = 10000 ∧
  Config.params.k = { yr := 299, yg := 587, yb := 114, ur := -1690, ug := -3310, ub := 4490, u0 := 1280000,
                      vr := 4990, vg := -4180, vb := -813, v0 := 1280000 } ∧
  ∀ s : State,
    (s.ctl.width.toNat < 2 ^ 16 ∧ s.ctl.height.toNat < 2 ^ 16 ∧ s.ctl.xlen.toNat < 2 ^ 40 ∧
      s.rld.tally.toNat < 2 ^ 40 ∧ s.fc.pos.toNat < 2 ^ 34 ∧ s.se.pos.toNat < 2 ^ 34 ∧ s.sd.tally.toNat < 2 ^ 34 ∧
      s.fc.idx.toNat < 2 ^ 32 ∧ s.se.idx.toNat < 2 ^ 32 ∧ s.sd.idx.toNat < 2 ^ 32) ∧
    (dimsOk s = true ↔
      s.ctl.width.toNat ≠ 0 ∧ s.ctl.height.toNat ≠ 0 ∧ s.ctl.width.toNat % 2 = 0 ∧ s.ctl.height.toNat % 2 = 0 ∧
        3 * s.ctl.width.toNat * s.ctl.height.toNat / 2 ≤ 6442057734) ∧
    npix s = s.ctl.width.toNat * s.ctl.height.toNat ∧
    chromaLen s = s.ctl.width.toNat * s.ctl.height.toNat / 4 ∧
    frameLen s = 3 * s.ctl.width.toNat * s.ctl.height.toNat / 2 ∧
    rgbLen s = 3 * npix s ∧
    (dimsOk s = true →
      4 * chromaLen s = npix s ∧ frameLen s = npix s + 2 * chromaLen s ∧ s.ctl.width.toNat ≤ 65534 ∧
        s.ctl.height.toNat ≤ 65534 ∧ npix s < 2 ^ 32 ∧ frameLen s < 2 ^ 33 ∧ frameLen s + 254 < 2 ^ 34 ∧
        rgbLen s < 2 ^ 34)

/-- R42, R69: the `RGBLEN` bytes of an RGB frame are `NPIX` FC.PIX operations in increasing pixel index, pixel p carrying
bytes 3p, 3p+1 and 3p+2; no other bytes give the same operations; bytes that are not whole pixels are refused. -/
def Obligations.RgbFrameIsItsPixels : Prop :=
  (∀ (s : State) (bytes : List Byte), bytes.length = rgbLen s →
    ∃ ops, expandPseudo (.fcFrame bytes) = some ops ∧ ops.length = npix s ∧
      (∀ p, p < npix s → ∃ r g b, bytes[3 * p]? = some r ∧ bytes[3 * p + 1]? = some g ∧
        bytes[3 * p + 2]? = some b ∧ ops[p]? = some (.fcPix r g b)) ∧
      ∀ bytes', expandPseudo (.fcFrame bytes') = some ops → bytes' = bytes) ∧
  ∀ bytes : List Byte, bytes.length % 3 ≠ 0 → expandPseudo (.fcFrame bytes) = none
end

