-- ==== Sys2Proof/Laws/State.lean ====
section
/-! SUPPORT. One lemma per field per named update of the state, true by rfl, so that no proof unfolds an update. -/

namespace Sys2Proof.Machine

variable (s : State)

@[simp] theorem respond_ctl (code stage sub : Byte) (val : XWord) : (respond code stage sub val s).ctl = s.ctl := rfl
@[simp] theorem respond_err (code stage sub : Byte) (val : XWord) : (respond code stage sub val s).err = s.err := rfl
@[simp] theorem respond_fc (code stage sub : Byte) (val : XWord) : (respond code stage sub val s).fc = s.fc := rfl
@[simp] theorem respond_rle (code stage sub : Byte) (val : XWord) : (respond code stage sub val s).rle = s.rle := rfl
@[simp] theorem respond_rld (code stage sub : Byte) (val : XWord) : (respond code stage sub val s).rld = s.rld := rfl
@[simp] theorem respond_se (code stage sub : Byte) (val : XWord) : (respond code stage sub val s).se = s.se := rfl
@[simp] theorem respond_sd (code stage sub : Byte) (val : XWord) : (respond code stage sub val s).sd = s.sd := rfl
@[simp] theorem respond_out (code stage sub : Byte) (val : XWord) : (respond code stage sub val s).out = s.out := rfl
@[simp] theorem respond_rsp (code stage sub : Byte) (val : XWord) : (respond code stage sub val s).rsp = some { code := code, stage := stage, sub := sub, val := val } := rfl
@[simp] theorem respond_inputs (code stage sub : Byte) (val : XWord) : (respond code stage sub val s).inputs = s.inputs := rfl

@[simp] theorem respondOk_ctl (val : XWord) : (respondOk val s).ctl = s.ctl := rfl
@[simp] theorem respondOk_err (val : XWord) : (respondOk val s).err = s.err := rfl
@[simp] theorem respondOk_fc (val : XWord) : (respondOk val s).fc = s.fc := rfl
@[simp] theorem respondOk_rle (val : XWord) : (respondOk val s).rle = s.rle := rfl
@[simp] theorem respondOk_rld (val : XWord) : (respondOk val s).rld = s.rld := rfl
@[simp] theorem respondOk_se (val : XWord) : (respondOk val s).se = s.se := rfl
@[simp] theorem respondOk_sd (val : XWord) : (respondOk val s).sd = s.sd := rfl
@[simp] theorem respondOk_out (val : XWord) : (respondOk val s).out = s.out := rfl
@[simp] theorem respondOk_rsp (val : XWord) : (respondOk val s).rsp = some { code := 0#8, stage := 0#8, sub := 0#8, val := val } := rfl
@[simp] theorem respondOk_inputs (val : XWord) : (respondOk val s).inputs = s.inputs := rfl

@[simp] theorem emit_ctl (src : UnitCode) (bytes : List Byte) : (emit src bytes s).ctl = s.ctl := rfl
@[simp] theorem emit_err (src : UnitCode) (bytes : List Byte) : (emit src bytes s).err = s.err := rfl
@[simp] theorem emit_fc (src : UnitCode) (bytes : List Byte) : (emit src bytes s).fc = s.fc := rfl
@[simp] theorem emit_rle (src : UnitCode) (bytes : List Byte) : (emit src bytes s).rle = s.rle := rfl
@[simp] theorem emit_rld (src : UnitCode) (bytes : List Byte) : (emit src bytes s).rld = s.rld := rfl
@[simp] theorem emit_se (src : UnitCode) (bytes : List Byte) : (emit src bytes s).se = s.se := rfl
@[simp] theorem emit_sd (src : UnitCode) (bytes : List Byte) : (emit src bytes s).sd = s.sd := rfl
@[simp] theorem emit_out (src : UnitCode) (bytes : List Byte) : (emit src bytes s).out = s.out ++ beatsOf src bytes := rfl
@[simp] theorem emit_rsp (src : UnitCode) (bytes : List Byte) : (emit src bytes s).rsp = s.rsp := rfl
@[simp] theorem emit_inputs (src : UnitCode) (bytes : List Byte) : (emit src bytes s).inputs = s.inputs := rfl

@[simp] theorem clearError_ctl : (clearError s).ctl = s.ctl := rfl
@[simp] theorem clearError_err : (clearError s).err = { code := 0#8, stage := 0#8, sub := 0#8, idx := 0#32 } := rfl
@[simp] theorem clearError_fc : (clearError s).fc = s.fc := rfl
@[simp] theorem clearError_rle : (clearError s).rle = s.rle := rfl
@[simp] theorem clearError_rld : (clearError s).rld = s.rld := rfl
@[simp] theorem clearError_se : (clearError s).se = s.se := rfl
@[simp] theorem clearError_sd : (clearError s).sd = s.sd := rfl
@[simp] theorem clearError_out : (clearError s).out = s.out := rfl
@[simp] theorem clearError_rsp : (clearError s).rsp = s.rsp := rfl
@[simp] theorem clearError_inputs : (clearError s).inputs = s.inputs := rfl

@[simp] theorem reinitFc_ctl : (reinitFc s).ctl = s.ctl := rfl
@[simp] theorem reinitFc_err : (reinitFc s).err = s.err := rfl
@[simp] theorem reinitFc_fc : (reinitFc s).fc = { s.fc with pos := 0#34, idx := 0#32 } := rfl
@[simp] theorem reinitFc_rle : (reinitFc s).rle = s.rle := rfl
@[simp] theorem reinitFc_rld : (reinitFc s).rld = s.rld := rfl
@[simp] theorem reinitFc_se : (reinitFc s).se = s.se := rfl
@[simp] theorem reinitFc_sd : (reinitFc s).sd = s.sd := rfl
@[simp] theorem reinitFc_out : (reinitFc s).out = s.out := rfl
@[simp] theorem reinitFc_rsp : (reinitFc s).rsp = s.rsp := rfl
@[simp] theorem reinitFc_inputs : (reinitFc s).inputs = s.inputs := rfl

@[simp] theorem reinitRle_ctl : (reinitRle s).ctl = s.ctl := rfl
@[simp] theorem reinitRle_err : (reinitRle s).err = s.err := rfl
@[simp] theorem reinitRle_fc : (reinitRle s).fc = s.fc := rfl
@[simp] theorem reinitRle_rle : (reinitRle s).rle = { s.rle with active := false } := rfl
@[simp] theorem reinitRle_rld : (reinitRle s).rld = s.rld := rfl
@[simp] theorem reinitRle_se : (reinitRle s).se = s.se := rfl
@[simp] theorem reinitRle_sd : (reinitRle s).sd = s.sd := rfl
@[simp] theorem reinitRle_out : (reinitRle s).out = s.out := rfl
@[simp] theorem reinitRle_rsp : (reinitRle s).rsp = s.rsp := rfl
@[simp] theorem reinitRle_inputs : (reinitRle s).inputs = s.inputs := rfl

@[simp] theorem reinitRld_ctl : (reinitRld s).ctl = s.ctl := rfl
@[simp] theorem reinitRld_err : (reinitRld s).err = s.err := rfl
@[simp] theorem reinitRld_fc : (reinitRld s).fc = s.fc := rfl
@[simp] theorem reinitRld_rle : (reinitRld s).rle = s.rle := rfl
@[simp] theorem reinitRld_rld : (reinitRld s).rld = { tally := 0#40, overrun := false, buf := [] } := rfl
@[simp] theorem reinitRld_se : (reinitRld s).se = s.se := rfl
@[simp] theorem reinitRld_sd : (reinitRld s).sd = s.sd := rfl
@[simp] theorem reinitRld_out : (reinitRld s).out = s.out := rfl
@[simp] theorem reinitRld_rsp : (reinitRld s).rsp = s.rsp := rfl
@[simp] theorem reinitRld_inputs : (reinitRld s).inputs = s.inputs := rfl

@[simp] theorem reinitSe_ctl : (reinitSe s).ctl = s.ctl := rfl
@[simp] theorem reinitSe_err : (reinitSe s).err = s.err := rfl
@[simp] theorem reinitSe_fc : (reinitSe s).fc = s.fc := rfl
@[simp] theorem reinitSe_rle : (reinitSe s).rle = s.rle := rfl
@[simp] theorem reinitSe_rld : (reinitSe s).rld = s.rld := rfl
@[simp] theorem reinitSe_se : (reinitSe s).se = { s.se with first := true, pos := 0#34, idx := 0#32 } := rfl
@[simp] theorem reinitSe_sd : (reinitSe s).sd = s.sd := rfl
@[simp] theorem reinitSe_out : (reinitSe s).out = s.out := rfl
@[simp] theorem reinitSe_rsp : (reinitSe s).rsp = s.rsp := rfl
@[simp] theorem reinitSe_inputs : (reinitSe s).inputs = s.inputs := rfl

@[simp] theorem reinitSd_ctl : (reinitSd s).ctl = s.ctl := rfl
@[simp] theorem reinitSd_err : (reinitSd s).err = s.err := rfl
@[simp] theorem reinitSd_fc : (reinitSd s).fc = s.fc := rfl
@[simp] theorem reinitSd_rle : (reinitSd s).rle = s.rle := rfl
@[simp] theorem reinitSd_rld : (reinitSd s).rld = s.rld := rfl
@[simp] theorem reinitSd_se : (reinitSd s).se = s.se := rfl
@[simp] theorem reinitSd_sd : (reinitSd s).sd = 
    { mode := .rawFrame, phase := false, tally := 0#34, idx := 0#32, fsub := 0#8, fidx := 0#32,
      acc := [], prev := s.sd.prev } := rfl
@[simp] theorem reinitSd_out : (reinitSd s).out = s.out := rfl
@[simp] theorem reinitSd_rsp : (reinitSd s).rsp = s.rsp := rfl
@[simp] theorem reinitSd_inputs : (reinitSd s).inputs = s.inputs := rfl

@[simp] theorem removeBeat_ctl : (removeBeat s).ctl = s.ctl := rfl
@[simp] theorem removeBeat_err : (removeBeat s).err = s.err := rfl
@[simp] theorem removeBeat_fc : (removeBeat s).fc = s.fc := rfl
@[simp] theorem removeBeat_rle : (removeBeat s).rle = s.rle := rfl
@[simp] theorem removeBeat_rld : (removeBeat s).rld = s.rld := rfl
@[simp] theorem removeBeat_se : (removeBeat s).se = s.se := rfl
@[simp] theorem removeBeat_sd : (removeBeat s).sd = s.sd := rfl
@[simp] theorem removeBeat_out : (removeBeat s).out = s.out.drop 1 := rfl
@[simp] theorem removeBeat_rsp : (removeBeat s).rsp = s.rsp := rfl
@[simp] theorem removeBeat_inputs : (removeBeat s).inputs = s.inputs := rfl

@[simp] theorem presentNext_ctl (w : Cmd) : (presentNext w s).ctl = s.ctl := rfl
@[simp] theorem presentNext_err (w : Cmd) : (presentNext w s).err = s.err := rfl
@[simp] theorem presentNext_fc (w : Cmd) : (presentNext w s).fc = s.fc := rfl
@[simp] theorem presentNext_rle (w : Cmd) : (presentNext w s).rle = s.rle := rfl
@[simp] theorem presentNext_rld (w : Cmd) : (presentNext w s).rld = s.rld := rfl
@[simp] theorem presentNext_se (w : Cmd) : (presentNext w s).se = s.se := rfl
@[simp] theorem presentNext_sd (w : Cmd) : (presentNext w s).sd = s.sd := rfl
@[simp] theorem presentNext_out (w : Cmd) : (presentNext w s).out = s.out := rfl
@[simp] theorem presentNext_rsp (w : Cmd) : (presentNext w s).rsp = s.rsp := rfl
@[simp] theorem presentNext_inputs (w : Cmd) : (presentNext w s).inputs = .command w :: s.inputs := rfl

/-! `latchError` writes the record once and nothing else; `raise` answers besides. -/

@[simp] theorem latchError_ctl (e : ErrKind) (u : UnitCode) (sub : Byte) (i : Idx) :
    (latchError e u sub i s).ctl = s.ctl := by
  unfold latchError; split <;> rfl
theorem latchError_err (e : ErrKind) (u : UnitCode) (sub : Byte) (i : Idx) :
    (latchError e u sub i s).err =
      if s.err.code = 0#8 then { code := errCode e, stage := unitNumber u, sub := sub, idx := i } else s.err := by
  unfold latchError; split <;> rfl
@[simp] theorem latchError_fc (e : ErrKind) (u : UnitCode) (sub : Byte) (i : Idx) :
    (latchError e u sub i s).fc = s.fc := by
  unfold latchError; split <;> rfl
@[simp] theorem latchError_rle (e : ErrKind) (u : UnitCode) (sub : Byte) (i : Idx) :
    (latchError e u sub i s).rle = s.rle := by
  unfold latchError; split <;> rfl
@[simp] theorem latchError_rld (e : ErrKind) (u : UnitCode) (sub : Byte) (i : Idx) :
    (latchError e u sub i s).rld = s.rld := by
  unfold latchError; split <;> rfl
@[simp] theorem latchError_se (e : ErrKind) (u : UnitCode) (sub : Byte) (i : Idx) :
    (latchError e u sub i s).se = s.se := by
  unfold latchError; split <;> rfl
@[simp] theorem latchError_sd (e : ErrKind) (u : UnitCode) (sub : Byte) (i : Idx) :
    (latchError e u sub i s).sd = s.sd := by
  unfold latchError; split <;> rfl
@[simp] theorem latchError_out (e : ErrKind) (u : UnitCode) (sub : Byte) (i : Idx) :
    (latchError e u sub i s).out = s.out := by
  unfold latchError; split <;> rfl
@[simp] theorem latchError_rsp (e : ErrKind) (u : UnitCode) (sub : Byte) (i : Idx) :
    (latchError e u sub i s).rsp = s.rsp := by
  unfold latchError; split <;> rfl
@[simp] theorem latchError_inputs (e : ErrKind) (u : UnitCode) (sub : Byte) (i : Idx) :
    (latchError e u sub i s).inputs = s.inputs := by
  unfold latchError; split <;> rfl

@[simp] theorem raise_ctl (e : ErrKind) (u : UnitCode) (sub : Byte) (i : Idx) :
    (raise e u sub i s).ctl = s.ctl := by
  simp [raise]
theorem raise_err (e : ErrKind) (u : UnitCode) (sub : Byte) (i : Idx) :
    (raise e u sub i s).err =
      if s.err.code = 0#8 then { code := errCode e, stage := unitNumber u, sub := sub, idx := i } else s.err := by
  simp [raise, latchError_err]
@[simp] theorem raise_fc (e : ErrKind) (u : UnitCode) (sub : Byte) (i : Idx) :
    (raise e u sub i s).fc = s.fc := by
  simp [raise]
@[simp] theorem raise_rle (e : ErrKind) (u : UnitCode) (sub : Byte) (i : Idx) :
    (raise e u sub i s).rle = s.rle := by
  simp [raise]
@[simp] theorem raise_rld (e : ErrKind) (u : UnitCode) (sub : Byte) (i : Idx) :
    (raise e u sub i s).rld = s.rld := by
  simp [raise]
@[simp] theorem raise_se (e : ErrKind) (u : UnitCode) (sub : Byte) (i : Idx) :
    (raise e u sub i s).se = s.se := by
  simp [raise]
@[simp] theorem raise_sd (e : ErrKind) (u : UnitCode) (sub : Byte) (i : Idx) :
    (raise e u sub i s).sd = s.sd := by
  simp [raise]
@[simp] theorem raise_out (e : ErrKind) (u : UnitCode) (sub : Byte) (i : Idx) :
    (raise e u sub i s).out = s.out := by
  simp [raise]
@[simp] theorem raise_rsp (e : ErrKind) (u : UnitCode) (sub : Byte) (i : Idx) :
    (raise e u sub i s).rsp =
      some { code := errCode e, stage := unitNumber u, sub := sub, val := i.setWidth 40 } := rfl
@[simp] theorem raise_inputs (e : ErrKind) (u : UnitCode) (sub : Byte) (i : Idx) :
    (raise e u sub i s).inputs = s.inputs := by
  simp [raise]

/-! What entering Failed mode leaves (R154). -/

@[simp] theorem sdFail_ctl (sub : Byte) : (sdFail sub s).ctl = s.ctl := by
  simp [sdFail]
theorem sdFail_err (sub : Byte) :
    (sdFail sub s).err =
      if s.err.code = 0#8 then { code := 2#8, stage := 6#8, sub := sub, idx := s.sd.idx } else s.err := by
  simp [sdFail, raise_err, errCode, unitNumber]
@[simp] theorem sdFail_fc (sub : Byte) : (sdFail sub s).fc = s.fc := by
  simp [sdFail]
@[simp] theorem sdFail_rle (sub : Byte) : (sdFail sub s).rle = s.rle := by
  simp [sdFail]
@[simp] theorem sdFail_rld (sub : Byte) : (sdFail sub s).rld = s.rld := by
  simp [sdFail]
@[simp] theorem sdFail_se (sub : Byte) : (sdFail sub s).se = s.se := by
  simp [sdFail]
@[simp] theorem sdFail_sd (sub : Byte) :
    (sdFail sub s).sd = { s.sd with fsub := sub, fidx := s.sd.idx, mode := .failed } := by
  simp [sdFail]
@[simp] theorem sdFail_out (sub : Byte) : (sdFail sub s).out = s.out := by
  simp [sdFail]
@[simp] theorem sdFail_rsp (sub : Byte) :
    (sdFail sub s).rsp = some { code := 2#8, stage := 6#8, sub := sub, val := s.sd.idx.setWidth 40 } := rfl
@[simp] theorem sdFail_inputs (sub : Byte) : (sdFail sub s).inputs = s.inputs := by
  simp [sdFail]

/-! What delivering a decoded frame leaves (R151, R153). -/

@[simp] theorem sdDeliver_ctl (frame prev : List Byte) : (sdDeliver frame prev s).ctl = s.ctl := rfl
@[simp] theorem sdDeliver_err (frame prev : List Byte) : (sdDeliver frame prev s).err = s.err := rfl
@[simp] theorem sdDeliver_fc (frame prev : List Byte) : (sdDeliver frame prev s).fc = s.fc := rfl
@[simp] theorem sdDeliver_rle (frame prev : List Byte) : (sdDeliver frame prev s).rle = s.rle := rfl
@[simp] theorem sdDeliver_rld (frame prev : List Byte) : (sdDeliver frame prev s).rld = s.rld := rfl
@[simp] theorem sdDeliver_se (frame prev : List Byte) : (sdDeliver frame prev s).se = s.se := rfl
@[simp] theorem sdDeliver_sd (frame prev : List Byte) :
    (sdDeliver frame prev s).sd =
      { s.sd with mode := .rlePair, phase := false, tally := 0#34, idx := satInc s.sd.idx, acc := [],
                  prev := bufPutFrom s.sd.prev 0 prev } := rfl
@[simp] theorem sdDeliver_out (frame prev : List Byte) :
    (sdDeliver frame prev s).out = s.out ++ beatsOf .sd frame := rfl
@[simp] theorem sdDeliver_rsp (frame prev : List Byte) : (sdDeliver frame prev s).rsp = s.rsp := rfl
@[simp] theorem sdDeliver_inputs (frame prev : List Byte) : (sdDeliver frame prev s).inputs = s.inputs := rfl

/-! The derived sizes depend on the control registers alone. -/

@[simp] theorem dimsOk_respond (code stage sub : Byte) (val : XWord) : dimsOk (respond code stage sub val s) = dimsOk s := by
  simp [dimsOk, frameW, frameH]
@[simp] theorem npix_respond (code stage sub : Byte) (val : XWord) : npix (respond code stage sub val s) = npix s := by
  simp [npix, frameW, frameH]
@[simp] theorem frameLen_respond (code stage sub : Byte) (val : XWord) : frameLen (respond code stage sub val s) = frameLen s := by
  simp [frameLen, frameW, frameH]
@[simp] theorem dimsSub_respond (code stage sub : Byte) (val : XWord) : dimsSub (respond code stage sub val s) = dimsSub s := by
  simp [dimsSub, frameW, frameH]
@[simp] theorem dimsOk_respondOk (val : XWord) : dimsOk (respondOk val s) = dimsOk s := by
  simp [dimsOk, frameW, frameH]
@[simp] theorem npix_respondOk (val : XWord) : npix (respondOk val s) = npix s := by
  simp [npix, frameW, frameH]
@[simp] theorem frameLen_respondOk (val : XWord) : frameLen (respondOk val s) = frameLen s := by
  simp [frameLen, frameW, frameH]
@[simp] theorem dimsSub_respondOk (val : XWord) : dimsSub (respondOk val s) = dimsSub s := by
  simp [dimsSub, frameW, frameH]
@[simp] theorem dimsOk_emit (src : UnitCode) (bytes : List Byte) : dimsOk (emit src bytes s) = dimsOk s := by
  simp [dimsOk, frameW, frameH]
@[simp] theorem npix_emit (src : UnitCode) (bytes : List Byte) : npix (emit src bytes s) = npix s := by
  simp [npix, frameW, frameH]
@[simp] theorem frameLen_emit (src : UnitCode) (bytes : List Byte) : frameLen (emit src bytes s) = frameLen s := by
  simp [frameLen, frameW, frameH]
@[simp] theorem dimsSub_emit (src : UnitCode) (bytes : List Byte) : dimsSub (emit src bytes s) = dimsSub s := by
  simp [dimsSub, frameW, frameH]
@[simp] theorem dimsOk_clearError : dimsOk (clearError s) = dimsOk s := by
  simp [dimsOk, frameW, frameH]
@[simp] theorem npix_clearError : npix (clearError s) = npix s := by
  simp [npix, frameW, frameH]
@[simp] theorem frameLen_clearError : frameLen (clearError s) = frameLen s := by
  simp [frameLen, frameW, frameH]
@[simp] theorem dimsSub_clearError : dimsSub (clearError s) = dimsSub s := by
  simp [dimsSub, frameW, frameH]
@[simp] theorem dimsOk_reinitFc : dimsOk (reinitFc s) = dimsOk s := by
  simp [dimsOk, frameW, frameH]
@[simp] theorem npix_reinitFc : npix (reinitFc s) = npix s := by
  simp [npix, frameW, frameH]
@[simp] theorem frameLen_reinitFc : frameLen (reinitFc s) = frameLen s := by
  simp [frameLen, frameW, frameH]
@[simp] theorem dimsSub_reinitFc : dimsSub (reinitFc s) = dimsSub s := by
  simp [dimsSub, frameW, frameH]
@[simp] theorem dimsOk_reinitRle : dimsOk (reinitRle s) = dimsOk s := by
  simp [dimsOk, frameW, frameH]
@[simp] theorem npix_reinitRle : npix (reinitRle s) = npix s := by
  simp [npix, frameW, frameH]
@[simp] theorem frameLen_reinitRle : frameLen (reinitRle s) = frameLen s := by
  simp [frameLen, frameW, frameH]
@[simp] theorem dimsSub_reinitRle : dimsSub (reinitRle s) = dimsSub s := by
  simp [dimsSub, frameW, frameH]
@[simp] theorem dimsOk_reinitRld : dimsOk (reinitRld s) = dimsOk s := by
  simp [dimsOk, frameW, frameH]
@[simp] theorem npix_reinitRld : npix (reinitRld s) = npix s := by
  simp [npix, frameW, frameH]
@[simp] theorem frameLen_reinitRld : frameLen (reinitRld s) = frameLen s := by
  simp [frameLen, frameW, frameH]
@[simp] theorem dimsSub_reinitRld : dimsSub (reinitRld s) = dimsSub s := by
  simp [dimsSub, frameW, frameH]
@[simp] theorem dimsOk_reinitSe : dimsOk (reinitSe s) = dimsOk s := by
  simp [dimsOk, frameW, frameH]
@[simp] theorem npix_reinitSe : npix (reinitSe s) = npix s := by
  simp [npix, frameW, frameH]
@[simp] theorem frameLen_reinitSe : frameLen (reinitSe s) = frameLen s := by
  simp [frameLen, frameW, frameH]
@[simp] theorem dimsSub_reinitSe : dimsSub (reinitSe s) = dimsSub s := by
  simp [dimsSub, frameW, frameH]
@[simp] theorem dimsOk_reinitSd : dimsOk (reinitSd s) = dimsOk s := by
  simp [dimsOk, frameW, frameH]
@[simp] theorem npix_reinitSd : npix (reinitSd s) = npix s := by
  simp [npix, frameW, frameH]
@[simp] theorem frameLen_reinitSd : frameLen (reinitSd s) = frameLen s := by
  simp [frameLen, frameW, frameH]
@[simp] theorem dimsSub_reinitSd : dimsSub (reinitSd s) = dimsSub s := by
  simp [dimsSub, frameW, frameH]
@[simp] theorem dimsOk_removeBeat : dimsOk (removeBeat s) = dimsOk s := by
  simp [dimsOk, frameW, frameH]
@[simp] theorem npix_removeBeat : npix (removeBeat s) = npix s := by
  simp [npix, frameW, frameH]
@[simp] theorem frameLen_removeBeat : frameLen (removeBeat s) = frameLen s := by
  simp [frameLen, frameW, frameH]
@[simp] theorem dimsSub_removeBeat : dimsSub (removeBeat s) = dimsSub s := by
  simp [dimsSub, frameW, frameH]
@[simp] theorem dimsOk_presentNext (w : Cmd) : dimsOk (presentNext w s) = dimsOk s := by
  simp [dimsOk, frameW, frameH]
@[simp] theorem npix_presentNext (w : Cmd) : npix (presentNext w s) = npix s := by
  simp [npix, frameW, frameH]
@[simp] theorem frameLen_presentNext (w : Cmd) : frameLen (presentNext w s) = frameLen s := by
  simp [frameLen, frameW, frameH]
@[simp] theorem dimsSub_presentNext (w : Cmd) : dimsSub (presentNext w s) = dimsSub s := by
  simp [dimsSub, frameW, frameH]
@[simp] theorem dimsOk_raise (e : ErrKind) (u : UnitCode) (sub : Byte) (i : Idx) : dimsOk (raise e u sub i s) = dimsOk s := by
  simp [dimsOk, frameW, frameH]
@[simp] theorem npix_raise (e : ErrKind) (u : UnitCode) (sub : Byte) (i : Idx) : npix (raise e u sub i s) = npix s := by
  simp [npix, frameW, frameH]
@[simp] theorem frameLen_raise (e : ErrKind) (u : UnitCode) (sub : Byte) (i : Idx) : frameLen (raise e u sub i s) = frameLen s := by
  simp [frameLen, frameW, frameH]
@[simp] theorem dimsSub_raise (e : ErrKind) (u : UnitCode) (sub : Byte) (i : Idx) : dimsSub (raise e u sub i s) = dimsSub s := by
  simp [dimsSub, frameW, frameH]
@[simp] theorem dimsOk_sdFail (sub : Byte) : dimsOk (sdFail sub s) = dimsOk s := by
  simp [dimsOk, frameW, frameH]
@[simp] theorem npix_sdFail (sub : Byte) : npix (sdFail sub s) = npix s := by
  simp [npix, frameW, frameH]
@[simp] theorem frameLen_sdFail (sub : Byte) : frameLen (sdFail sub s) = frameLen s := by
  simp [frameLen, frameW, frameH]
@[simp] theorem dimsSub_sdFail (sub : Byte) : dimsSub (sdFail sub s) = dimsSub s := by
  simp [dimsSub, frameW, frameH]
@[simp] theorem dimsOk_sdDeliver (frame prev : List Byte) : dimsOk (sdDeliver frame prev s) = dimsOk s := by
  simp [dimsOk, frameW, frameH]
@[simp] theorem npix_sdDeliver (frame prev : List Byte) : npix (sdDeliver frame prev s) = npix s := by
  simp [npix, frameW, frameH]
@[simp] theorem frameLen_sdDeliver (frame prev : List Byte) : frameLen (sdDeliver frame prev s) = frameLen s := by
  simp [frameLen, frameW, frameH]
@[simp] theorem dimsSub_sdDeliver (frame prev : List Byte) : dimsSub (sdDeliver frame prev s) = dimsSub s := by
  simp [dimsSub, frameW, frameH]

theorem dimsOk_congr (s t : State) (h : s.ctl = t.ctl) : dimsOk s = dimsOk t := by
  simp [dimsOk, frameW, frameH, h]
theorem npix_congr (s t : State) (h : s.ctl = t.ctl) : npix s = npix t := by
  simp [npix, frameW, frameH, h]
theorem frameLen_congr (s t : State) (h : s.ctl = t.ctl) : frameLen s = frameLen t := by
  simp [frameLen, frameW, frameH, h]
theorem dimsSub_congr (s t : State) (h : s.ctl = t.ctl) : dimsSub s = dimsSub t := by
  simp [dimsSub, frameW, frameH, h]

end Sys2Proof.Machine
end

