-- ==== Sys2Proof/Laws/Buffers.lean ====
section
/-! SUPPORT. What the buffer operations do: read after write, the canonical form, and when a read of many elements
succeeds. -/

namespace Sys2Proof.Machine

variable {α : Type}

@[simp] theorem bufGet_nil (i : Nat) : bufGet ([] : Memory α) i = none := rfl

@[simp] theorem bufGet_bufPut_same (m : Memory α) (i : Nat) (v : α) : bufGet (bufPut m i v) i = some v := by
  induction m with
  | nil => simp [bufPut, bufGet]
  | cons p rest ih =>
    obtain ⟨j, x⟩ := p
    unfold bufPut
    split
    · simp [bufGet]
    · split
      · simp [bufGet]
      · rename_i h
        simp [bufGet, h, ih]

theorem bufGet_bufPut_other (m : Memory α) {i a : Nat} (v : α) (h : a ≠ i) :
    bufGet (bufPut m i v) a = bufGet m a := by
  induction m with
  | nil => simp [bufPut, bufGet, h]
  | cons p rest ih =>
    obtain ⟨j, x⟩ := p
    unfold bufPut
    split
    · simp [bufGet, h]
    · split
      · rename_i hij
        subst hij
        simp [bufGet, h]
      · by_cases haj : a = j
        · simp [bufGet, haj]
        · simp [bufGet, haj, ih]

theorem bufGet_bufPut (m : Memory α) (i a : Nat) (v : α) :
    bufGet (bufPut m i v) a = if a = i then some v else bufGet m a := by
  split
  · rename_i h; subst h; simp
  · rename_i h; exact bufGet_bufPut_other m v h

/-- Every index of `bufPut m i v` is `i` or an index of `m`. -/
theorem mem_bufPut {m : Memory α} {i : Nat} {v : α} {p : Nat × α} (h : p ∈ bufPut m i v) :
    p.1 = i ∨ p ∈ m := by
  induction m with
  | nil => simp [bufPut] at h; simp [h]
  | cons q rest ih =>
    obtain ⟨j, x⟩ := q
    unfold bufPut at h
    split at h
    · simp only [List.mem_cons] at h ⊢
      rcases h with rfl | h | h <;> simp_all
    · split at h
      · simp only [List.mem_cons] at h ⊢
        rcases h with rfl | h <;> simp_all
      · simp only [List.mem_cons] at h ⊢
        rcases h with rfl | h
        · simp
        · rcases ih h with h | h <;> simp [h]

/-- A write keeps the canonical form. -/
theorem bufPut_wf {m : Memory α} (i : Nat) (v : α) (h : Memory.wf m) : Memory.wf (bufPut m i v) := by
  induction m with
  | nil => simp [bufPut]
  | cons q rest ih =>
    obtain ⟨j, x⟩ := q
    have hr := List.pairwise_cons.mp h
    unfold bufPut
    split
    · rename_i hij
      refine List.pairwise_cons.mpr ⟨?_, h⟩
      intro p hp
      rcases List.mem_cons.mp hp with rfl | hp
      · exact hij
      · exact Nat.lt_trans hij (hr.1 p hp)
    · split
      · rename_i hij
        subst hij
        exact List.pairwise_cons.mpr ⟨hr.1, hr.2⟩
      · rename_i h1 h2
        refine List.pairwise_cons.mpr ⟨?_, ih hr.2⟩
        intro p hp
        rcases mem_bufPut hp with h | h
        · simp only [h]; omega
        · exact hr.1 p h

theorem bufPutFrom_wf {m : Memory α} (k : Nat) (xs : List α) (h : Memory.wf m) :
    Memory.wf (bufPutFrom m k xs) := by
  induction xs generalizing m k with
  | nil => exact h
  | cons x xs ih => exact ih (k + 1) (bufPut_wf k x h)

/-- What an element reads as after a run of writes: the new value inside the run, the old one outside. -/
theorem bufGet_bufPutFrom (m : Memory α) (k : Nat) (xs : List α) (a : Nat) :
    bufGet (bufPutFrom m k xs) a = if k ≤ a ∧ a < k + xs.length then xs[a - k]? else bufGet m a := by
  induction xs generalizing m k with
  | nil =>
    simp [bufPutFrom]
  | cons x xs ih =>
    rw [bufPutFrom, ih, bufGet_bufPut]
    by_cases h1 : a = k
    · subst h1; simp
    · by_cases h2 : k ≤ a ∧ a < k + (x :: xs).length
      · have h3 : k + 1 ≤ a ∧ a < k + 1 + xs.length := by simp at h2; omega
        obtain ⟨d, rfl⟩ : ∃ d, a = k + 1 + d := ⟨a - (k + 1), by omega⟩
        have e1 : k + 1 + d - (k + 1) = d := by omega
        have e2 : k + 1 + d - k = d + 1 := by omega
        rw [if_pos h3, if_pos h2, e1, e2]
        simp
      · have h3 : ¬ (k + 1 ≤ a ∧ a < k + 1 + xs.length) := by simp at h2; omega
        rw [if_neg h3, if_neg h2, if_neg h1]

theorem writtenBelow_bufPutFrom (m : Memory α) (xs : List α) : writtenBelow (bufPutFrom m 0 xs) xs.length := by
  intro i hi
  rw [bufGet_bufPutFrom]
  simp [hi]

theorem writtenBelow_bufPut {m : Memory α} {n : Nat} (v : α) (h : writtenBelow m n) :
    writtenBelow (bufPut m n v) (n + 1) := by
  intro i hi
  rw [bufGet_bufPut]
  split
  · rfl
  · exact h i (by omega)

/-! Reads and writes with their checks. -/

/-- A read succeeds exactly on a written element inside the buffer, with that element. -/
theorem bufRead_ok_iff {b : BufId} {n : Nat} {m : Memory α} {i : Nat} {x : α} :
    bufRead b n m i = .ok x ↔ i < n ∧ bufGet m i = some x := by
  unfold bufRead
  split
  · rename_i h
    cases hg : bufGet m i with
    | none => simp
    | some y => simp [h]
  · rename_i h; simp [h]

/-- A write succeeds exactly inside the buffer. -/
theorem bufWrite_ok_iff {b : BufId} {n : Nat} {m m' : Memory α} {i : Nat} {v : α} :
    bufWrite b n m i v = .ok m' ↔ i < n ∧ m' = bufPut m i v := by
  unfold bufWrite
  split
  · rename_i h; simp [h, eq_comm]
  · rename_i h; simp [h]

/-- A loop of reads succeeds exactly when every read does, with their values in order. -/
theorem collect_ok_iff {f : Nat → Except Fault α} {k n : Nat} {xs : List α} :
    collect f k n = .ok xs ↔ xs.length = n ∧ ∀ i (h : i < xs.length), f (k + i) = .ok xs[i] := by
  induction n generalizing k xs with
  | zero =>
    simp only [collect, Except.ok.injEq]
    constructor
    · rintro rfl; simp
    · rintro ⟨h, -⟩; exact (List.length_eq_zero_iff.mp h).symm
  | succ n ih =>
    unfold collect
    cases hf : f k with
    | error e =>
      simp only [reduceCtorEq, false_iff, not_and]
      intro hl hall
      have := hall 0 (by omega)
      simp [hf] at this
    | ok x =>
      cases hc : collect f (k + 1) n with
      | error e =>
        simp only [reduceCtorEq, false_iff, not_and]
        intro hl hall
        cases xs with
        | nil => simp at hl
        | cons y ys =>
          have : collect f (k + 1) n = .ok ys := by
            refine ih.mpr ⟨by simpa using hl, ?_⟩
            intro i hi
            have := hall (i + 1) (by simpa using hi)
            simpa [Nat.add_assoc, Nat.add_comm 1 i] using this
          simp [hc] at this
      | ok ys =>
        have hy := ih.mp hc
        simp only [Except.ok.injEq]
        constructor
        · rintro rfl
          refine ⟨by simp [hy.1], ?_⟩
          intro i hi
          cases i with
          | zero => simpa using hf
          | succ i =>
            have := hy.2 i (by simpa using hi)
            simpa [Nat.add_assoc, Nat.add_comm 1 i] using this
        · rintro ⟨hl, hall⟩
          cases xs with
          | nil => simp at hl
          | cons z zs =>
            have h0 := hall 0 (by simp)
            simp only [Nat.add_zero, hf, List.getElem_cons_zero, Except.ok.injEq] at h0
            have hz : collect f (k + 1) n = .ok zs := by
              refine ih.mpr ⟨by simpa using hl, ?_⟩
              intro i hi
              have := hall (i + 1) (by simpa using hi)
              simpa [Nat.add_assoc, Nat.add_comm 1 i] using this
            rw [hc] at hz
            simp only [Except.ok.injEq] at hz
            rw [h0, hz]

/-- A loop of reads that all succeed succeeds. -/
theorem collect_total {f : Nat → Except Fault α} {k n : Nat} (h : ∀ i, i < n → ∃ x, f (k + i) = .ok x) :
    ∃ xs, collect f k n = .ok xs := by
  induction n generalizing k with
  | zero => exact ⟨[], rfl⟩
  | succ n ih =>
    obtain ⟨x, hx⟩ := h 0 (by omega)
    obtain ⟨xs, hxs⟩ := ih (k := k + 1) (fun i hi => by
      obtain ⟨y, hy⟩ := h (i + 1) (by omega)
      exact ⟨y, by rw [← hy]; congr 1; omega⟩)
    rw [Nat.add_zero] at hx
    exact ⟨x :: xs, by simp [collect, hx, hxs]⟩

/-- Reading a whole buffer succeeds exactly when every element is written. -/
theorem bufReadAll_ok_iff {b : BufId} {n : Nat} {m : Memory α} {xs : List α} :
    bufReadAll b n m = .ok xs ↔ xs.length = n ∧ ∀ i, i < n → bufGet m i = xs[i]? := by
  unfold bufReadAll
  rw [collect_ok_iff]
  constructor
  · rintro ⟨hl, hall⟩
    refine ⟨hl, fun i hi => ?_⟩
    have := bufRead_ok_iff.mp (hall i (by omega))
    rw [Nat.zero_add] at this
    rw [this.2, List.getElem?_eq_getElem]
  · rintro ⟨hl, hall⟩
    refine ⟨hl, fun i hi => ?_⟩
    rw [bufRead_ok_iff, Nat.zero_add]
    exact ⟨by omega, by rw [hall i (by omega), List.getElem?_eq_getElem hi]⟩

theorem bufReadAll_total {b : BufId} {n : Nat} {m : Memory α} (h : writtenBelow m n) :
    ∃ xs, bufReadAll b n m = .ok xs := by
  refine collect_total fun i hi => ?_
  obtain ⟨x, hx⟩ := Option.isSome_iff_exists.mp (h i hi)
  exact ⟨x, by rw [Nat.zero_add]; exact bufRead_ok_iff.mpr ⟨hi, hx⟩⟩

/-- What was put into a buffer from index 0 is what reading the buffer gives. -/
theorem bufReadAll_bufPutFrom {b : BufId} (m : Memory α) (xs : List α) :
    bufReadAll b xs.length (bufPutFrom m 0 xs) = .ok xs := by
  rw [bufReadAll_ok_iff]
  refine ⟨rfl, fun i hi => ?_⟩
  rw [bufGet_bufPutFrom]
  simp [hi]

/-- Reading the first `n` elements of a sequence. -/
theorem collect_seqRead_ok_iff {b : BufId} {ys xs : List α} {n : Nat} :
    collect (seqRead b ys) 0 n = .ok xs ↔ n ≤ ys.length ∧ xs = ys.take n := by
  rw [collect_ok_iff]
  have hs : ∀ i x, seqRead b ys i = .ok x ↔ ys[i]? = some x := by
    intro i x
    unfold seqRead
    cases ys[i]? <;> simp
  constructor
  · rintro ⟨rfl, hall⟩
    have hle : xs.length ≤ ys.length := by
      rcases Nat.eq_zero_or_pos xs.length with h0 | h0
      · omega
      · have := (hs _ _).mp (hall (xs.length - 1) (by omega))
        have := (List.getElem?_eq_some_iff.mp this).1
        omega
    refine ⟨hle, List.ext_getElem (by simp [hle]) fun i h1 h2 => ?_⟩
    have := (hs _ _).mp (hall i h1)
    rw [Nat.zero_add] at this
    obtain ⟨h3, h4⟩ := List.getElem?_eq_some_iff.mp this
    simp [h4]
  · rintro ⟨hle, rfl⟩
    refine ⟨by simp [hle], fun i hi => ?_⟩
    rw [Nat.zero_add, hs]
    simp [List.getElem?_eq_getElem (show i < ys.length by simp at hi; omega)]

/-- Right after reset every buffer is in canonical form. -/
theorem reset_buffersWf : BuffersWf State.reset := by
  constructor <;> exact List.Pairwise.nil

end Sys2Proof.Machine
end

