-- ==== Sys2Proof/Laws/Decode.lean ====
section
/-! SUPPORT. The fields of an encoded word (30_encoding.md rules R60, R61): what each field function reads from
`cmdWord` and from the operand layouts. -/

namespace Sys2Proof

/-- The bits of a word built from its fields. -/
theorem cmdWord_getLsbD (op cr : Byte) (imm : XWord) (i : Nat) :
    (cmdWord op cr imm).getLsbD i =
      (if i < 40 then imm.getLsbD i else if i < 48 then false else if i < 56 then cr.getLsbD (i - 48)
       else op.getLsbD (i - 56)) := by
  unfold cmdWord
  simp only [BitVec.getLsbD_or, BitVec.getLsbD_shiftLeft, BitVec.getLsbD_setWidth]
  have himm : 40 ≤ i → imm.getLsbD i = false := fun h => BitVec.getLsbD_of_ge imm i h
  have hcr : 56 ≤ i → cr.getLsbD (i - 48) = false := fun h => BitVec.getLsbD_of_ge cr _ (by omega)
  have hop : 64 ≤ i → op.getLsbD (i - 56) = false := fun h => BitVec.getLsbD_of_ge op _ (by omega)
  by_cases h1 : i < 40
  · simp [h1, show i < 56 by omega, show i < 48 by omega, show i < 64 by omega]
  · have h1' := himm (by omega)
    by_cases h2 : i < 48
    · simp [h1, h2, h1', show i < 56 by omega]
    · by_cases h3 : i < 56
      · simp [h1, h2, h3, h1', show i < 64 by omega, show i - 48 < 64 by omega]
      · have h3' := hcr (by omega)
        by_cases h4 : i < 64
        · simp [h1, h2, h3, h4, h1', h3', show i - 56 < 64 by omega]
        · simp [h1, h2, h3, h4, h1', hop (by omega)]

@[simp] theorem cmdOp_cmdWord (op cr : Byte) (imm : XWord) : cmdOp (cmdWord op cr imm) = op := by
  apply BitVec.eq_of_getLsbD_eq
  intro i hi
  simp [cmdOp, cmdWord_getLsbD, hi, show ¬ (56 + i < 40) by omega, show ¬ (56 + i < 48) by omega]

@[simp] theorem cmdCr_cmdWord (op cr : Byte) (imm : XWord) : cmdCr (cmdWord op cr imm) = cr := by
  apply BitVec.eq_of_getLsbD_eq
  intro i hi
  simp [cmdCr, cmdWord_getLsbD, hi, show 48 + i < 56 by omega, show ¬ (48 + i < 40) by omega]

@[simp] theorem cmdRsv_cmdWord (op cr : Byte) (imm : XWord) : cmdRsv (cmdWord op cr imm) = 0#8 := by
  apply BitVec.eq_of_getLsbD_eq
  intro i hi
  simp [cmdRsv, cmdWord_getLsbD, show 40 + i < 48 by omega]

@[simp] theorem cmdImm_cmdWord (op cr : Byte) (imm : XWord) : cmdImm (cmdWord op cr imm) = imm := by
  apply BitVec.eq_of_getLsbD_eq
  intro i hi
  simp [cmdImm, cmdWord_getLsbD, hi]

/-- A field of `imm` read from the word is read from `imm`. -/
theorem extract_cmdWord (op cr : Byte) (imm : XWord) (k n : Nat) (h : k + n ≤ 40) :
    (cmdWord op cr imm).extractLsb' k n = imm.extractLsb' k n := by
  apply BitVec.eq_of_getLsbD_eq
  intro i hi
  simp [cmdWord_getLsbD, hi, show k + i < 40 by omega]

@[simp] theorem immLow_cmdWord (op cr : Byte) (imm : XWord) :
    immLow (cmdWord op cr imm) = imm.extractLsb' 0 8 := extract_cmdWord op cr imm 0 8 (by omega)
@[simp] theorem immMid_cmdWord (op cr : Byte) (imm : XWord) :
    immMid (cmdWord op cr imm) = imm.extractLsb' 8 8 := extract_cmdWord op cr imm 8 8 (by omega)
@[simp] theorem immHigh_cmdWord (op cr : Byte) (imm : XWord) :
    immHigh (cmdWord op cr imm) = imm.extractLsb' 16 8 := extract_cmdWord op cr imm 16 8 (by omega)

/-- The bits of the three-byte layout; the shorter layouts have zero bytes above. -/
theorem immP_getLsbD (r g b : Byte) (i : Nat) :
    (immP r g b).getLsbD i =
      (if i < 8 then b.getLsbD i else if i < 16 then g.getLsbD (i - 8) else r.getLsbD (i - 16)) := by
  unfold immP
  simp only [BitVec.getLsbD_or, BitVec.getLsbD_shiftLeft, BitVec.getLsbD_setWidth]
  have hb : 8 ≤ i → b.getLsbD i = false := fun h => BitVec.getLsbD_of_ge b i h
  have hg : 16 ≤ i → g.getLsbD (i - 8) = false := fun h => BitVec.getLsbD_of_ge g _ (by omega)
  have hr : 24 ≤ i → r.getLsbD (i - 16) = false := fun h => BitVec.getLsbD_of_ge r _ (by omega)
  by_cases h1 : i < 8
  · simp [h1, show i < 16 by omega, show i < 40 by omega]
  · have h1' := hb (by omega)
    by_cases h2 : i < 16
    · simp [h1, h2, h1', show i < 40 by omega, show i - 8 < 40 by omega]
    · have h2' := hg (by omega)
      by_cases h3 : i < 24
      · simp [h1, h2, h1', h2', show i < 40 by omega, show i - 16 < 40 by omega]
      · simp [h1, h2, h1', h2', hr (by omega)]

theorem immW_eq_immP (a b : Byte) : immW a b = immP 0#8 a b := by
  unfold immW immP
  simp

theorem immB_eq_immP (b : Byte) : immB b = immP 0#8 0#8 b := by
  unfold immB immP
  simp

@[simp] theorem immP_low (r g b : Byte) : (immP r g b).extractLsb' 0 8 = b := by
  apply BitVec.eq_of_getLsbD_eq
  intro i hi
  simp [immP_getLsbD, hi]

@[simp] theorem immP_mid (r g b : Byte) : (immP r g b).extractLsb' 8 8 = g := by
  apply BitVec.eq_of_getLsbD_eq
  intro i hi
  simp [immP_getLsbD, hi, show 8 + i < 16 by omega]

@[simp] theorem immP_high (r g b : Byte) : (immP r g b).extractLsb' 16 8 = r := by
  apply BitVec.eq_of_getLsbD_eq
  intro i hi
  simp [immP_getLsbD, hi, show ¬ (16 + i < 8) by omega]

@[simp] theorem immP_above (r g b : Byte) : (immP r g b).extractLsb' 24 16 = 0#16 := by
  apply BitVec.eq_of_getLsbD_eq
  intro i hi
  simp [immP_getLsbD, show ¬ (24 + i < 8) by omega, show ¬ (24 + i < 16) by omega]
  exact fun _ => BitVec.getLsbD_of_ge r _ (by omega)

@[simp] theorem immP_above_mid (g b : Byte) : (immP 0#8 g b).extractLsb' 16 24 = 0#24 := by
  apply BitVec.eq_of_getLsbD_eq
  intro i hi
  simp [immP_getLsbD, show ¬ (16 + i < 8) by omega]

@[simp] theorem immP_above_low (b : Byte) : (immP 0#8 0#8 b).extractLsb' 8 32 = 0#32 := by
  apply BitVec.eq_of_getLsbD_eq
  intro i hi
  simp [immP_getLsbD]

end Sys2Proof
end

