-- ==== Sys2Proof/Laws/Geometry.lean ====
section
/-! SUPPORT. What legal dimensions give: the plane sizes of 00_scope.md rule R4 as exact products, and their bounds. -/

namespace Sys2Proof.Machine

theorem dimsLegal_iff (w h : Nat) :
    dimsLegal w h = true ↔ w ≠ 0 ∧ h ≠ 0 ∧ w % 2 = 0 ∧ h % 2 = 0 ∧ lenOf w h ≤ 6442057734 := by
  unfold dimsLegal
  rw [Config.params_lMax]
  simp only [Bool.and_eq_true, bne_iff_ne, beq_iff_eq, decide_eq_true_eq, and_assoc]

/-- Legal sizes are twice a cell grid: NPIX = 4ab, NC = ab, L = 6ab. -/
theorem sizes_of_legal {w h : Nat} (hl : dimsLegal w h = true) :
    ∃ a b, 0 < a ∧ 0 < b ∧ w = 2 * a ∧ h = 2 * b ∧ npixOf w h = 4 * (a * b) ∧ ncOf w h = a * b ∧
      lenOf w h = 6 * (a * b) := by
  obtain ⟨h1, h2, h3, h4, -⟩ := (dimsLegal_iff w h).mp hl
  refine ⟨w / 2, h / 2, by omega, by omega, by omega, by omega, ?_⟩
  obtain ⟨a, rfl⟩ : ∃ a, w = 2 * a := ⟨w / 2, by omega⟩
  obtain ⟨b, rfl⟩ : ∃ b, h = 2 * b := ⟨h / 2, by omega⟩
  have e1 : 2 * a / 2 = a := by omega
  have e2 : 2 * b / 2 = b := by omega
  have m1 : 2 * a * (2 * b) = 4 * (a * b) := by ring
  have m2 : 3 * (2 * a) * (2 * b) = 12 * (a * b) := by ring
  simp only [npixOf, ncOf, lenOf, e1, e2, m1, m2]
  refine ⟨trivial, ?_, ?_⟩ <;> omega

theorem npixOf_pos {w h : Nat} (hl : dimsLegal w h = true) : 0 < npixOf w h := by
  obtain ⟨a, b, ha, hb, -, -, hn, -⟩ := sizes_of_legal hl
  have := Nat.mul_pos ha hb
  omega

/-- `L = NPIX + 2*NC` (R4, R43). -/
theorem lenOf_eq {w h : Nat} (hl : dimsLegal w h = true) : lenOf w h = npixOf w h + 2 * ncOf w h := by
  obtain ⟨a, b, -, -, -, -, hn, hc, hL⟩ := sizes_of_legal hl
  omega

/-- An RGB24 frame is twice as long as its YUV420 frame (R4: 3 and 1.5 bytes a pixel). -/
theorem rgbLenOf_eq {w h : Nat} (hl : dimsLegal w h = true) : rgbLenOf w h = 2 * lenOf w h := by
  obtain ⟨a, b, -, -, -, -, hn, -, hL⟩ := sizes_of_legal hl
  simp only [rgbLenOf]
  omega

theorem lenOf_lt {w h : Nat} (hl : dimsLegal w h = true) : lenOf w h < 2 ^ 33 := by
  have := ((dimsLegal_iff w h).mp hl).2.2.2.2
  omega

theorem lenOf_ge {w h : Nat} (hl : dimsLegal w h = true) : 6 ≤ lenOf w h := by
  obtain ⟨a, b, ha, hb, -, -, -, -, hL⟩ := sizes_of_legal hl
  have := Nat.mul_pos ha hb
  omega

theorem frameLen_lt {s : State} (h : dimsOk s = true) : frameLen s < 2 ^ 33 := lenOf_lt h
theorem frameLen_ge {s : State} (h : dimsOk s = true) : 6 ≤ frameLen s := lenOf_ge h

theorem rgbLen_lt {s : State} (h : dimsOk s = true) : rgbLen s < 2 ^ 34 := by
  have h1 := lenOf_lt h
  have h2 := rgbLenOf_eq h
  simp only [rgbLen]
  omega

theorem npix_lt {s : State} (h : dimsOk s = true) : npix s < 2 ^ 33 := by
  have h1 := lenOf_lt h
  have h2 := lenOf_eq h
  simp only [npix]
  omega

/-- The four pixels of a chroma cell are pixels of the frame (R41, R54). -/
theorem cell_in_frame {a b cx cy : Nat} (hx : cx < a) (hy : cy < b) :
    (2 * cy) * (2 * a) + 2 * cx + 2 * a + 1 < 4 * (a * b) := by
  have h1 : cy * a + a ≤ b * a := by
    have := Nat.mul_le_mul_right a (show cy + 1 ≤ b by omega)
    rw [Nat.add_mul] at this
    omega
  have h2 : (2 * cy) * (2 * a) = 4 * (cy * a) := by ring
  have h3 : a * b = b * a := Nat.mul_comm a b
  rw [h2, h3]
  omega

end Sys2Proof.Machine
end

