-- ==== Sys2Proof/Laws/Output.lean ====
section
/-! SUPPORT. What `emit` puts on OUT (30_encoding.md rule R63). -/

namespace Sys2Proof.Machine

@[simp] theorem beatsOf_nil (src : UnitCode) : beatsOf src [] = [] := rfl

@[simp] theorem beatsOf_length (src : UnitCode) (bs : List Byte) : (beatsOf src bs).length = bs.length := by
  induction bs with
  | nil => rfl
  | cons b bs ih => cases bs <;> simp_all [beatsOf]

@[simp] theorem beatsOf_data (src : UnitCode) (bs : List Byte) : (beatsOf src bs).map (·.data) = bs := by
  induction bs with
  | nil => rfl
  | cons b bs ih => cases bs <;> simp_all [beatsOf]

theorem beatsOf_src {src : UnitCode} {bs : List Byte} {x : Beat} (h : x ∈ beatsOf src bs) : x.src = src := by
  induction bs with
  | nil => simp at h
  | cons b bs ih =>
    cases bs with
    | nil => simp [beatsOf] at h; simp [h]
    | cons b' bs =>
      simp only [beatsOf, List.mem_cons] at h
      rcases h with rfl | h
      · rfl
      · exact ih h

/-- `last` is set on the final beat and on no other. -/
theorem beatsOf_append_last (src : UnitCode) (bs : List Byte) (b : Byte) :
    beatsOf src (bs ++ [b]) =
      bs.map (fun d => { src := src, last := false, data := d }) ++ [{ src := src, last := true, data := b }] := by
  induction bs with
  | nil => rfl
  | cons c bs ih => cases bs <;> simp_all [beatsOf]

end Sys2Proof.Machine
end

