-- ==== Sys2Proof/Laws/Units.lean ====
section
/-! SUPPORT. One lemma per shared operation of the units that says once everything it can do: if it answers a state,
then which. Proofs cite these in place of unfolding the operation. -/

namespace Sys2Proof.Machine

/-- `raise` in the numbers of R190. -/
theorem raise_eq_raised (e : ErrKind) (u : UnitCode) (sub : Byte) (i : Idx) (s : State) :
    raise e u sub i s = raised (errCode e) (unitNumber u) sub i s := by
  unfold raise raised latchError respond
  split <;> rfl

theorem satInc_toNat (v : Idx) : (satInc v).toNat = min (v.toNat + 1) (2 ^ 32 - 1) := by
  unfold satInc
  rw [BitVec.toNat_ofNat]
  exact Nat.mod_eq_of_lt (by omega)

theorem satInc_ne_zero (v : Idx) : satInc v ≠ 0#32 := by
  intro h
  have := satInc_toNat v
  rw [h] at this
  simp at this
  omega

/-- A position below the frame's end moves on without wrapping. -/
theorem len_add_one_toNat (p : Len) (h : p.toNat + 1 < 2 ^ 34) : (p + 1#34).toNat = p.toNat + 1 := by
  rw [BitVec.toNat_add]
  exact Nat.mod_eq_of_lt h

theorem len_add_byte_toNat (p : Len) (c : Byte) (h : p.toNat + c.toNat < 2 ^ 34) :
    (p + c.setWidth 34).toNat = p.toNat + c.toNat := by
  rw [BitVec.toNat_add, BitVec.toNat_setWidth, Nat.mod_eq_of_lt (show c.toNat < 2 ^ 34 by omega)]
  exact Nat.mod_eq_of_lt h

theorem dimsSub_mem (s : State) : dimsSub s = 1#8 ∨ dimsSub s = 2#8 ∨ dimsSub s = 3#8 := by
  unfold dimsSub dimsSubOf
  split
  · simp
  · split <;> simp

/-! Unit SE. -/

/-- What `se_frame` answers: the whole frame read, its bytes emitted, the frame kept as the previous one (R133). -/
theorem seFrame_ok_iff {s t : State} :
    seFrame s = .ok t ↔
      ∃ cur bytes, bufReadAll .seCur (frameLen s) s.se.cur = .ok cur ∧
        seFrameBytes (frameLen s) s.se cur = .ok bytes ∧
        t = { s with
              se := { first := false, pos := 0#34, idx := satInc s.se.idx, cur := s.se.cur,
                      prev := bufPutFrom s.se.prev 0 cur }
              out := s.out ++ beatsOf .se bytes } := by
  unfold seFrame
  cases h1 : bufReadAll .seCur (frameLen s) s.se.cur with
  | error e => simp
  | ok cur =>
    cases h2 : seFrameBytes (frameLen s) s.se cur with
    | error e => simp [h2]
    | ok bytes =>
      simp only [h2, Except.ok.injEq, exists_and_left, exists_eq_left']
      exact eq_comm

theorem seFrameBytes_ok_iff {n : Nat} {se : SeUnit} {cur bytes : List Byte} :
    seFrameBytes n se cur = .ok bytes ↔
      (se.first = true ∧ bytes = cur) ∨
      (se.first = false ∧ ∃ prev, bufReadAll .sePrev n se.prev = .ok prev ∧
        bytes = rleEncode (List.zipWith deltaEnc cur prev)) := by
  unfold seFrameBytes
  cases hf : se.first with
  | true => simp [eq_comm]
  | false =>
    cases h : bufReadAll .sePrev n se.prev with
    | error e => simp
    | ok prev => simp [eq_comm]

/-- What `se_push` answers: the byte stored and the position moved on, or the frame completed (R132). -/
theorem sePushByte_ok_iff {b : Byte} {s t : State} :
    sePushByte b s = .ok t ↔
      s.se.pos.toNat < frameLen s ∧
      ((s.se.pos.toNat + 1 < frameLen s ∧
          t = { s with se := { s.se with cur := bufPut s.se.cur s.se.pos.toNat b, pos := s.se.pos + 1#34 } }) ∨
       (s.se.pos.toNat + 1 = frameLen s ∧
          seFrame { s with se := { s.se with cur := bufPut s.se.cur s.se.pos.toNat b } } = .ok t)) := by
  unfold sePushByte bufWrite
  by_cases h : s.se.pos.toNat < frameLen s
  · simp only [h, if_true, true_and]
    by_cases h2 : s.se.pos.toNat + 1 < frameLen s
    · have h3 : ¬ s.se.pos.toNat + 1 = frameLen s := by omega
      simp only [h2, if_true, true_and, h3, false_and, or_false, Except.ok.injEq]
      exact eq_comm
    · have h3 : s.se.pos.toNat + 1 = frameLen s := by omega
      rw [if_neg h2, eq_true h3]
      simp only [h2, false_and, false_or, true_and]
  · simp [h]

/-- `se_push` leaves everything but unit SE and OUT. -/
theorem sePushByte_frame {b : Byte} {s t : State} (h : sePushByte b s = .ok t) :
    ∃ bs, t = { s with se := t.se, out := s.out ++ bs } ∧ ∀ x ∈ bs, x.src = .se := by
  obtain ⟨-, ⟨-, rfl⟩ | ⟨-, h⟩⟩ := sePushByte_ok_iff.mp h
  · exact ⟨[], by simp, by simp⟩
  · obtain ⟨cur, bytes, -, -, rfl⟩ := seFrame_ok_iff.mp h
    exact ⟨beatsOf .se bytes, rfl, fun x hx => beatsOf_src hx⟩

theorem sePushAll_frame {bs : List Byte} {s t : State} (h : sePushAll bs s = .ok t) :
    ∃ out, t = { s with se := t.se, out := s.out ++ out } ∧ ∀ x ∈ out, x.src = .se := by
  induction bs generalizing s with
  | nil => cases h; exact ⟨[], by simp, by simp⟩
  | cons b bs ih =>
    unfold sePushAll at h
    cases h1 : sePushByte b s with
    | error e => simp [h1] at h
    | ok s' =>
      rw [h1] at h
      obtain ⟨o1, e1, m1⟩ := sePushByte_frame h1
      obtain ⟨o2, e2, m2⟩ := ih h
      refine ⟨o1 ++ o2, ?_, fun x hx => (List.mem_append.mp hx).elim (m1 x) (m2 x)⟩
      rw [e2, e1]
      simp

/-! Unit FC. -/

/-- What storing a pixel answers (R87). -/
theorem fcStore_ok_iff {r g b : Byte} {s t : State} :
    fcStore r g b s = .ok t ↔ s.fc.pos.toNat < npix s ∧ t = { s with fc := fcStored r g b s.fc } := by
  unfold fcStore bufWrite fcStored
  by_cases h : s.fc.pos.toNat < npix s
  · simp only [h, if_true, true_and, Except.ok.injEq]
    exact eq_comm
  · simp [h]

theorem fcDeliver_frame {frame : List Byte} {s t : State} (h : fcDeliver frame s = .ok t) :
    ∃ bs, t = { s with se := t.se, out := s.out ++ bs } ∧ (∀ x ∈ bs, x.src ≠ .sys) ∧
      (s.ctl.chain = false → t.se = s.se) := by
  unfold fcDeliver at h
  split at h
  · rename_i hc
    obtain ⟨bs, e, m⟩ := sePushAll_frame h
    exact ⟨bs, e, fun x hx => by simp [m x hx], by simp [hc]⟩
  · cases h
    exact ⟨beatsOf .fc frame, rfl, fun x hx => by simp [beatsOf_src hx], fun _ => rfl⟩

/-- What completing a frame answers: the packed frame delivered, the position at 0, the index one higher (R87, R88). -/
theorem fcFrame_ok_iff {s t : State} :
    fcFrame s = .ok t ↔
      ∃ frame, fcPack (frameW s) (frameH s) s.fc = .ok frame ∧
        fcDeliver frame { s with fc := { s.fc with pos := 0#34, idx := satInc s.fc.idx } } = .ok t := by
  unfold fcFrame
  cases h : fcPack (frameW s) (frameH s) s.fc <;> simp

/-- What FC.PIX's body answers: the pixel stored and the position moved on, or the frame completed (R87). -/
theorem fcPixel_ok_iff {r g b : Byte} {s t : State} :
    fcPixel r g b s = .ok t ↔
      s.fc.pos.toNat < npix s ∧
      ((s.fc.pos.toNat + 1 < npix s ∧
          t = { s with fc := { fcStored r g b s.fc with pos := s.fc.pos + 1#34 } }) ∨
       (s.fc.pos.toNat + 1 = npix s ∧
          ∃ frame, fcPack (frameW s) (frameH s) (fcStored r g b s.fc) = .ok frame ∧
            fcDeliver frame { s with fc := fcDone r g b s.fc } = .ok t)) := by
  unfold fcPixel
  cases h1 : fcStore r g b s with
  | error e =>
    simp only [reduceCtorEq, false_iff, not_and]
    intro h
    have := (fcStore_ok_iff (r := r) (g := g) (b := b) (s := s)).mpr ⟨h, rfl⟩
    simp [h1] at this
  | ok s1 =>
    obtain ⟨h, rfl⟩ := fcStore_ok_iff.mp h1
    simp only [h, true_and]
    by_cases h2 : s.fc.pos.toNat + 1 < npix s
    · have h3 : ¬ s.fc.pos.toNat + 1 = npix s := by omega
      simp only [h2, if_true, true_and, h3, false_and, or_false, Except.ok.injEq]
      exact eq_comm
    · have h3 : s.fc.pos.toNat + 1 = npix s := by omega
      rw [if_neg h2, fcFrame_ok_iff, eq_true h3]
      simp only [h2, false_and, false_or, true_and]
      exact Iff.rfl

theorem chromaCell_ok_iff {b : BufId} {n w : Nat} {m : Memory Chroma} {cy cx : Nat} {x : Byte} :
    chromaCell b n w m cy cx = .ok x ↔
      ∃ p00 p10 p01 p11,
        bufRead b n m (2 * cy * w + 2 * cx) = .ok p00 ∧ bufRead b n m (2 * cy * w + 2 * cx + 1) = .ok p10 ∧
        bufRead b n m (2 * cy * w + 2 * cx + w) = .ok p01 ∧ bufRead b n m (2 * cy * w + 2 * cx + w + 1) = .ok p11 ∧
        x = cssAvg p00.toNat p10.toNat p01.toNat p11.toNat := by
  unfold chromaCell
  cases h1 : bufRead b n m (2 * cy * w + 2 * cx) with
  | error e => simp [h1]
  | ok p00 =>
    cases h2 : bufRead b n m (2 * cy * w + 2 * cx + 1) with
    | error e => simp [h1, h2]
    | ok p10 =>
      cases h3 : bufRead b n m (2 * cy * w + 2 * cx + w) with
      | error e => simp [h1, h2, h3]
      | ok p01 =>
        cases h4 : bufRead b n m (2 * cy * w + 2 * cx + w + 1) with
        | error e => simp [h1, h2, h3, h4]
        | ok p11 => simp [h1, h2, h3, h4, eq_comm]

theorem fcPack_ok_iff {w h : Nat} {fc : FcUnit} {frame : List Byte} :
    fcPack w h fc = .ok frame ↔
      ∃ y u v, bufReadAll .fcY (npixOf w h) fc.y = .ok y ∧ chromaPlane .fcU w h fc.u = .ok u ∧
        chromaPlane .fcV w h fc.v = .ok v ∧ frame = y ++ u ++ v := by
  unfold fcPack
  cases h1 : bufReadAll .fcY (npixOf w h) fc.y with
  | error e => simp
  | ok y =>
    cases h2 : chromaPlane .fcU w h fc.u with
    | error e => simp
    | ok u =>
      cases h3 : chromaPlane .fcV w h fc.v with
      | error e => simp
      | ok v => simp [eq_comm]

/-! Unit SD. -/

/-- What a byte of frame 0 answers (R151). -/
theorem sdRaw_ok_iff {b : Byte} {s t : State} :
    sdRaw b s = .ok t ↔
      ((s.sd.tally + 1#34).toNat ≠ frameLen s ∧
        t = respondOk 0#40 { s with sd := { s.sd with acc := s.sd.acc ++ [b], tally := s.sd.tally + 1#34 } }) ∨
      ((s.sd.tally + 1#34).toNat = frameLen s ∧ frameLen s ≤ (s.sd.acc ++ [b]).length ∧
        t = respondOk 0#40 (sdDeliver (s.sd.acc ++ [b]) ((s.sd.acc ++ [b]).take (frameLen s)) s)) := by
  unfold sdRaw
  by_cases h : (s.sd.tally + 1#34).toNat = frameLen s
  · simp only [h, if_true, ne_eq, not_true_eq_false, false_and, false_or, true_and]
    cases hc : collect (seqRead .sdAcc (s.sd.acc ++ [b])) 0 (frameLen s) with
    | error e =>
      simp only [reduceCtorEq, false_iff, not_and]
      intro hle
      have := (collect_seqRead_ok_iff (b := .sdAcc) (n := frameLen s)).mpr ⟨hle, rfl⟩
      rw [hc] at this
      simp at this
    | ok kept =>
      obtain ⟨hle, rfl⟩ := collect_seqRead_ok_iff.mp hc
      simp only [Except.ok.injEq, hle, true_and]
      exact eq_comm
  · simp only [h, if_false, ne_eq, not_false_eq_true, true_and, false_and, or_false, Except.ok.injEq]
    exact eq_comm

/-- What completing a delta frame reads (R153). -/
theorem sdFrame_ok_iff {n : Nat} {acc : List Byte} {prev : Memory Byte} {frame : List Byte} :
    sdFrame n acc prev = .ok frame ↔
      (expandPairs (pairsOf acc)).length = n ∧
      ∃ p, bufReadAll .sdPrev n prev = .ok p ∧ frame = List.zipWith deltaDec (expandPairs (pairsOf acc)) p := by
  unfold sdFrame rleDecode
  by_cases h : (expandPairs (pairsOf acc)).length = n
  · simp only [h, if_true, true_and]
    cases h2 : bufReadAll .sdPrev n prev with
    | error e => simp
    | ok p => simp [eq_comm]
  · simp [h]

/-- What a value byte answers (R153). -/
theorem sdValue_ok_iff {v : Byte} {s t : State} :
    sdValue v s = .ok t ↔
      (s.sd.tally.toNat ≠ frameLen s ∧
        t = respondOk 0#40 { s with sd := { s.sd with acc := s.sd.acc ++ [v], phase := false } }) ∨
      (s.sd.tally.toNat = frameLen s ∧
        ∃ frame, sdFrame (frameLen s) (s.sd.acc ++ [v]) s.sd.prev = .ok frame ∧
          t = respondOk 0#40 (sdDeliver frame frame s)) := by
  unfold sdValue
  by_cases h : s.sd.tally.toNat = frameLen s
  · simp only [h, if_true, ne_eq, not_true_eq_false, false_and, false_or, true_and]
    cases h2 : sdFrame (frameLen s) (s.sd.acc ++ [v]) s.sd.prev with
    | error e => simp
    | ok frame => simp [eq_comm]
  · simp only [h, if_false, ne_eq, not_false_eq_true, true_and, false_and, or_false, Except.ok.injEq]
    exact eq_comm

/-- What a count byte answers (R152). -/
theorem sdCount_eq (c : Byte) (s : State) :
    sdCount c s =
      if (s.sd.tally + c.setWidth 34).toNat > frameLen s then
        sdFail 1#8 { s with sd := { s.sd with acc := s.sd.acc ++ [c], tally := s.sd.tally + c.setWidth 34, phase := true } }
      else
        respondOk 0#40
          { s with sd := { s.sd with acc := s.sd.acc ++ [c], tally := s.sd.tally + c.setWidth 34, phase := true } } := rfl

/-- SD's operations leave everything but unit SD, the error record, OUT and the response. -/
theorem sdPushByte_frame {b : Byte} {s t : State} (h : sdPushByte b s = .ok t) :
    ∃ bs, t = { s with sd := t.sd, err := t.err, rsp := t.rsp, out := s.out ++ bs } ∧ ∀ x ∈ bs, x.src = .sd := by
  unfold sdPushByte at h
  split at h
  · cases h
    exact ⟨[], by simp [raise_eq_raised, raised], by simp⟩
  · obtain ⟨-, rfl⟩ | ⟨-, -, rfl⟩ := sdRaw_ok_iff.mp h
    · exact ⟨[], by simp [respondOk, respond], by simp⟩
    · exact ⟨_, rfl, fun x hx => beatsOf_src hx⟩
  · split at h
    · obtain ⟨-, rfl⟩ | ⟨-, frame, -, rfl⟩ := sdValue_ok_iff.mp h
      · exact ⟨[], by simp [respondOk, respond], by simp⟩
      · exact ⟨_, rfl, fun x hx => beatsOf_src hx⟩
    · cases h
      refine ⟨[], ?_, by simp⟩
      rw [sdCount_eq]
      split
      · simp [sdFail, raise_eq_raised, raised]
      · simp [respondOk, respond]

/-! The control registers. -/

/-- A number names a register exactly up to 0x10 (R12). -/
theorem ctlRegOf_eq_none_iff (n : Byte) : ctlRegOf n = none ↔ 0x10 < n.toNat := by
  revert n
  decide

/-- The checks of R172, by register number. -/
theorem writeCheck_cases (cr : Byte) (imm : XWord) :
    (0x10 < cr.toNat ∧ writeCheck cr imm = .reserved) ∨
    (cr.toNat ≤ 0x10 ∧ cr ≠ 0x01#8 ∧ cr ≠ 0x02#8 ∧ cr ≠ 0x04#8 ∧ cr ≠ 0x05#8 ∧ writeCheck cr imm = .readOnly) ∨
    (cr = 0x01#8 ∧ writeCheck cr imm = if imm.toNat < 2 ^ 16 then .toWidth else .tooWide) ∨
    (cr = 0x02#8 ∧ writeCheck cr imm = if imm.toNat < 2 ^ 16 then .toHeight else .tooWide) ∨
    (cr = 0x04#8 ∧ writeCheck cr imm = .toXlen) ∨
    (cr = 0x05#8 ∧ writeCheck cr imm = if imm.toNat < 2 then .toCtrl else .tooWide) := by
  by_cases h : 0x10 < cr.toNat
  · exact .inl ⟨h, by simp [writeCheck, (ctlRegOf_eq_none_iff cr).mpr h]⟩
  · have hc : cr.toNat = 0 ∨ cr.toNat = 1 ∨ cr.toNat = 2 ∨ cr.toNat = 3 ∨ cr.toNat = 4 ∨ cr.toNat = 5 ∨ cr.toNat = 6 ∨
        cr.toNat = 7 ∨ cr.toNat = 8 ∨ cr.toNat = 9 ∨ cr.toNat = 10 ∨ cr.toNat = 11 ∨ cr.toNat = 12 ∨ cr.toNat = 13 ∨
        cr.toNat = 14 ∨ cr.toNat = 15 ∨ cr.toNat = 16 := by omega
    have eq : ∀ k : Byte, cr.toNat = k.toNat → cr = k := fun k hk => BitVec.eq_of_toNat_eq hk
    rcases hc with h | h | h | h | h | h | h | h | h | h | h | h | h | h | h | h | h
    · obtain rfl := eq 0x00#8 h; simp [writeCheck, ctlRegOf]
    · obtain rfl := eq 0x01#8 h; simp [writeCheck, ctlRegOf]
    · obtain rfl := eq 0x02#8 h; simp [writeCheck, ctlRegOf]
    · obtain rfl := eq 0x03#8 h; simp [writeCheck, ctlRegOf]
    · obtain rfl := eq 0x04#8 h; simp [writeCheck, ctlRegOf]
    · obtain rfl := eq 0x05#8 h; simp [writeCheck, ctlRegOf]
    · obtain rfl := eq 0x06#8 h; simp [writeCheck, ctlRegOf]
    · obtain rfl := eq 0x07#8 h; simp [writeCheck, ctlRegOf]
    · obtain rfl := eq 0x08#8 h; simp [writeCheck, ctlRegOf]
    · obtain rfl := eq 0x09#8 h; simp [writeCheck, ctlRegOf]
    · obtain rfl := eq 0x0A#8 h; simp [writeCheck, ctlRegOf]
    · obtain rfl := eq 0x0B#8 h; simp [writeCheck, ctlRegOf]
    · obtain rfl := eq 0x0C#8 h; simp [writeCheck, ctlRegOf]
    · obtain rfl := eq 0x0D#8 h; simp [writeCheck, ctlRegOf]
    · obtain rfl := eq 0x0E#8 h; simp [writeCheck, ctlRegOf]
    · obtain rfl := eq 0x0F#8 h; simp [writeCheck, ctlRegOf]
    · obtain rfl := eq 0x10#8 h; simp [writeCheck, ctlRegOf]

end Sys2Proof.Machine
end

