-- ==== Sys2Proof/Laws/PerInstr.lean ====
section
/-! SUPPORT. The family `EncodeFields`, one lemma per operation: what the word of the operation holds in the fields of
30_encoding.md rule R60; and that `wellFormed` agrees with the operand checks
of the machine. -/

namespace Sys2Proof.Laws.EncodeFields

/-- The word's opcode byte is the operation's and its `rsv` byte is 0. -/
def Statement (i : Instr) : Prop :=
  cmdOp (encode i) = opcodeOf i ∧ cmdRsv (encode i) = 0#8

theorem rdcr (cr : Byte) : Statement (.rdcr cr) :=
  ⟨cmdOp_cmdWord _ _ _, cmdRsv_cmdWord _ _ _⟩

theorem wrcr (cr : Byte) (imm : XWord) : Statement (.wrcr cr imm) :=
  ⟨cmdOp_cmdWord _ _ _, cmdRsv_cmdWord _ _ _⟩

theorem init : Statement .init :=
  ⟨cmdOp_cmdWord _ _ _, cmdRsv_cmdWord _ _ _⟩

theorem fcPix (r g b : Byte) : Statement (.fcPix r g b) :=
  ⟨cmdOp_cmdWord _ _ _, cmdRsv_cmdWord _ _ _⟩

theorem fcEnd : Statement .fcEnd :=
  ⟨cmdOp_cmdWord _ _ _, cmdRsv_cmdWord _ _ _⟩

theorem dltSub (a b : Byte) : Statement (.dltSub a b) :=
  ⟨cmdOp_cmdWord _ _ _, cmdRsv_cmdWord _ _ _⟩

theorem dltAdd (d b : Byte) : Statement (.dltAdd d b) :=
  ⟨cmdOp_cmdWord _ _ _, cmdRsv_cmdWord _ _ _⟩

theorem rlePush (b : Byte) : Statement (.rlePush b) :=
  ⟨cmdOp_cmdWord _ _ _, cmdRsv_cmdWord _ _ _⟩

theorem rleEnd : Statement .rleEnd :=
  ⟨cmdOp_cmdWord _ _ _, cmdRsv_cmdWord _ _ _⟩

theorem rldPair (c v : Byte) : Statement (.rldPair c v) :=
  ⟨cmdOp_cmdWord _ _ _, cmdRsv_cmdWord _ _ _⟩

theorem rldEnd : Statement .rldEnd :=
  ⟨cmdOp_cmdWord _ _ _, cmdRsv_cmdWord _ _ _⟩

theorem sePush (b : Byte) : Statement (.sePush b) :=
  ⟨cmdOp_cmdWord _ _ _, cmdRsv_cmdWord _ _ _⟩

theorem seEnd : Statement .seEnd :=
  ⟨cmdOp_cmdWord _ _ _, cmdRsv_cmdWord _ _ _⟩

theorem sdPush (b : Byte) : Statement (.sdPush b) :=
  ⟨cmdOp_cmdWord _ _ _, cmdRsv_cmdWord _ _ _⟩

theorem sdEnd : Statement .sdEnd :=
  ⟨cmdOp_cmdWord _ _ _, cmdRsv_cmdWord _ _ _⟩

end Sys2Proof.Laws.EncodeFields

namespace Sys2Proof.Machine

/-- A number is one of the seventeen exactly when it names a register. -/
theorem regDefined_iff (cr : Byte) : regDefined cr = true ↔ ctlRegOf cr ≠ none := by
  rw [regDefined, decide_eq_true_iff, Ne, ctlRegOf_eq_none_iff]
  omega

/-- A WRCR is well-formed exactly when the machine's check of its operands (R172) lets it store. -/
theorem wrcr_wellFormed_iff (cr : Byte) (imm : XWord) :
    (Instr.wrcr cr imm).wellFormed = true ↔
      writeCheck cr imm ∈ [.toWidth, .toHeight, .toXlen, .toCtrl] := by
  rcases writeCheck_cases cr imm with ⟨h, hw⟩ | ⟨h, h1, h2, h4, h5, hw⟩ | ⟨rfl, hw⟩ | ⟨rfl, hw⟩ | ⟨rfl, hw⟩ | ⟨rfl, hw⟩
  · simp [hw, Instr.wellFormed, regDefined, show ¬ cr.toNat ≤ 16 by omega]
  · simp [hw, Instr.wellFormed, regWritable, h1, h2, h4, h5]
  all_goals
    simp [hw, Instr.wellFormed, regDefined, regWritable, regFits]
  all_goals
    split <;> simp_all

end Sys2Proof.Machine
end

