-- ==== Sys2Proof/Laws/Run.lean ====
section
/-! SUPPORT. Runs of the machine: one more step at the front. -/

namespace Sys2Proof.Machine

/-- A run whose first step answers a next state goes on from it. -/
theorem run_succ_next (M : Host.Core) (n : Nat) (s t : M.State) (h : M.step s = .next t) :
    M.run (n + 1) s = M.run n t := by
  have e : M.run (n + 1) s = match M.step s with
    | .next s' => M.run n s'
    | .fault r => .fault r
    | .refused r => .refused r := rfl
  rw [e, h]

end Sys2Proof.Machine
end

