-- ==== Sys2Proof/Tests/Slice0.lean ====
section
/-! SUPPORT. Tests of this model. Expected values come from the spec: "V<n>" and "P<n>" are vectors and programs of
95_test_vectors.md, "R<n>" rules. `test_witness_<Name>` shows states and operands that meet the hypotheses of
Obligations.<Name>, one for each clause. -/

namespace Sys2Proof.Tests

open Sys2Proof.Machine

/-! Well-formedness: an ill-formed term for each check (R171, R172; the last six words of V6.1). -/

theorem test_wf_rdcr_reserved : (Instr.rdcr 0x11#8).wellFormed = false := by decide
theorem test_wf_wrcr_reserved : (Instr.wrcr 0x11#8 0#40).wellFormed = false := by decide
theorem test_wf_wrcr_read_only : (Instr.wrcr 0x03#8 1#40).wellFormed = false := by decide
theorem test_wf_wrcr_width_too_wide : (Instr.wrcr 0x01#8 65536#40).wellFormed = false := by decide
theorem test_wf_wrcr_ctrl_reserved_bit : (Instr.wrcr 0x05#8 2#40).wellFormed = false := by decide
theorem test_wf_wrcr_width_limit : (Instr.wrcr 0x01#8 65535#40).wellFormed = true := by decide

/-! Decoding: one word for every operation, written out from R61 and R64 (words of V2.1, V1.9, P1 to P5). -/

theorem test_decode_rdcr : decode 0x0106000000000000#64 = .ok (.rdcr 0x06#8) := by decide
theorem test_decode_wrcr : decode 0x0204000000000101#64 = .ok (.wrcr 0x04#8 257#40) := by decide
theorem test_decode_init : decode 0x0300000000000000#64 = .ok .init := by decide
theorem test_decode_fcPix : decode 0x1000000000010203#64 = .ok (.fcPix 1#8 2#8 3#8) := by decide
theorem test_decode_fcEnd : decode 0x1100000000000000#64 = .ok .fcEnd := by decide
theorem test_decode_dltSub : decode 0x2000000000000AFA#64 = .ok (.dltSub 10#8 250#8) := by decide
theorem test_decode_dltAdd : decode 0x21000000000010FA#64 = .ok (.dltAdd 16#8 250#8) := by decide
theorem test_decode_rlePush : decode 0x3000000000000007#64 = .ok (.rlePush 7#8) := by decide
theorem test_decode_rleEnd : decode 0x3100000000000000#64 = .ok .rleEnd := by decide
theorem test_decode_rldPair : decode 0x32000000000008FF#64 = .ok (.rldPair 8#8 255#8) := by decide
theorem test_decode_rldEnd : decode 0x3300000000000000#64 = .ok .rldEnd := by decide
theorem test_decode_sePush : decode 0x4000000000000005#64 = .ok (.sePush 5#8) := by decide
theorem test_decode_seEnd : decode 0x4100000000000000#64 = .ok .seEnd := by decide
theorem test_decode_sdPush : decode 0x5000000000000080#64 = .ok (.sdPush 128#8) := by decide
theorem test_decode_sdEnd : decode 0x5100000000000000#64 = .ok .sdEnd := by decide

/-- V6.1: unknown opcodes, the neighbours of the known ones among them. -/
theorem test_decode_unknown_opcodes :
    decode 0x0000000000000000#64 = .error .opcode ∧
    decode 0xFF00000000000000#64 = .error .opcode ∧
    decode 0x0400000000000000#64 = .error .opcode ∧
    decode 0x1200000000000000#64 = .error .opcode ∧
    decode 0x2200000000000000#64 = .error .opcode ∧
    decode 0x3400000000000000#64 = .error .opcode ∧
    decode 0x4200000000000000#64 = .error .opcode ∧
    decode 0x5200000000000000#64 = .error .opcode := by decide

/-- V6.1: a must-be-zero bit is 1. -/
theorem test_decode_reserved_bits :
    decode 0x0300000000000001#64 = .error .reservedBits ∧
    decode 0x0301000000000000#64 = .error .reservedBits ∧
    decode 0x0300010000000000#64 = .error .reservedBits ∧
    decode 0x3000000000000100#64 = .error .reservedBits ∧
    decode 0x1000000001000000#64 = .error .reservedBits ∧
    decode 0x2000000000010000#64 = .error .reservedBits ∧
    decode 0x0106000000000001#64 = .error .reservedBits := by decide

/-- The word of the host's table form: bits above `nbits` are 0, and there is no longer instruction. -/
theorem test_decode_table_word :
    decodeTableWord 64 0x3000000000000007 = some (.rlePush 7#8) ∧ decodeTableWord 72 0x3000000000000007 = none ∧
    decodeTableWord 8 0x3000000000000007 = none := by decide

/-! The states of the tests: a 2x2 size (`L = 6`), and each unit part of the way through a frame, a run or a pair. -/

/-- The bytes 1 to n at indices 0 to n-1. -/
def counting (n : Nat) : Memory Byte := (List.range n).map (fun i => (i, BitVec.ofNat 8 (i + 1)))

/-- After reset, WIDTH and HEIGHT 2. -/
def small : State := { State.reset with ctl := { State.reset.ctl with width := 2#16, height := 2#16 } }

/-- `small` after three of the four pixels of V1.7. -/
def fcThird : State :=
  { small with fc := { pos := 3#34, idx := 0#32, y := [(0, 76#8), (1, 149#8), (2, 29#8)],
                       u := [(0, 849050#22), (1, 435950#22), (2, 2424950#22)],
                       v := [(0, 2552450#22), (1, 214100#22), (2, 1072685#22)] } }

/-- The same with CHAIN set. -/
def fcChained : State := { fcThird with ctl := { fcThird.ctl with chain := true } }

/-- `small` before the sixth byte of the first frame of V4.1. -/
def seFirst : State := { small with se := { small.se with pos := 5#34, cur := counting 5 } }

/-- `small` before the sixth byte of the second frame of V4.1. -/
def seLater : State :=
  { small with se := { first := false, pos := 5#34, idx := 1#32, cur := counting 6, prev := counting 6 } }

/-- An open run of 7s. -/
def rleOpen (n : Byte) : State := { State.reset with rle := { active := true, val := 7#8, cnt := n } }

/-- XLEN 6 and five bytes expanded (V3.3). -/
def rldFive : State :=
  { State.reset with ctl := { State.reset.ctl with xlen := 6#40 },
                     rld := { tally := 5#40, overrun := false, buf := [1#8, 1#8, 2#8, 2#8, 2#8] } }

/-- XLEN 6 and all six bytes expanded. -/
def rldSix : State := { rldFive with rld := { tally := 6#40, overrun := false, buf := [1#8, 1#8, 2#8, 2#8, 2#8, 3#8] } }

/-- XLEN passed. -/
def rldOver : State := { rldFive with rld := { rldFive.rld with overrun := true } }

/-- `small` with the stream decoder as given and the previous frame 1 to 6. -/
def sdWith (mode : SdMode) (phase : Bool) (tally : Len) (acc : List Byte) : State :=
  { small with sd := { mode := mode, phase := phase, tally := tally, idx := if mode = .rawFrame then 0#32 else 1#32,
                       fsub := 0#8, fidx := 0#32, acc := acc, prev := counting 6 } }

/-- Before the sixth byte of frame 0. -/
def sdRawFive : State := sdWith .rawFrame false 5#34 [1#8, 2#8, 3#8, 4#8, 5#8]
/-- In frame 1 after the pair (4, 1). -/
def sdCounting : State := sdWith .rlePair false 4#34 [4#8, 1#8]
/-- In frame 1 after the pair (4, 1) and the count 2: only the last value byte is missing. -/
def sdValuing : State := sdWith .rlePair true 6#34 [4#8, 1#8, 2#8]
/-- In frame 1 after the count 4: a value byte that completes no frame is next. -/
def sdInside : State := sdWith .rlePair true 4#34 [4#8]
/-- Failed with OVERSHOOT in frame 1, the failure latched. -/
def sdFailed : State :=
  { small with sd := { mode := .failed, phase := true, tally := 9#34, idx := 1#32, fsub := 1#8, fidx := 1#32,
                       acc := [4#8, 1#8, 5#8], prev := counting 6 },
               err := { code := 2#8, stage := 6#8, sub := 1#8, idx := 1#32 } }

/-! What a step on a command word answers. -/

/-- The next state, if the outcome is one. -/
def nextOf (o : Host.Outcome State Fault Refusal) : Option State :=
  match o with
  | .next t => some t
  | .fault _ => none
  | .refused _ => none

/-- The state after the word is presented and one step is taken. -/
def afterWord (w : Nat) (s : State) : Option State := nextOf (step (s.withFetchWord 64 w))

/-- The response word. -/
def reply (w : Nat) (s : State) : Option (BitVec 64) := ((afterWord w s).bind (·.rsp)).map responseBits

/-- The beats in OUT as (src, last, data). -/
def beats (w : Nat) (s : State) : Option (List (Nat × Bool × Nat)) :=
  (afterWord w s).map (fun t => t.out.map (fun b => ((unitNumber b.src).toNat, b.last, b.data.toNat)))

/-- The words of R62 and R63 put together by hand: an error response of V5.3, the beat 3:7*. -/
theorem test_response_and_beat_bits :
    responseBits { code := 2#8, stage := 6#8, sub := 1#8, val := 1#40 } = 0x0206010000000001#64 ∧
    beatBits { src := .rle, last := true, data := 7#8 } = 0x707#12 := by decide

/-! One step for each operation, at most two tests each. -/

/-- P1 step 2, V6.2. -/
theorem test_rdcr_id : reply 0x0100000000000000 State.reset = some 0x0000000053525607#64 := by decide
/-- P1 step 10: DIMS_OK, SE_FIRST, FC_BUSY. -/
theorem test_rdcr_status : reply 0x0106000000000000 fcThird = some 0x0000000000000121#64 := by decide
/-- V4.4, R173: a size write starts SE anew. -/
theorem test_wrcr_width : (afterWord 0x0201000000000002 seLater).map (fun t => (t.se.first, t.se.pos, t.se.idx)) =
    some (true, 0#34, 0#32) := by decide
/-- V6.1: WRCR WIDTH, 65536. -/
theorem test_wrcr_too_wide : reply 0x0201000000010000 State.reset = some 0x0400050000000000#64 := by decide
/-- V6.3, P4 steps 30 to 32: the record is cleared and the size kept. -/
theorem test_init : (afterWord 0x0300000000000000 sdFailed).map (fun t => (t.err.code, t.sd.mode, t.ctl.width)) =
    some (0#8, .rawFrame, 2#16) := by decide
/-- V1.7, P1 step 12. -/
theorem test_fcPix_last : beats 0x1000000000FFFFFF fcThird =
    some [(1, false, 76), (1, false, 149), (1, false, 29), (1, false, 255), (1, false, 121), (1, true, 127)] := by
  decide
/-- R90: with CHAIN the frame of V1.7 leaves as the first frame of SE. -/
theorem test_fcPix_chained : beats 0x1000000000FFFFFF fcChained =
    some [(5, false, 76), (5, false, 149), (5, false, 29), (5, false, 255), (5, false, 121), (5, true, 127)] := by
  decide
/-- V1.9: the pixels dropped, and the position back at 0. -/
theorem test_fcEnd : reply 0x1100000000000000 fcThird = some 3#64 ∧
    (afterWord 0x1100000000000000 fcThird).map (·.fc.pos) = some 0#34 := by decide
/-- V2.1. -/
theorem test_dltSub_wraps : beats 0x2000000000000AFA State.reset = some [(2, true, 16)] := by decide
/-- V2.1. -/
theorem test_dltAdd_wraps : beats 0x21000000000010FA State.reset = some [(2, true, 10)] := by decide
/-- P5 step 258: the 256th equal byte. -/
theorem test_rlePush_cap : beats 0x3000000000000007 (rleOpen 255#8) = some [(3, false, 255), (3, true, 7)] ∧
    (afterWord 0x3000000000000007 (rleOpen 255#8)).map (·.rle) = some { active := true, val := 7#8, cnt := 1#8 } := by
  decide
/-- V3.2: three 7s then a 9. -/
theorem test_rlePush_closes : beats 0x3000000000000009 (rleOpen 3#8) = some [(3, false, 3), (3, true, 7)] := by decide
/-- V3.2: RLE.END with a run, and with none. -/
theorem test_rleEnd : beats 0x3100000000000000 (rleOpen 1#8) = some [(3, false, 1), (3, true, 7)] ∧
    beats 0x3100000000000000 State.reset = some [] := by decide
/-- V3.4: the pair that would pass XLEN leaves the tally. -/
theorem test_rldPair_over : (afterWord 0x3200000000000201 rldFive).map (fun t => (t.rld.tally, t.rld.overrun)) =
    some (5#40, true) := by decide
/-- V3.3, XLEN 6: the third pair and the end. -/
theorem test_rldEnd_delivers : (afterWord 0x3200000000000103 rldFive).map (·.rld) = some rldSix.rld ∧
    beats 0x3300000000000000 rldSix =
      some [(4, false, 1), (4, false, 1), (4, false, 2), (4, false, 2), (4, false, 2), (4, true, 3)] := by decide
/-- V3.4: SHORT and LONG. -/
theorem test_rldEnd_refuses : reply 0x3300000000000000 rldFive = some 0x0304010000000000#64 ∧
    reply 0x3300000000000000 rldOver = some 0x0304020000000000#64 := by decide
/-- V4.1, frame 0. -/
theorem test_sePush_raw : beats 0x4000000000000006 seFirst =
    some [(5, false, 1), (5, false, 2), (5, false, 3), (5, false, 4), (5, false, 5), (5, true, 6)] := by decide
/-- V4.1, frame 1: all six deltas are 0. -/
theorem test_sePush_delta : beats 0x4000000000000006 seLater = some [(5, false, 6), (5, true, 0)] := by decide
/-- V4.3 with five bytes. -/
theorem test_seEnd : reply 0x4100000000000000 seLater = some 5#64 ∧
    (afterWord 0x4100000000000000 seLater).map (·.se.first) = some true := by decide
/-- V5.1, V5.2: the pairs (4, 1), (2, 0) on 1 to 6. -/
theorem test_sdPush_frame : beats 0x5000000000000000 sdValuing =
    some [(6, false, 2), (6, false, 3), (6, false, 4), (6, false, 5), (6, false, 5), (6, true, 6)] := by decide
/-- V5.3: OVERSHOOT, here 4 + 3 > 6 in frame 1. -/
theorem test_sdPush_overshoot : reply 0x5000000000000003 sdCounting = some 0x0206010000000001#64 := by decide
/-- V5.4 and P4 step 24: TRUNCATED in the raw frame, MIDPAIR before the last value byte. -/
theorem test_sdEnd_fails : reply 0x5100000000000000 sdRawFive = some 0x0206020000000000#64 ∧
    reply 0x5100000000000000 sdValuing = some 0x0206030000000001#64 := by decide
/-- V5.6: the end of an empty stream. -/
theorem test_sdEnd_clean : reply 0x5100000000000000 small = some 0#64 := by decide

/-- V6.1: a word that is no operation answers IllegalCommand and latches it. -/
theorem test_illegal_word : reply 0x0300010000000000 State.reset = some 0x0400020000000000#64 ∧
    (afterWord 0 State.reset).map (·.err) = some { code := 4#8, stage := 0#8, sub := 1#8, idx := 0#32 } := by decide

/-! Functions and arithmetic. -/

/-- V1.1: red, and the luma of exactly 45. -/
theorem test_colour_rows : cscY Config.params.k 255#8 0#8 0#8 = 76#8 ∧ cscU Config.params.k 255#8 0#8 0#8 = 849050 ∧
    cscV Config.params.k 255#8 0#8 0#8 = 2552450 ∧ cscY Config.params.k 0#8 72#8 24#8 = 45#8 := by decide
/-- V1.2. -/
theorem test_css_avg : cssAvg 1009000 1009000 1009000 1013000 = 101#8 ∧ cssAvg 0 0 0 39999 = 0#8 := by decide
/-- V0.7b: white with the zero-sum coefficients has chroma 128. -/
theorem test_zero_sum_white :
    cscU Config.zeroSumCoeffs 255#8 255#8 255#8 = 1280000 ∧ cscV Config.zeroSumCoeffs 255#8 255#8 255#8 = 1280000 := by
  decide
/-- V3.1. -/
theorem test_rle_encode : rleEncode [0#8, 0#8, 0#8, 255#8, 255#8, 0#8] = [3#8, 0#8, 2#8, 255#8, 1#8, 0#8] := by decide
/-- R68, R69: a comment, a name, hexadecimal, a pseudo-operation, and a line the assembler refuses. -/
theorem test_assembler :
    assembleLine "WRCR WIDTH, 4 ; four".toList = some [.wrcr 0x01#8 4#40] ∧
    assembleLine "RLD.PAIR 8, 0xFF".toList = some [.rldPair 8#8 255#8] ∧
    assembleLine "FC.FRAME 1, 2, 3".toList = some [.fcPix 1#8 2#8 3#8] ∧
    assembleLine "FC.FRAME 1, 2, 3, 4".toList = none := by decide
/-- The parameters agree among themselves as R4 writes them. -/
theorem test_widths : Config.params.widths = Config.widths ∧
    Config.widths.lenBits = 2 * Config.widths.dimBits + 2 ∧
    Config.params.lMax = lenOf (2 ^ Config.widths.dimBits - 2) (2 ^ Config.widths.dimBits - 2) ∧
    Config.params.lMax + 254 < 2 ^ Config.widths.lenBits := by decide

/-! Witnesses: states and operands that meet the hypotheses of the obligations. -/

/-- The element `i` of `counting 6` is written for every `i` below 6. -/
theorem counting_written (n : Nat) (h : n ≤ 6) : writtenBelow (counting 6) n := by
  intro i hi
  have h6 : i < 6 := by omega
  revert i
  intro i _ h6
  interval_cases i <;> decide

/-- A state of a 2x2 size whose FC, RLE, RLD and SE are idle meets the invariant if its stream decoder and its error
record do. -/
theorem small_inv (s : State) (hc : s.ctl = small.ctl) (hf : s.fc = State.reset.fc) (hr : s.rle = State.reset.rle)
    (hl : s.rld = State.reset.rld) (he : s.se = State.reset.se) (ho : s.out = []) (hp : s.rsp = none)
    (herr : s.err.code.toNat ≤ 4) (hnone : s.err.code = 0#8 → s.err.stage = 0#8 ∧ s.err.sub = 0#8 ∧ s.err.idx = 0#32)
    (hb : Memory.wf s.sd.prev) (hs : SdInv s) : Inv s := by
  have hd : dimsOk s = true := by
    simp only [dimsOk, frameW, frameH, hc]
    decide
  refine ⟨⟨?_, ?_, ?_, ?_, ?_, hb⟩, ⟨herr, hnone, ?_⟩, ⟨?_, ?_, ?_, ?_, ?_, ?_, ?_⟩, ⟨?_⟩, ⟨?_, ?_⟩,
    ⟨?_, ?_, ?_, ?_, ?_⟩, hs, ?_⟩ <;>
    simp [hf, hr, hl, he, ho, hp, hd, State.reset, writtenBelow, npix, frameLen, frameW, frameH, hc, small,
      npixOf, lenOf]

/-- An outcome that is a next state meeting a test is one. -/
theorem next_of_any {o : Host.Outcome State Fault Refusal} {p : State → Bool} (h : (nextOf o).any p = true) :
    ∃ t, o = .next t ∧ p t = true := by
  cases o with
  | next t => exact ⟨t, rfl, h⟩
  | fault _ => cases h
  | refused _ => cases h

/-- States with the stream decoder in each of its modes and phases meet the invariant. -/
theorem inv_sdRawFive : Inv sdRawFive := by
  refine small_inv _ rfl rfl rfl rfl rfl rfl rfl (by decide) (by decide) (by decide) ?_
  refine ⟨fun _ => by decide, fun h => ?_, fun h => ?_, fun _ => by decide, fun h => absurd h (by decide)⟩ <;> cases h

theorem inv_sdCounting : Inv sdCounting := by
  refine small_inv _ rfl rfl rfl rfl rfl rfl rfl (by decide) (by decide) (by decide) ?_
  refine ⟨fun h => ?_, fun _ => ⟨by decide, counting_written _ (by decide), by decide, by decide, by decide⟩,
    fun h => ?_, fun _ => by decide, fun h => absurd h (by decide)⟩ <;> cases h

theorem inv_sdInside : Inv sdInside := by
  refine small_inv _ rfl rfl rfl rfl rfl rfl rfl (by decide) (by decide) (by decide) ?_
  refine ⟨fun h => ?_, fun _ => ⟨by decide, counting_written _ (by decide), by decide, by decide, by decide⟩,
    fun h => ?_, fun _ => by decide, fun h => absurd h (by decide)⟩ <;> cases h

theorem inv_sdValuing : Inv sdValuing := by
  refine small_inv _ rfl rfl rfl rfl rfl rfl rfl (by decide) (by decide) (by decide) ?_
  refine ⟨fun h => ?_, fun _ => ⟨by decide, counting_written _ (by decide), by decide, by decide, by decide⟩,
    fun h => ?_, fun _ => by decide, fun h => absurd h (by decide)⟩ <;> cases h

theorem inv_sdFailed : Inv sdFailed := by
  refine small_inv _ rfl rfl rfl rfl rfl rfl rfl (by decide) (by decide) (by decide) ?_
  refine ⟨fun h => ?_, fun h => ?_, fun _ => by decide, fun h => absurd rfl h, fun h => absurd h (by decide)⟩ <;>
    cases h

/-- After reset with the given size. -/
def sized (w h : Dim) : State := { State.reset with ctl := { State.reset.ctl with width := w, height := h } }

/-- An odd size, nothing accepted. -/
theorem inv_sized_odd : Inv (sized 3#16 2#16) := by
  refine ⟨⟨?_, ?_, ?_, ?_, ?_, ?_⟩, ⟨?_, ?_, ?_⟩, ⟨?_, ?_, ?_, ?_, ?_, ?_, ?_⟩, ⟨?_⟩, ⟨?_, ?_⟩,
    ⟨?_, ?_, ?_, ?_, ?_⟩, ⟨?_, ?_, ?_, ?_, ?_⟩, ?_⟩ <;>
    simp [sized, State.reset, writtenBelow, dimsOk, dimsLegal, frameW, frameH]

/-- A host event waiting. -/
def queued (e : HostEvent) : State := { seLater with inputs := [e] }

theorem test_witness_EncodeOfDecodeIsTheWord : decode 0x02050000000000FF#64 = .ok (.wrcr 0x05#8 0xFF#40) := by decide

theorem test_witness_IllegalWordsRaiseAndDoNothingElse :
    (queued (.command 0x0400000000000000#64)).inputs = .command 0x0400000000000000#64 :: [] ∧
    cmdOp 0x0400000000000000#64 ∉ [0x01#8, 0x02#8, 0x03#8, 0x10#8, 0x11#8, 0x20#8, 0x21#8, 0x30#8, 0x31#8, 0x32#8,
      0x33#8, 0x40#8, 0x41#8, 0x50#8, 0x51#8] ∧
    cmdOp 0x0300000000000001#64 = 0x03#8 ∧
    (opcodeRows.all fun r => 0x0300000000000001#64 &&& r.mask != r.pattern) = true ∧
    (opcodeRows.any fun r => 0x0300000000000000#64 &&& r.mask == r.pattern) = true := by decide

theorem test_witness_StepRunsTheDecodedOperation :
    (queued (.command 0x4000000000000006#64)).inputs = .command 0x4000000000000006#64 :: [] ∧
    decode 0x4000000000000006#64 = .ok (.sePush 6#8) := by decide

theorem test_witness_StepOfOtherHostEvents :
    seLater.inputs = [] ∧ (queued .rst).inputs = .rst :: [] ∧
    { queued .takeBeat with out := beatsOf .fc [1#8, 2#8] }.out =
      { src := .fc, last := false, data := 1#8 } :: [{ src := .fc, last := true, data := 2#8 }] := by decide

theorem test_witness_EveryStepKeepsTheInvariant : Inv sdCounting ∧ ∃ t, step sdCounting = .next t :=
  ⟨inv_sdCounting, _, rfl⟩

theorem test_witness_NoStepStopsUnderTheInvariant : Inv sdValuing := inv_sdValuing

theorem test_witness_OperationsOnlyAppendToOut : ∃ t, exec (.sePush 6#8) seLater = .next t ∧ (t.out.length == 2) = true :=
  next_of_any (by decide)

theorem test_witness_NoOperationReadsTheResponse : ∃ t, exec (.sdPush 3#8) sdCounting = .next t ∧ t.rsp.isSome = true :=
  next_of_any (p := fun t => t.rsp.isSome) (by decide)

/-- An operation that raises for the first time, one that raises again, and INIT. -/
theorem test_witness_ErrorRecordKeepsTheFirstError :
    (∃ t, exec (.sdPush 3#8) sdCounting = .next t ∧ (t.rsp.isSome && t.err.code == 2#8) = true) ∧
    (∃ t, exec (.rdcr 0x11#8) sdFailed = .next t ∧ (t.rsp.isSome && t.err.code == 2#8) = true) ∧
    ∃ t, exec .init sdFailed = .next t ∧ (t.rsp.isSome && t.err.code == 0#8) = true :=
  ⟨next_of_any (by decide), next_of_any (by decide), next_of_any (by decide)⟩

/-- A response that is an error, and which. -/
def errorIs (code sub : Byte) (t : State) : Bool :=
  match t.rsp with
  | some r => r.code == code && r.sub == sub
  | none => false

/-- Each of the four errors. -/
theorem test_witness_RaisingOperationsEmitNothing :
    (∃ t, exec (.fcPix 1#8 2#8 3#8) State.reset = .next t ∧ errorIs 1#8 1#8 t = true) ∧
    (∃ t, exec (.sdPush 3#8) sdCounting = .next t ∧ errorIs 2#8 1#8 t = true) ∧
    (∃ t, exec .rldEnd rldFive = .next t ∧ errorIs 3#8 1#8 t = true) ∧
    ∃ t, exec (.rdcr 0x11#8) State.reset = .next t ∧ errorIs 4#8 3#8 t = true :=
  ⟨next_of_any (by decide), next_of_any (by decide), next_of_any (by decide), next_of_any (by decide)⟩

/-- An unknown opcode, a reserved bit, and an operation that raises. -/
theorem test_witness_OnlyTheMatrixErrorsAreRaised : Inv sdCounting ∧
    (∃ t, runWord 0x0400000000000000#64 sdCounting = .next t ∧ errorIs 4#8 1#8 t = true) ∧
    (∃ t, runWord 0x0300000000000001#64 sdCounting = .next t ∧ errorIs 4#8 2#8 t = true) ∧
    ∃ t, runWord 0x5000000000000003#64 sdCounting = .next t ∧ errorIs 2#8 1#8 t = true :=
  ⟨inv_sdCounting, next_of_any (by decide), next_of_any (by decide), next_of_any (by decide)⟩

/-- For each unit an operation that may not write it. -/
theorem test_witness_UnitsDoNotDisturbEachOther :
    (∃ t, exec (.rlePush 1#8) fcThird = .next t ∧ (t.rle.active == true) = true) ∧
    mayWrite .fc false (.rlePush 1#8) = false ∧ mayWrite .se false (.fcPix 1#8 2#8 3#8) = false ∧
    mayWrite .rle true (.fcPix 1#8 2#8 3#8) = false ∧ mayWrite .rld true (.wrcr 0x01#8 2#40) = false ∧
    mayWrite .sd true (.sePush 1#8) = false :=
  ⟨next_of_any (by decide), by decide, by decide, by decide, by decide, by decide⟩

/-- ZERO, and ODD in either dimension, with the invariant; the smallest square size that is TOO_LARGE. -/
theorem test_witness_IllegalDimensionsRaise :
    dimsOk (sized 0#16 3#16) = false ∧ dimsOk (sized 2#16 0#16) = false ∧ dimsOk (sized 3#16 2#16) = false ∧
    dimsOk (sized 65534#16 65535#16) = false ∧ Inv (sized 3#16 2#16) ∧
    (65536 ≠ 0 ∧ 65536 % 2 = 0 ∧ 6442057734 < 3 * 65536 * 65536 / 2) :=
  ⟨by decide, by decide, by decide, by decide, inv_sized_odd, by decide⟩

theorem test_witness_FailedDecoderStaysFailed :
    sdFailed.sd.mode = .failed ∧ dimsOk sdFailed = true ∧
    dimsOk { sdFailed with ctl := { sdFailed.ctl with width := 1#16 } } = false ∧
    (∃ t, exec (.sePush 1#8) sdFailed = .next t ∧ (t.se.pos == 1#34) = true) ∧
    (65535#40).toNat < 2 ^ 16 ∧ { sdFailed with inputs := [.rst] }.inputs = .rst :: [] :=
  ⟨by decide, by decide, by decide, next_of_any (by decide), by decide, by decide⟩

/-- One state for each row of R158. -/
theorem test_witness_DecoderModeTransitions :
    (Inv sdRawFive ∧ dimsOk sdRawFive = true ∧
      (∃ t, exec (.sdPush 6#8) sdRawFive = .next t ∧ (t.sd.mode == .rlePair) = true)) ∧
    (∃ t, exec (.sdPush 6#8) small = .next t ∧ (t.sd.mode == .rawFrame) = true) ∧
    (Inv sdCounting ∧ (∃ t, exec (.sdPush 2#8) sdCounting = .next t ∧ (t.sd.phase == true) = true) ∧
      (∃ t, exec (.sdPush 3#8) sdCounting = .next t ∧ (t.sd.mode == .failed) = true)) ∧
    (Inv sdInside ∧ (∃ t, exec (.sdPush 1#8) sdInside = .next t ∧ (t.sd.tally == 4#34) = true)) ∧
    (Inv sdValuing ∧ (∃ t, exec (.sdPush 0#8) sdValuing = .next t ∧ (t.sd.tally == 0#34) = true)) ∧
    (Inv sdFailed ∧ (∃ t, exec (.sdPush 0#8) sdFailed = .next t ∧ (t.sd.mode == .failed) = true)) ∧
    (∃ t, exec .sdEnd sdValuing = .next t ∧ (t.sd.fsub == 3#8) = true) ∧
    (∃ t, exec .sdEnd small = .next t ∧ (t.sd.mode == .rawFrame) = true) ∧
    (∃ t, exec .sdEnd sdFailed = .next t ∧ (t.sd.fsub == 1#8) = true) ∧
    (∃ t, exec .init sdFailed = .next t ∧ (t.sd.mode == .rawFrame) = true) ∧
    (∃ t, exec (.wrcr 0x01#8 65535#40) sdFailed = .next t ∧ (t.sd.mode == .rawFrame) = true) ∧
    ∃ t, exec .seEnd sdValuing = .next t ∧ (t.sd.phase == true) = true :=
  ⟨⟨inv_sdRawFive, by decide, next_of_any (by decide)⟩, next_of_any (by decide),
    ⟨inv_sdCounting, next_of_any (by decide), next_of_any (by decide)⟩, ⟨inv_sdInside, next_of_any (by decide)⟩,
    ⟨inv_sdValuing, next_of_any (by decide)⟩, ⟨inv_sdFailed, next_of_any (by decide)⟩, next_of_any (by decide),
    next_of_any (by decide), next_of_any (by decide), next_of_any (by decide), next_of_any (by decide),
    next_of_any (by decide)⟩

/-- The first and the last register that read 0 after reset. -/
theorem test_witness_RegistersReadAfterReset :
    (0x01#8).toNat ≤ 0x10 ∧ 0x01#8 ≠ 0x00#8 ∧ 0x01#8 ≠ 0x06#8 ∧ (0x10#8).toNat ≤ 0x10 ∧ 0x10#8 ≠ 0x06#8 := by decide

/-- The first and the last reserved number. -/
theorem test_witness_RdcrReadsTheRegisterFile : 0x10 < (0x11#8).toNat ∧ 0x10 < (0xFF#8).toNat := by decide

theorem test_witness_RdcrReadsTheStatusViews :
    (rleOpen 255#8).rle.active = true ∧ small.rle.active = false ∧ 12 ≤ 12 ∧ 12 ≤ 39 := by decide

/-- Each clause at the ends of its range. -/
theorem test_witness_WrcrStoresOrRefuses :
    (65535#40).toNat < 2 ^ 16 ∧ 2 ^ 16 ≤ (65536#40).toNat ∧ (1#40).toNat < 2 ∧ 2 ≤ (2#40).toNat ∧
    0x10 < (0x11#8).toNat ∧ 0x10 < (0xFF#8).toNat ∧ (0x10#8).toNat ≤ 0x10 ∧
    0x10#8 ∉ [0x01#8, 0x02#8, 0x04#8, 0x05#8] ∧ 0x00#8 ∉ [0x01#8, 0x02#8, 0x04#8, 0x05#8] ∧
    0x02#8 ∈ [0x01#8, 0x02#8] := by decide

theorem test_witness_ChromaIntermediatesStayInRange :
    ((5000 : Int) ≤ 5000 ∧ (5000 : Int) ≤ 2424950) ∧ ((6785 : Int) ≤ 2552450 ∧ (2552450 : Int) ≤ 2552450) := by decide

/-- A whole 2x2 frame in the buffers (V1.7). -/
def fcFull : FcUnit :=
  { fcThird.fc with y := fcThird.fc.y ++ [(3, 255#8)], u := fcThird.fc.u ++ [(3, 1149950#22)],
                    v := fcThird.fc.v ++ [(3, 1279235#22)] }

theorem test_witness_PackedFrameLayout :
    dimsLegal 2 2 = true ∧ writtenBelow fcFull.y (2 * 2) ∧ writtenBelow fcFull.u (2 * 2) ∧
    writtenBelow fcFull.v (2 * 2) := by
  unfold writtenBelow
  decide

theorem test_witness_FcPixStoresAPixel : dimsOk small = true ∧ small.fc.pos.toNat + 1 < npix small := by decide

theorem test_witness_FcPixLastPixelEmitsTheFrame :
    dimsOk fcThird = true ∧ fcThird.fc.pos.toNat + 1 = npix fcThird ∧ fcThird.ctl.chain = false ∧
    writtenBelow fcThird.fc.y fcThird.fc.pos.toNat ∧ writtenBelow fcThird.fc.u fcThird.fc.pos.toNat ∧
    writtenBelow fcThird.fc.v fcThird.fc.pos.toNat := by
  unfold writtenBelow
  decide

/-- SE in its first frame, and inside a later one. -/
theorem test_witness_FcPixChainedFrameIsPushedIntoSe :
    ∀ se ∈ [seFirst.se, seLater.se],
      dimsOk { fcChained with se := se } = true ∧ fcChained.fc.pos.toNat + 1 = npix fcChained ∧
      fcChained.ctl.chain = true ∧ writtenBelow fcChained.fc.y fcChained.fc.pos.toNat ∧
      writtenBelow fcChained.fc.u fcChained.fc.pos.toNat ∧ writtenBelow fcChained.fc.v fcChained.fc.pos.toNat ∧
      se.pos.toNat < frameLen fcChained ∧ writtenBelow se.cur se.pos.toNat ∧
      (se.first = false → writtenBelow se.prev (frameLen fcChained)) := by
  unfold writtenBelow
  decide

theorem test_witness_DeltaCodingIsInvertibleOverFrames : [10#8, 0#8].length = [250#8, 255#8].length := by decide

theorem test_witness_RlePushRunsAndCap :
    State.reset.rle.active = false ∧ (rleOpen 254#8).rle.active = true ∧ 7#8 = (rleOpen 254#8).rle.val ∧
    (rleOpen 254#8).rle.cnt.toNat < 255 ∧ (rleOpen 255#8).rle.cnt = 255#8 ∧ 9#8 ≠ (rleOpen 3#8).rle.val := by decide

theorem test_witness_RleEndFlushesTheRun : (rleOpen 1#8).rle.active = true ∧ small.rle.active = false := by decide

theorem test_witness_RunLengthCountsAndMaximalRuns :
    (2#8, 7#8) ∈ pairsOf (rleEncode [7#8, 7#8, 9#8]) ∧
    (pairsOf (rleEncode [7#8, 7#8, 9#8]))[0]? = some (2#8, 7#8) ∧
    (pairsOf (rleEncode [7#8, 7#8, 9#8]))[1]? = some (1#8, 9#8) := by decide

theorem test_witness_RleOperationsComputeRleEncode : fcThird.rle.active = false := by decide

/-- One byte past XLEN, exactly XLEN, and after the flag. -/
theorem test_witness_RldPairExpandsOrOverruns :
    rldOver.rld.overrun = true ∧ rldFive.rld.overrun = false ∧
    rldFive.ctl.xlen.toNat < rldFive.rld.tally.toNat + (2#8).toNat ∧
    rldFive.rld.tally.toNat + (1#8).toNat ≤ rldFive.ctl.xlen.toNat := by decide

theorem test_witness_RldEndDeliversOrRefuses :
    rldOver.rld.overrun = true ∧ rldFive.rld.overrun = false ∧ rldFive.rld.tally ≠ rldFive.ctl.xlen ∧
    rldSix.rld.overrun = false ∧ rldSix.rld.tally = rldSix.ctl.xlen := by decide

theorem test_witness_RldOperationsComputeRleDecode :
    State.reset.rld = { tally := 0#40, overrun := false, buf := [] } ∧
    rleDecode [(2#8, 1#8)] 2 = some [1#8, 1#8] ∧ rleDecode [(2#8, 1#8)] 3 = none := by decide

theorem test_witness_SePushStoresAByte :
    dimsOk small = true ∧ small.se.pos.toNat + 1 < frameLen small := by decide

theorem test_witness_SePushLastByteEmitsTheFrame :
    ∀ s ∈ [seFirst, seLater],
      dimsOk s = true ∧ s.se.pos.toNat + 1 = frameLen s ∧ writtenBelow s.se.cur s.se.pos.toNat ∧
      (s.se.first = false → writtenBelow s.se.prev (frameLen s)) := by
  unfold writtenBelow
  decide

theorem test_witness_EncoderComputesStreamEncode :
    dimsOk small = true ∧ small.se.first = true ∧ small.se.pos = 0#34 ∧
    ∀ f ∈ [[1#8, 2#8, 3#8, 4#8, 5#8, 6#8], [2#8, 3#8, 4#8, 5#8, 5#8, 6#8]], f.length = frameLen small := by decide

theorem test_witness_SdPushRawByte :
    dimsOk small = true ∧ small.sd.mode = .rawFrame ∧ small.sd.acc.length = small.sd.tally.toNat ∧
    small.sd.tally.toNat + 1 < frameLen small ∧ dimsOk sdRawFive = true ∧ sdRawFive.sd.mode = .rawFrame ∧
    sdRawFive.sd.acc.length = sdRawFive.sd.tally.toNat ∧ sdRawFive.sd.tally.toNat + 1 = frameLen sdRawFive := by decide

/-- The count that makes the tally `L` and the first one above it. -/
theorem test_witness_SdPushCountByte :
    dimsOk sdCounting = true ∧ sdCounting.sd.mode = .rlePair ∧ sdCounting.sd.phase = false ∧
    sdCounting.sd.tally.toNat + (2#8).toNat ≤ frameLen sdCounting ∧
    frameLen sdCounting < sdCounting.sd.tally.toNat + (3#8).toNat := by decide

theorem test_witness_SdPushValueByte :
    ∀ s ∈ [sdInside, sdValuing],
      dimsOk s = true ∧ s.sd.mode = .rlePair ∧ s.sd.phase = true ∧ s.sd.acc.length % 2 = 1 ∧
      countSum s.sd.acc = s.sd.tally.toNat ∧ writtenBelow s.sd.prev (frameLen s) ∧
      (s = sdInside → s.sd.tally.toNat ≠ frameLen s) ∧ (s = sdValuing → s.sd.tally.toNat = frameLen s) := by
  unfold writtenBelow
  decide

theorem test_witness_SdEndJudgesTheStream :
    sdFailed.sd.mode = .failed ∧ small.sd.mode ≠ .failed ∧ small.sd.acc = [] ∧ sdValuing.sd.mode ≠ .failed ∧
    sdValuing.sd.acc ≠ [] ∧ sdValuing.sd.mode = .rlePair ∧ sdValuing.sd.phase = true ∧
    sdValuing.sd.tally.toNat = frameLen sdValuing ∧ sdCounting.sd.acc ≠ [] ∧ sdCounting.sd.phase = false := by decide

theorem test_witness_DecoderComputesStreamDecode :
    dimsOk small = true ∧ sdIdle small.sd ∧ (streamDecode 6 [1#8, 2#8]).failure = some (2#8, 0) ∧
    (streamDecode 6 [1#8, 2#8, 3#8, 4#8, 5#8, 6#8, 6#8, 0#8]).failure = none := by
  unfold sdIdle
  decide

theorem test_witness_StreamRoundTrip :
    dimsOk small = true ∧ sdIdle small.sd ∧
    ∀ f ∈ [[1#8, 2#8, 3#8, 4#8, 5#8, 6#8], [1#8, 2#8, 3#8, 4#8, 5#8, 6#8]], f.length = frameLen small := by
  unfold sdIdle
  decide

/-- The bounded form of `sdValuing`. -/
def boundedValuing : SdBounded :=
  { mode := .rlePair, phase := true, tally := 6#34, idx := 1#32, fsub := 0#8, fidx := 0#32, raw := [],
    exp := [1#8, 1#8, 1#8, 1#8], pend := 2#8, dirty := true, prev := counting 6 }

theorem test_witness_BoundedDecoderIsEquivalent :
    Inv sdValuing ∧ boundedValuing.StandsFor sdValuing.sd ∧ dimsOk sdValuing = true :=
  ⟨inv_sdValuing,
    ⟨rfl, rfl, rfl, rfl, rfl, rfl, rfl, rfl, fun h => absurd h (by decide), fun _ => (by decide), fun _ _ => rfl⟩,
    (by decide)⟩

/-- The largest legal size. -/
theorem test_witness_ParametersAndDerivedQuantities : dimsOk (sized 65534#16 65534#16) = true := by decide

/-- A 2x2 RGB frame, and a byte count that is no multiple of 3. -/
theorem test_witness_RgbFrameIsItsPixels :
    [255#8, 0#8, 0#8, 0#8, 255#8, 0#8, 0#8, 0#8, 255#8, 255#8, 255#8, 255#8].length = rgbLen small ∧
    [1#8, 2#8, 3#8, 4#8].length % 3 ≠ 0 := by decide

/-- R4, R42: 24 bytes of RGB for 4x2, the size of V0.7. -/
theorem test_rgb_length : rgbLen (sized 4#16 2#16) = 24 ∧ frameLen (sized 4#16 2#16) = 12 := by decide

end Sys2Proof.Tests
end

section
/-! Proofs for the family of 00_scope.md: the derived quantities of rule R4 and the step of rule R8. -/

namespace Sys2Proof.Machine

/-! ### The parameters of R4 -/

/-- `L_MAX` is the frame length of the largest even `DIM_BITS` size, so it restricts nothing further. -/
theorem params_lMax_eq_formula : Config.params.lMax = 3 * (2 ^ 16 - 2) ^ 2 / 2 := by
  rw [Config.params_lMax]
  norm_num

/-! ### Sizes of a legal frame -/

/-- NC is exact: the division by 4 leaves no remainder (R4). -/
theorem four_mul_ncOf {w h : Nat} (hl : dimsLegal w h = true) : 4 * ncOf w h = npixOf w h := by
  obtain ⟨a, b, -, -, -, -, hn, hc, -⟩ := sizes_of_legal hl
  rw [hn, hc]

/-- `npixOf` is two thirds of a length that `L_MAX` bounds, which is sharper than `npix_lt`. -/
theorem npixOf_lt_two_pow_32 {w h : Nat} (hl : dimsLegal w h = true) : npixOf w h < 2 ^ 32 := by
  obtain ⟨-, -, -, -, hmax⟩ := (dimsLegal_iff w h).mp hl
  obtain ⟨a, b, -, -, -, -, hn, -, hL⟩ := sizes_of_legal hl
  omega

/-- 65535 is odd, so an even size register is at most 65534. -/
theorem dim_le_of_even (d : Dim) (heven : d.toNat % 2 = 0) : d.toNat ≤ 65534 := by
  have hlt : d.toNat < 2 ^ 16 := d.isLt
  omega

theorem dimsOk_iff (s : State) :
    dimsOk s = true ↔
      s.ctl.width.toNat ≠ 0 ∧ s.ctl.height.toNat ≠ 0 ∧ s.ctl.width.toNat % 2 = 0 ∧ s.ctl.height.toNat % 2 = 0 ∧
        3 * s.ctl.width.toNat * s.ctl.height.toNat / 2 ≤ 6442057734 :=
  dimsLegal_iff s.ctl.width.toNat s.ctl.height.toNat

theorem dims_le_of_dimsOk {s : State} (hd : dimsOk s = true) :
    s.ctl.width.toNat ≤ 65534 ∧ s.ctl.height.toNat ≤ 65534 := by
  obtain ⟨-, -, hw, hh, -⟩ := (dimsOk_iff s).mp hd
  exact ⟨dim_le_of_even _ hw, dim_le_of_even _ hh⟩

/-- Every counter and register lies below the power of two of its width, the widths being R4's numbers. -/
theorem state_registers_lt (s : State) :
    s.ctl.width.toNat < 2 ^ 16 ∧ s.ctl.height.toNat < 2 ^ 16 ∧ s.ctl.xlen.toNat < 2 ^ 40 ∧
      s.rld.tally.toNat < 2 ^ 40 ∧ s.fc.pos.toNat < 2 ^ 34 ∧ s.se.pos.toNat < 2 ^ 34 ∧ s.sd.tally.toNat < 2 ^ 34 ∧
      s.fc.idx.toNat < 2 ^ 32 ∧ s.se.idx.toNat < 2 ^ 32 ∧ s.sd.idx.toNat < 2 ^ 32 :=
  ⟨s.ctl.width.isLt, s.ctl.height.isLt, s.ctl.xlen.isLt, s.rld.tally.isLt, s.fc.pos.isLt, s.se.pos.isLt,
    s.sd.tally.isLt, s.fc.idx.isLt, s.se.idx.isLt, s.sd.idx.isLt⟩

/-- The bounds of R4: the slack of 254 is one more run of the stream decoder, which `LEN_BITS` still holds (R149). -/
theorem sizes_of_dimsOk {s : State} (hd : dimsOk s = true) :
    4 * chromaLen s = npix s ∧ frameLen s = npix s + 2 * chromaLen s ∧ s.ctl.width.toNat ≤ 65534 ∧
      s.ctl.height.toNat ≤ 65534 ∧ npix s < 2 ^ 32 ∧ frameLen s < 2 ^ 33 ∧ frameLen s + 254 < 2 ^ 34 ∧
      rgbLen s < 2 ^ 34 := by
  obtain ⟨hw, hh⟩ := dims_le_of_dimsOk hd
  have hL : frameLen s < 2 ^ 33 := frameLen_lt hd
  exact ⟨four_mul_ncOf hd, lenOf_eq hd, hw, hh, npixOf_lt_two_pow_32 hd, hL, by omega, rgbLen_lt hd⟩

/-- Settles O54: the constants and the defining formulas are the model's own definitions; the ranges come from the
widths of the registers and the bounds from `sizes_of_dimsOk`. -/
theorem parametersAndDerivedQuantities : Obligations.ParametersAndDerivedQuantities :=
  ⟨rfl, ⟨params_lMax_eq_formula, Config.params_lMax⟩, Config.params_runCap, Config.params_qy, Config.params_qc,
    Config.params_k, fun s =>
      ⟨state_registers_lt s, dimsOk_iff s, rfl, rfl, rfl, rfl, sizes_of_dimsOk⟩⟩

/-! ### A step by its oldest host event -/

theorem nextEvent_of_inputs {s : State} {e : HostEvent} {rest : List HostEvent} (hq : s.inputs = e :: rest) :
    nextEvent s = some (e, { s with inputs := rest }) := by
  simp only [nextEvent, hq]

theorem runWord_of_decode {w : Cmd} {i : Instr} (hd : decode w = .ok i) (s : State) : runWord w s = exec i s := by
  simp only [runWord, hd]

theorem step_of_command {s : State} {w : Cmd} {rest : List HostEvent} (hq : s.inputs = .command w :: rest) :
    step s = runWord w { s with inputs := rest } := by
  simp only [step, nextEvent_of_inputs hq]

/-- Settles O5: the step takes the word off the queue (`step_of_command`) and runs what it decodes to
(`runWord_of_decode`). -/
theorem stepRunsTheDecodedOperation : Obligations.StepRunsTheDecodedOperation := by
  intro w i rest s hq hd
  rw [step_of_command hq, runWord_of_decode hd]

end Sys2Proof.Machine
end

section
/-! Proofs for the family of 10_state.md: what every operation answers, leaves unchanged and does not read; what RDCR
reads; and the invariant of R28, under which no step stops. -/

namespace Sys2Proof.Machine

/-! ### What each operation answers -/

/-- RDCR raises for a reserved number, else it answers a value, and writes no state (R171). -/
theorem execRdcr_cases (cr : Byte) (s : State) :
    execRdcr cr s = .next (raise .illegalCommand .sys 3#8 0#32 s) ∨
      ∃ v, execRdcr cr s = .next (respondOk v s) := by
  unfold execRdcr
  split
  · exact .inl rfl
  · exact .inr ⟨_, rfl⟩

/-- WRCR raises, or writes one register with the reinitialisations of R173. -/
theorem execWrcr_cases (cr : Byte) (imm : XWord) (s : State) :
    (∃ sub, execWrcr cr imm s = .next (raise .illegalCommand .sys sub 0#32 s)) ∨
    ((cr = 0x01#8 ∨ cr = 0x02#8) ∧ ∃ w h, execWrcr cr imm s =
      .next (respondOk 0#40 (reinitFrameUnits { s with ctl := { s.ctl with width := w, height := h } }))) ∨
    (cr = 0x04#8 ∧ ∃ x, execWrcr cr imm s =
      .next (respondOk 0#40 (reinitRld { s with ctl := { s.ctl with xlen := x } }))) ∨
    (cr = 0x05#8 ∧ ∃ c, execWrcr cr imm s =
      .next (respondOk 0#40 { s with ctl := { s.ctl with chain := c } })) := by
  unfold execWrcr
  rcases writeCheck_cases cr imm with ⟨-, hw⟩ | ⟨-, -, -, -, -, hw⟩ | ⟨rfl, hw⟩ | ⟨rfl, hw⟩ | ⟨rfl, hw⟩ | ⟨rfl, hw⟩
  · exact .inl ⟨_, by rw [hw]⟩
  · exact .inl ⟨_, by rw [hw]⟩
  · split at hw
    · exact .inr (.inl ⟨.inl rfl, _, _, by rw [hw]⟩)
    · exact .inl ⟨_, by rw [hw]⟩
  · split at hw
    · exact .inr (.inl ⟨.inr rfl, _, _, by rw [hw]⟩)
    · exact .inl ⟨_, by rw [hw]⟩
  · exact .inr (.inr (.inl ⟨rfl, _, by rw [hw]⟩))
  · split at hw
    · exact .inr (.inr (.inr ⟨rfl, _, by rw [hw]⟩))
    · exact .inl ⟨_, by rw [hw]⟩

/-- RLE.PUSH leaves a run of at least one byte open, having emitted the run it closed, if it closed one (R113). -/
theorem execRlePush_cases (b : Byte) (s : State) :
    ∃ bytes rle, rle.cnt ≠ 0#8 ∧
      execRlePush b s = .next (respondOk 0#40 { emit .rle bytes s with rle := rle }) := by
  unfold execRlePush
  split
  · exact ⟨[], { active := true, val := b, cnt := 1#8 }, by simp, by simp [emit]⟩
  · split
    · rename_i h
      refine ⟨[], { s.rle with cnt := s.rle.cnt + 1#8 }, ?_, by simp [emit]⟩
      have := h.2
      rw [Config.params_runCap] at this
      bv_omega
    · exact ⟨_, _, by simp, rfl⟩

/-- RLD.PAIR ignores the pair, sets the flag, or appends the expansion while it fits XLEN (R121). -/
theorem execRldPair_cases (c v : Byte) (s : State) :
    execRldPair c v s = .next (respondOk 0#40 s) ∨
    execRldPair c v s = .next (respondOk 0#40 { s with rld := { s.rld with overrun := true } }) ∨
    (s.rld.tally.toNat + c.toNat ≤ s.ctl.xlen.toNat ∧ execRldPair c v s = .next (respondOk 0#40
      { s with rld := { s.rld with buf := s.rld.buf ++ List.replicate c.toNat v,
                                   tally := s.rld.tally + c.setWidth 40 } })) := by
  unfold execRldPair
  split
  · exact .inl rfl
  · split
    · exact .inr (.inl rfl)
    · exact .inr (.inr ⟨by omega, rfl⟩)

/-- RLD.END leaves the unit idle, having raised or delivered the expansion (R122). -/
theorem execRldEnd_cases (s : State) :
    (∃ sub, execRldEnd s = .next (raise .lengthMismatch .rld sub 0#32 (reinitRld s))) ∨
      execRldEnd s = .next (respondOk 0#40 (reinitRld (emit .rld s.rld.buf s))) := by
  unfold execRldEnd
  split
  · exact .inl ⟨_, rfl⟩
  · split
    · exact .inl ⟨_, rfl⟩
    · exact .inr rfl

/-- FC.PIX raises for an illegal size, else it answers what its body does (R87). -/
theorem execFcPix_next_iff {r g b : Byte} {s t : State} :
    execFcPix r g b s = .next t ↔
      (dimsOk s = false ∧ t = raise .invalidDimensions .fc (dimsSub s) s.fc.idx s) ∨
      (dimsOk s = true ∧ ∃ u, fcPixel r g b s = .ok u ∧ t = respondOk 0#40 u) := by
  unfold execFcPix
  cases hd : dimsOk s with
  | false => simp [eq_comm]
  | true => cases hp : fcPixel r g b s <;> simp [eq_comm]

/-- SE.PUSH raises for an illegal size, else it answers what `se_push` does (R132). -/
theorem execSePush_next_iff {b : Byte} {s t : State} :
    execSePush b s = .next t ↔
      (dimsOk s = false ∧ t = raise .invalidDimensions .se (dimsSub s) s.se.idx s) ∨
      (dimsOk s = true ∧ ∃ u, sePushByte b s = .ok u ∧ t = respondOk 0#40 u) := by
  unfold execSePush
  cases hd : dimsOk s with
  | false => simp [eq_comm]
  | true => cases hp : sePushByte b s <;> simp [eq_comm]

/-- SD.PUSH raises for an illegal size, else it answers what its sub-step does (R150). -/
theorem execSdPush_next_iff {b : Byte} {s t : State} :
    execSdPush b s = .next t ↔
      (dimsOk s = false ∧ t = raise .invalidDimensions .sd (dimsSub s) s.sd.idx s) ∨
      (dimsOk s = true ∧ sdPushByte b s = .ok t) := by
  unfold execSdPush finish
  cases hd : dimsOk s with
  | false => simp [eq_comm]
  | true => cases hp : sdPushByte b s <;> simp

/-- What SD.PUSH's sub-step answers in each mode (R150): the latched failure again, or what the step of the byte's
kind does. -/
theorem sdPushByte_ok_iff {b : Byte} {s t : State} :
    sdPushByte b s = .ok t ↔
      (s.sd.mode = .failed ∧ t = raise .corruptStream .sd s.sd.fsub s.sd.fidx s) ∨
      (s.sd.mode = .rawFrame ∧ sdRaw b s = .ok t) ∨
      (s.sd.mode = .rlePair ∧ s.sd.phase = true ∧ sdValue b s = .ok t) ∨
      (s.sd.mode = .rlePair ∧ s.sd.phase = false ∧ t = sdCount b s) := by
  unfold sdPushByte
  cases hm : s.sd.mode with
  | failed => simp [eq_comm (a := t)]
  | rawFrame => simp
  | rlePair => cases hp : s.sd.phase <;> simp [eq_comm]

/-- SD.END repeats a latched failure, is clean, or fails (R155). -/
theorem execSdEnd_cases (s : State) :
    (s.sd.mode = .failed ∧ execSdEnd s = .next (raise .corruptStream .sd s.sd.fsub s.sd.fidx s)) ∨
    (s.sd.mode ≠ .failed ∧ s.sd.acc = [] ∧ execSdEnd s = .next (respondOk 0#40 (reinitSd s))) ∨
    (s.sd.mode ≠ .failed ∧ s.sd.acc ≠ [] ∧
      ∃ sub, (sub = 2#8 ∨ sub = 3#8) ∧ execSdEnd s = .next (sdFail sub s)) := by
  unfold execSdEnd
  split
  · exact .inl ⟨‹_›, rfl⟩
  · split
    · exact .inr (.inl ⟨‹_›, ‹_›, rfl⟩)
    · refine .inr (.inr ⟨‹_›, ‹_›, ?_⟩)
      split
      · exact ⟨_, .inr rfl, rfl⟩
      · exact ⟨_, .inl rfl, rfl⟩

/-! ### What an operation leaves unchanged (R15, R16) -/

/-- `t` is `s` but for the units that the operation may write, the record, OUT and the response; the control registers
are WRCR's alone. -/
structure Isolated (i : Instr) (s t : State) : Prop where
  fc : mayWrite .fc s.ctl.chain i = false → t.fc = s.fc
  rle : mayWrite .rle s.ctl.chain i = false → t.rle = s.rle
  rld : mayWrite .rld s.ctl.chain i = false → t.rld = s.rld
  se : mayWrite .se s.ctl.chain i = false → t.se = s.se
  sd : mayWrite .sd s.ctl.chain i = false → t.sd = s.sd
  ctl : (∀ cr imm, i ≠ .wrcr cr imm) → t.ctl = s.ctl
  inputs : t.inputs = s.inputs

/-- A raise writes no unit, so it is isolated whatever the operation. -/
theorem isolated_raise (i : Instr) (e : ErrKind) (u : UnitCode) (sub : Byte) (idx : Idx) (s : State) :
    Isolated i s (raise e u sub idx s) := by
  constructor <;> simp

theorem execWrcr_isolated {cr : Byte} {imm : XWord} {s t : State} (h : execWrcr cr imm s = .next t) :
    Isolated (.wrcr cr imm) s t := by
  rcases execWrcr_cases cr imm s with ⟨sub, e⟩ | ⟨hcr, w, hh, e⟩ | ⟨rfl, x, e⟩ | ⟨rfl, c, e⟩ <;> cases e.symm.trans h
  · exact isolated_raise _ _ _ _ _ _
  · rcases hcr with rfl | rfl <;> constructor <;> simp [mayWrite, reinitFrameUnits]
  · constructor <;> simp [mayWrite]
  · constructor <;> simp [mayWrite]

/-- The body of FC.PIX writes unit FC, and unit SE when CHAIN is 1 (R87, R90). -/
theorem fcPixel_frame {r g b : Byte} {s t : State} (h : fcPixel r g b s = .ok t) :
    ∃ bs, t = { s with fc := t.fc, se := t.se, out := s.out ++ bs } ∧ (s.ctl.chain = false → t.se = s.se) := by
  obtain ⟨-, ⟨-, rfl⟩ | ⟨-, frame, -, hdel⟩⟩ := fcPixel_ok_iff.mp h
  · exact ⟨[], by simp, fun _ => rfl⟩
  · obtain ⟨bs, ht, -, hse⟩ := fcDeliver_frame hdel
    exact ⟨bs, by rw [ht], hse⟩

theorem execFcPix_isolated {r g b : Byte} {s t : State} (h : execFcPix r g b s = .next t) :
    Isolated (.fcPix r g b) s t := by
  obtain ⟨-, rfl⟩ | ⟨-, u, hu, rfl⟩ := execFcPix_next_iff.mp h
  · exact isolated_raise _ _ _ _ _ _
  · obtain ⟨bs, hframe, hse⟩ := fcPixel_frame hu
    constructor
    case se => simpa [mayWrite] using hse
    all_goals rw [hframe]; simp [mayWrite]

theorem execSePush_isolated {b : Byte} {s t : State} (h : execSePush b s = .next t) : Isolated (.sePush b) s t := by
  obtain ⟨-, rfl⟩ | ⟨-, u, hu, rfl⟩ := execSePush_next_iff.mp h
  · exact isolated_raise _ _ _ _ _ _
  · obtain ⟨bs, hframe, -⟩ := sePushByte_frame hu
    constructor <;> rw [hframe] <;> simp [mayWrite]

theorem execSdPush_isolated {b : Byte} {s t : State} (h : execSdPush b s = .next t) : Isolated (.sdPush b) s t := by
  obtain ⟨-, rfl⟩ | ⟨-, hu⟩ := execSdPush_next_iff.mp h
  · exact isolated_raise _ _ _ _ _ _
  · obtain ⟨bs, hframe, -⟩ := sdPushByte_frame hu
    constructor <;> rw [hframe] <;> simp [mayWrite]

theorem exec_isolated {i : Instr} {s t : State} (h : exec i s = .next t) : Isolated i s t := by
  cases i with
  | rdcr cr =>
    rcases execRdcr_cases cr s with e | ⟨v, e⟩ <;> cases e.symm.trans h
    · exact isolated_raise _ _ _ _ _ _
    · constructor <;> simp
  | wrcr cr imm => exact execWrcr_isolated h
  | init => cases h; constructor <;> simp [mayWrite]
  | fcPix r g b => exact execFcPix_isolated h
  | fcEnd => cases h; constructor <;> simp [mayWrite]
  | dltSub a b => cases h; constructor <;> simp
  | dltAdd d b => cases h; constructor <;> simp
  | rlePush b =>
    obtain ⟨bytes, rle, -, e⟩ := execRlePush_cases b s
    cases e.symm.trans h
    constructor <;> simp [mayWrite]
  | rleEnd => cases h; split <;> constructor <;> simp [mayWrite]
  | rldPair c v =>
    rcases execRldPair_cases c v s with e | e | ⟨-, e⟩ <;> cases e.symm.trans h
    all_goals constructor <;> simp [mayWrite]
  | rldEnd =>
    rcases execRldEnd_cases s with ⟨sub, e⟩ | e <;> cases e.symm.trans h
    all_goals constructor <;> simp [mayWrite]
  | sePush b => exact execSePush_isolated h
  | seEnd => cases h; constructor <;> simp [mayWrite]
  | sdPush b => exact execSdPush_isolated h
  | sdEnd =>
    rcases execSdEnd_cases s with ⟨-, e⟩ | ⟨-, -, e⟩ | ⟨-, -, sub, -, e⟩ <;> cases e.symm.trans h
    · exact isolated_raise _ _ _ _ _ _
    · constructor <;> simp [mayWrite]
    · constructor <;> simp [mayWrite]

/-- Settles O16, by `exec_isolated`. -/
theorem unitsDoNotDisturbEachOther : Obligations.UnitsDoNotDisturbEachOther := by
  intro i s t h
  obtain ⟨hfc, hrle, hrld, hse, hsd, hctl, hinputs⟩ := exec_isolated h
  exact ⟨hfc, hrle, hrld, hse, hsd, hctl, hinputs⟩

/-! ### The response and the error record (R7, R190) -/

/-- How an operation other than INIT ends: with an OK, the record untouched until then, or with a raise. -/
inductive Answered (s : State) : State → Prop where
  | ok (val : XWord) (u : State) (herr : u.err = s.err) : Answered s (respondOk val u)
  | raised (e : ErrKind) (stage : UnitCode) (sub : Byte) (idx : Idx) (u : State) (herr : u.err = s.err) :
      Answered s (raise e stage sub idx u)

theorem sdPushByte_answered {b : Byte} {s t : State} (h : sdPushByte b s = .ok t) : Answered s t := by
  obtain ⟨-, rfl⟩ | ⟨-, h⟩ | ⟨-, -, h⟩ | ⟨-, -, rfl⟩ := sdPushByte_ok_iff.mp h
  · exact .raised _ _ _ _ _ rfl
  · obtain ⟨-, rfl⟩ | ⟨-, -, rfl⟩ := sdRaw_ok_iff.mp h <;> exact .ok _ _ rfl
  · obtain ⟨-, rfl⟩ | ⟨-, frame, -, rfl⟩ := sdValue_ok_iff.mp h <;> exact .ok _ _ rfl
  · rw [sdCount_eq]
    split
    · exact .raised _ _ _ _ _ rfl
    · exact .ok _ _ rfl

theorem exec_answered {i : Instr} {s t : State} (h : exec i s = .next t) (hi : i ≠ .init) : Answered s t := by
  cases i with
  | rdcr cr =>
    rcases execRdcr_cases cr s with e | ⟨v, e⟩ <;> cases e.symm.trans h
    · exact .raised _ _ _ _ _ rfl
    · exact .ok _ _ rfl
  | wrcr cr imm =>
    rcases execWrcr_cases cr imm s with ⟨sub, e⟩ | ⟨-, w, hh, e⟩ | ⟨-, x, e⟩ | ⟨-, c, e⟩ <;> cases e.symm.trans h
    · exact .raised _ _ _ _ _ rfl
    all_goals exact .ok _ _ rfl
  | init => exact absurd rfl hi
  | fcPix r g b =>
    obtain ⟨-, rfl⟩ | ⟨-, u, hu, rfl⟩ := execFcPix_next_iff.mp h
    · exact .raised _ _ _ _ _ rfl
    · obtain ⟨bs, hframe, -⟩ := fcPixel_frame hu
      exact .ok _ _ (by rw [hframe])
  | fcEnd => cases h; exact .ok _ _ rfl
  | dltSub a b => cases h; exact .ok _ _ rfl
  | dltAdd d b => cases h; exact .ok _ _ rfl
  | rlePush b =>
    obtain ⟨bytes, rle, -, e⟩ := execRlePush_cases b s
    cases e.symm.trans h
    exact .ok _ _ rfl
  | rleEnd => cases h; exact .ok _ _ (by split <;> rfl)
  | rldPair c v =>
    rcases execRldPair_cases c v s with e | e | ⟨-, e⟩ <;> cases e.symm.trans h <;> exact .ok _ _ rfl
  | rldEnd =>
    rcases execRldEnd_cases s with ⟨sub, e⟩ | e <;> cases e.symm.trans h
    · exact .raised _ _ _ _ _ rfl
    · exact .ok _ _ rfl
  | sePush b =>
    obtain ⟨-, rfl⟩ | ⟨-, u, hu, rfl⟩ := execSePush_next_iff.mp h
    · exact .raised _ _ _ _ _ rfl
    · obtain ⟨bs, hframe, -⟩ := sePushByte_frame hu
      exact .ok _ _ (by rw [hframe])
  | seEnd => cases h; exact .ok _ _ rfl
  | sdPush b =>
    obtain ⟨-, rfl⟩ | ⟨-, hu⟩ := execSdPush_next_iff.mp h
    · exact .raised _ _ _ _ _ rfl
    · exact sdPushByte_answered hu
  | sdEnd =>
    rcases execSdEnd_cases s with ⟨-, e⟩ | ⟨-, -, e⟩ | ⟨-, -, sub, -, e⟩ <;> cases e.symm.trans h
    · exact .raised _ _ _ _ _ rfl
    · exact .ok _ _ rfl
    · exact .raised _ _ _ _ _ rfl

theorem exec_rsp_isSome {i : Instr} {s t : State} (h : exec i s = .next t) : t.rsp.isSome = true := by
  by_cases hi : i = .init
  · subst hi; cases h; rfl
  · cases exec_answered h hi <;> rfl

theorem errCode_ne_zero (e : ErrKind) : errCode e ≠ 0#8 := by
  cases e <;> decide

/-- The record after an operation other than INIT is its response, if that is the first error (R14, R190). -/
theorem Answered.err_eq {s t : State} {r : Response} (h : Answered s t) (hr : t.rsp = some r) :
    t.err =
      if s.err.code = 0#8 ∧ r.code ≠ 0#8 then
        { code := r.code, stage := r.stage, sub := r.sub, idx := r.val.setWidth 32 }
      else s.err := by
  cases h with
  | ok val u herr =>
    cases hr
    simp [herr]
  | raised e stage sub idx u herr =>
    cases hr
    simp [raise_err, herr, errCode_ne_zero]

/-- Settles O13: an operation other than INIT ends as `Answered` says; INIT clears the record by its definition. -/
theorem errorRecordKeepsTheFirstError : Obligations.ErrorRecordKeepsTheFirstError := by
  intro i s t r h hr
  refine ⟨fun hi => (exec_answered h hi).err_eq hr, ?_, by simp [errPin]⟩
  rintro rfl
  cases h
  rfl

/-! ### OUT and the response are not read (R24, R25) -/

/-- The state with the beats `pre` before its own on OUT. -/
def prependOut (pre : List Beat) (s : State) : State := { s with out := pre ++ s.out }

/-- The state as another host would have it: `pre` before its beats on OUT, and `r` as the last response. -/
def withHostSide (pre : List Beat) (r : Option Response) (s : State) : State := { prependOut pre s with rsp := r }

/-- A change of the next state. -/
def mapNext (f : State → State) : Host.Outcome State Fault Refusal → Host.Outcome State Fault Refusal
  | .next s => .next (f s)
  | .fault e => .fault e
  | .refused r => .refused r

section
variable (pre : List Beat) (r : Option Response) (s : State)

@[simp] theorem mapNext_next (f : State → State) : mapNext f (.next s) = .next (f s) := rfl

@[simp] theorem withHostSide_ctl : (withHostSide pre r s).ctl = s.ctl := rfl
@[simp] theorem withHostSide_rle : (withHostSide pre r s).rle = s.rle := rfl
@[simp] theorem withHostSide_rld : (withHostSide pre r s).rld = s.rld := rfl
@[simp] theorem withHostSide_fc : (withHostSide pre r s).fc = s.fc := rfl
@[simp] theorem withHostSide_se : (withHostSide pre r s).se = s.se := rfl
@[simp] theorem withHostSide_sd : (withHostSide pre r s).sd = s.sd := rfl
@[simp] theorem dimsOk_withHostSide : dimsOk (withHostSide pre r s) = dimsOk s := rfl
@[simp] theorem dimsSub_withHostSide : dimsSub (withHostSide pre r s) = dimsSub s := rfl
@[simp] theorem npix_withHostSide : npix (withHostSide pre r s) = npix s := rfl
@[simp] theorem frameLen_withHostSide : frameLen (withHostSide pre r s) = frameLen s := rfl
@[simp] theorem frameW_withHostSide : frameW (withHostSide pre r s) = frameW s := rfl
@[simp] theorem frameH_withHostSide : frameH (withHostSide pre r s) = frameH s := rfl

@[simp] theorem respondOk_withHostSide (val : XWord) :
    respondOk val (withHostSide pre r s) = prependOut pre (respondOk val s) := rfl

@[simp] theorem raise_withHostSide (e : ErrKind) (u : UnitCode) (sub : Byte) (idx : Idx) :
    raise e u sub idx (withHostSide pre r s) = prependOut pre (raise e u sub idx s) := by
  simp only [raise_eq_raised]
  rfl

theorem emit_withHostSide (src : UnitCode) (bytes : List Byte) :
    emit src bytes (withHostSide pre r s) = withHostSide pre r (emit src bytes s) := by
  simp [emit, withHostSide, prependOut]

/-! The computations that can fault: each commutes with the host's side. -/

theorem seFrame_withHostSide : seFrame (withHostSide pre r s) = (seFrame s).map (withHostSide pre r) := by
  unfold seFrame
  simp only [frameLen_withHostSide, withHostSide_se, emit_withHostSide]
  cases bufReadAll .seCur (frameLen s) s.se.cur with
  | error e => rfl
  | ok cur =>
    dsimp only
    cases seFrameBytes (frameLen s) s.se cur <;> rfl

theorem sePushByte_withHostSide (b : Byte) :
    sePushByte b (withHostSide pre r s) = (sePushByte b s).map (withHostSide pre r) := by
  unfold sePushByte
  rw [frameLen_withHostSide, withHostSide_se]
  cases bufWrite .seCur (frameLen s) s.se.cur s.se.pos.toNat b with
  | error e => rfl
  | ok cur =>
    dsimp only
    by_cases hlt : s.se.pos.toNat + 1 < frameLen s
    · simp only [if_pos hlt]; rfl
    · simp only [if_neg hlt]
      exact seFrame_withHostSide pre r { s with se := { s.se with cur := cur } }

theorem sePushAll_withHostSide (bs : List Byte) :
    sePushAll bs (withHostSide pre r s) = (sePushAll bs s).map (withHostSide pre r) := by
  induction bs generalizing s with
  | nil => rfl
  | cons b bs ih =>
    simp only [sePushAll, sePushByte_withHostSide]
    cases sePushByte b s with
    | error e => rfl
    | ok u => exact ih u

theorem fcDeliver_withHostSide (frame : List Byte) :
    fcDeliver frame (withHostSide pre r s) = (fcDeliver frame s).map (withHostSide pre r) := by
  unfold fcDeliver
  rw [withHostSide_ctl]
  split
  · exact sePushAll_withHostSide pre r s frame
  · exact congrArg _ (emit_withHostSide pre r s .fc frame)

theorem fcFrame_withHostSide : fcFrame (withHostSide pre r s) = (fcFrame s).map (withHostSide pre r) := by
  unfold fcFrame
  simp only [frameW_withHostSide, frameH_withHostSide, withHostSide_fc]
  cases fcPack (frameW s) (frameH s) s.fc with
  | error e => rfl
  | ok frame =>
    exact fcDeliver_withHostSide pre r { s with fc := { s.fc with pos := 0#34, idx := satInc s.fc.idx } } frame

theorem fcStore_withHostSide (x y z : Byte) :
    fcStore x y z (withHostSide pre r s) = (fcStore x y z s).map (withHostSide pre r) := by
  unfold fcStore bufWrite
  rw [npix_withHostSide, withHostSide_fc]
  by_cases hlt : s.fc.pos.toNat < npix s
  · simp only [if_pos hlt]; rfl
  · simp only [if_neg hlt]; rfl

theorem fcPixel_withHostSide (x y z : Byte) :
    fcPixel x y z (withHostSide pre r s) = (fcPixel x y z s).map (withHostSide pre r) := by
  unfold fcPixel
  rw [npix_withHostSide, withHostSide_fc, fcStore_withHostSide]
  cases fcStore x y z s with
  | error e => rfl
  | ok u =>
    dsimp only [Except.map]
    by_cases hlt : s.fc.pos.toNat + 1 < npix s
    · simp only [if_pos hlt]; rfl
    · simp only [if_neg hlt]
      exact fcFrame_withHostSide pre r u

/-! SD's sub-steps answer on their own, so the response they are given is not kept. -/

theorem sdDeliver_withHostSide (frame prev : List Byte) :
    sdDeliver frame prev (withHostSide pre r s) = withHostSide pre r (sdDeliver frame prev s) := by
  simp only [sdDeliver, emit_withHostSide]
  rfl

theorem sdRaw_withHostSide (b : Byte) : sdRaw b (withHostSide pre r s) = (sdRaw b s).map (prependOut pre) := by
  unfold sdRaw
  simp only [frameLen_withHostSide, withHostSide_sd, sdDeliver_withHostSide]
  by_cases hlen : (s.sd.tally + 1#34).toNat = frameLen s
  · simp only [if_pos hlen]
    cases collect (seqRead .sdAcc (s.sd.acc ++ [b])) 0 (frameLen s) <;> rfl
  · simp only [if_neg hlen]; rfl

theorem sdValue_withHostSide (v : Byte) :
    sdValue v (withHostSide pre r s) = (sdValue v s).map (prependOut pre) := by
  unfold sdValue
  simp only [frameLen_withHostSide, withHostSide_sd, sdDeliver_withHostSide]
  by_cases hlen : s.sd.tally.toNat = frameLen s
  · simp only [if_pos hlen]
    cases sdFrame (frameLen s) (s.sd.acc ++ [v]) s.sd.prev <;> rfl
  · simp only [if_neg hlen]; rfl

theorem sdFail_withHostSide (sub : Byte) :
    sdFail sub (withHostSide pre r s) = prependOut pre (sdFail sub s) :=
  raise_withHostSide pre r { s with sd := { s.sd with fsub := sub, fidx := s.sd.idx, mode := .failed } } _ _ _ _

theorem sdCount_withHostSide (c : Byte) : sdCount c (withHostSide pre r s) = prependOut pre (sdCount c s) := by
  rw [sdCount_eq, sdCount_eq, frameLen_withHostSide, withHostSide_sd]
  split
  · exact sdFail_withHostSide pre r
      { s with sd := { s.sd with acc := s.sd.acc ++ [c], tally := s.sd.tally + c.setWidth 34, phase := true } } _
  · rfl

theorem sdPushByte_withHostSide (b : Byte) :
    sdPushByte b (withHostSide pre r s) = (sdPushByte b s).map (prependOut pre) := by
  unfold sdPushByte
  rw [withHostSide_sd]
  cases s.sd.mode with
  | failed => exact congrArg _ (raise_withHostSide pre r s _ _ _ _)
  | rawFrame => exact sdRaw_withHostSide pre r s b
  | rlePair =>
    cases s.sd.phase with
    | true => exact sdValue_withHostSide pre r s b
    | false => exact congrArg _ (sdCount_withHostSide pre r s b)

/-! The operations. -/

theorem execRlePush_withHostSide (b : Byte) :
    execRlePush b (withHostSide pre r s) = mapNext (prependOut pre) (execRlePush b s) := by
  unfold execRlePush
  simp only [withHostSide_rle, emit_withHostSide, apply_ite (mapNext (prependOut pre)), mapNext_next]
  rfl

theorem execRldPair_withHostSide (c v : Byte) :
    execRldPair c v (withHostSide pre r s) = mapNext (prependOut pre) (execRldPair c v s) := by
  unfold execRldPair
  simp only [withHostSide_rld, withHostSide_ctl, apply_ite (mapNext (prependOut pre)), mapNext_next]
  rfl

theorem reinitRld_withHostSide : reinitRld (withHostSide pre r s) = withHostSide pre r (reinitRld s) := rfl

theorem execRldEnd_withHostSide : execRldEnd (withHostSide pre r s) = mapNext (prependOut pre) (execRldEnd s) := by
  unfold execRldEnd
  simp only [withHostSide_rld, withHostSide_ctl, emit_withHostSide, reinitRld_withHostSide, raise_withHostSide,
    respondOk_withHostSide, apply_ite (mapNext (prependOut pre)), mapNext_next]

theorem execSdEnd_withHostSide : execSdEnd (withHostSide pre r s) = mapNext (prependOut pre) (execSdEnd s) := by
  unfold execSdEnd
  simp only [withHostSide_sd, frameLen_withHostSide, raise_withHostSide, sdFail_withHostSide,
    apply_ite (mapNext (prependOut pre)), mapNext_next]
  rfl

theorem execFcPix_withHostSide (x y z : Byte) :
    execFcPix x y z (withHostSide pre r s) = mapNext (prependOut pre) (execFcPix x y z s) := by
  unfold execFcPix
  simp only [dimsOk_withHostSide, dimsSub_withHostSide, withHostSide_fc, fcPixel_withHostSide, raise_withHostSide,
    apply_ite (mapNext (prependOut pre)), mapNext_next]
  cases fcPixel x y z s <;> rfl

theorem execSePush_withHostSide (b : Byte) :
    execSePush b (withHostSide pre r s) = mapNext (prependOut pre) (execSePush b s) := by
  unfold execSePush
  simp only [dimsOk_withHostSide, dimsSub_withHostSide, withHostSide_se, sePushByte_withHostSide, raise_withHostSide,
    apply_ite (mapNext (prependOut pre)), mapNext_next]
  cases sePushByte b s <;> rfl

theorem execSdPush_withHostSide (b : Byte) :
    execSdPush b (withHostSide pre r s) = mapNext (prependOut pre) (execSdPush b s) := by
  unfold execSdPush
  simp only [dimsOk_withHostSide, dimsSub_withHostSide, withHostSide_sd, sdPushByte_withHostSide, raise_withHostSide,
    apply_ite (mapNext (prependOut pre)), mapNext_next]
  cases sdPushByte b s <;> rfl

theorem ctlValue_withHostSide (reg : CtlReg) : ctlValue reg (withHostSide pre r s) = ctlValue reg s := by
  cases reg <;> rfl

theorem execRdcr_withHostSide (cr : Byte) :
    execRdcr cr (withHostSide pre r s) = mapNext (prependOut pre) (execRdcr cr s) := by
  unfold execRdcr
  cases ctlRegOf cr with
  | none => exact congrArg _ (raise_withHostSide pre r s _ _ _ _)
  | some reg =>
    dsimp only
    rw [ctlValue_withHostSide]
    rfl

theorem execWrcr_withHostSide (cr : Byte) (imm : XWord) :
    execWrcr cr imm (withHostSide pre r s) = mapNext (prependOut pre) (execWrcr cr imm s) := by
  unfold execWrcr
  simp only [raise_withHostSide]
  cases writeCheck cr imm <;> rfl

/-- An operation does the same whatever OUT and the response hold: the beats before its own stay before them, and the
old response is gone. -/
theorem exec_withHostSide (i : Instr) :
    exec i (withHostSide pre r s) = mapNext (prependOut pre) (exec i s) := by
  cases i with
  | rdcr cr => exact execRdcr_withHostSide pre r s cr
  | wrcr cr imm => exact execWrcr_withHostSide pre r s cr imm
  | init => rfl
  | fcPix x y z => exact execFcPix_withHostSide pre r s x y z
  | fcEnd => rfl
  | dltSub a b => exact congrArg (fun u => Host.Outcome.next (respondOk 0#40 u)) (emit_withHostSide pre r s _ _)
  | dltAdd d b => exact congrArg (fun u => Host.Outcome.next (respondOk 0#40 u)) (emit_withHostSide pre r s _ _)
  | rlePush b => exact execRlePush_withHostSide pre r s b
  | rleEnd =>
    simp only [exec, execRleEnd, withHostSide_rle, emit_withHostSide]
    split <;> rfl
  | rldPair c v => exact execRldPair_withHostSide pre r s c v
  | rldEnd => exact execRldEnd_withHostSide pre r s
  | sePush b => exact execSePush_withHostSide pre r s b
  | seEnd => rfl
  | sdPush b => exact execSdPush_withHostSide pre r s b
  | sdEnd => exact execSdEnd_withHostSide pre r s

theorem exec_prependOut (i : Instr) : exec i (prependOut pre s) = mapNext (prependOut pre) (exec i s) :=
  exec_withHostSide pre s.rsp s i

end

theorem mapNext_eq_next_iff {f : State → State} {o : Host.Outcome State Fault Refusal} {t : State} :
    mapNext f o = .next t ↔ ∃ u, o = .next u ∧ f u = t := by
  cases o <;> simp [mapNext]

theorem mapNext_id (o : Host.Outcome State Fault Refusal) : mapNext id o = o := by
  cases o <;> rfl

/-- Settles O12: the response is part of the host's side (`exec_withHostSide`), and every end answers
(`exec_rsp_isSome`). -/
theorem noOperationReadsTheResponse : Obligations.NoOperationReadsTheResponse := by
  intro i s r
  refine ⟨?_, fun t h => exec_rsp_isSome h⟩
  exact (exec_withHostSide [] r s i).trans (mapNext_id _)

/-- Settles O11: run from an empty OUT, the operation leaves some beats `bs` there; any other content stands before
them (`exec_prependOut`). -/
theorem operationsOnlyAppendToOut : Obligations.OperationsOnlyAppendToOut := by
  intro i s t h
  have from_empty (o : List Beat) : exec i { s with out := o } =
      mapNext (prependOut o) (exec i { s with out := [] }) := by
    simpa [prependOut] using exec_prependOut o { s with out := [] } i
  obtain ⟨u, hu, rfl⟩ := mapNext_eq_next_iff.mp ((from_empty s.out).symm.trans h)
  exact ⟨u.out, rfl, fun o => by rw [from_empty, hu]; rfl⟩

/-! ### The register file (R12) -/

/-- RDCR of a register that a number names answers its value and changes nothing else (R171). -/
theorem exec_rdcr_of_reg {cr : Byte} {reg : CtlReg} (hreg : ctlRegOf cr = some reg) (s : State) :
    exec (.rdcr cr) s = .next { s with rsp := okReply (ctlValue reg s) } := by
  show execRdcr cr s = _
  simp only [execRdcr, hreg]
  rfl

theorem exec_rdcr_of_reserved {cr : Byte} (hcr : 0x10 < cr.toNat) (s : State) :
    exec (.rdcr cr) s = .next (raised 4#8 0#8 3#8 0#32 s) := by
  show execRdcr cr s = _
  simp only [execRdcr, (ctlRegOf_eq_none_iff cr).mpr hcr, raise_eq_raised]
  rfl

/-- LEN holds every legal frame length, so its 40 bits cut nothing off. -/
theorem lenValue_toNat (s : State) :
    (lenValue s).toNat = if dimsOk s then 3 * s.ctl.width.toNat * s.ctl.height.toNat / 2 else 0 := by
  unfold lenValue
  cases hd : dimsOk s with
  | false => rfl
  | true =>
    have hL : frameLen s < 2 ^ 33 := frameLen_lt hd
    rw [if_pos rfl, if_pos rfl, BitVec.toNat_ofNat, Nat.mod_eq_of_lt (by omega)]
    rfl

theorem ctrlValue_eq (s : State) : ctlValue .ctrl s = if s.ctl.chain then 1#40 else 0#40 := by
  cases hc : s.ctl.chain <;> simp [ctlValue, flagAt, hc]

/-- Settles O22: each number names its register (`exec_rdcr_of_reg`), a number above 0x10 none. -/
theorem rdcrReadsTheRegisterFile : Obligations.RdcrReadsTheRegisterFile := by
  intro s
  have hxlen : s.ctl.xlen.setWidth 40 = s.ctl.xlen := BitVec.setWidth_eq _
  have htally : s.rld.tally.setWidth 40 = s.rld.tally := BitVec.setWidth_eq _
  refine ⟨exec_rdcr_of_reg (reg := .id) rfl s, exec_rdcr_of_reg (reg := .width) rfl s,
    exec_rdcr_of_reg (reg := .height) rfl s,
    ⟨lenValue s, exec_rdcr_of_reg (reg := .len) rfl s, lenValue_toNat s⟩, ?_, ?_,
    exec_rdcr_of_reg (reg := .erridx) rfl s, exec_rdcr_of_reg (reg := .fcPos) rfl s,
    exec_rdcr_of_reg (reg := .fcIdx) rfl s, exec_rdcr_of_reg (reg := .sePos) rfl s,
    exec_rdcr_of_reg (reg := .seIdx) rfl s, exec_rdcr_of_reg (reg := .sdTally) rfl s,
    exec_rdcr_of_reg (reg := .sdIdx) rfl s, ?_, fun cr hcr => exec_rdcr_of_reserved hcr s⟩
  · rw [exec_rdcr_of_reg (reg := .xlen) rfl, ctlValue, hxlen]
  · rw [exec_rdcr_of_reg (reg := .ctrl) rfl, ctrlValue_eq]
  · rw [exec_rdcr_of_reg (reg := .rldTally) rfl, ctlValue, htally]

/-! ### The views (R13, R14) -/

/-- A flag is its own bit and no other. -/
theorem flagAt_getLsbD {k : Nat} (hk : k < 40) (b : Bool) (i : Nat) :
    (flagAt k b).getLsbD i = (b && decide (i = k)) := by
  cases b with
  | false => simp [flagAt]
  | true =>
    simp only [flagAt, if_true, Bool.true_and, BitVec.getLsbD_shiftLeft, BitVec.getLsbD_one]
    rw [Bool.eq_iff_iff]
    simp
    omega

/-- The two bits of the mode stand at 3:2 of STATUS. -/
theorem modeField_getLsbD (m : BitVec 2) (i : Nat) :
    (m.setWidth 40 <<< 2).getLsbD i = (decide (2 ≤ i) && m.getLsbD (i - 2)) := by
  rw [BitVec.getLsbD_shiftLeft, BitVec.getLsbD_setWidth]
  have hm : 4 ≤ i → m.getLsbD (i - 2) = false := fun h => BitVec.getLsbD_of_ge m _ (by omega)
  by_cases h4 : 4 ≤ i
  · simp [hm h4]
  · by_cases h2 : 2 ≤ i
    · simp [h2, show i < 40 by omega, show ¬ i < 2 by omega, show i - 2 < 40 by omega]
    · simp [h2, show i < 2 by omega]

/-- STATUS bit by bit: every bit is one flag or one of the two bits of the mode. -/
theorem statusValue_getLsbD (s : State) (i : Nat) :
    (statusValue s).getLsbD i =
      (dimsOk s && decide (i = 0) || errPin s && decide (i = 1) ||
        decide (2 ≤ i) && (modeNumber s.sd.mode).getLsbD (i - 2) ||
        s.sd.phase && decide (i = 4) || s.se.first && decide (i = 5) || s.rle.active && decide (i = 6) ||
        s.rld.overrun && decide (i = 7) || fcBusy s && decide (i = 8) || seBusy s && decide (i = 9) ||
        sdBusy s && decide (i = 10) || rldBusy s && decide (i = 11)) := by
  simp only [statusValue, BitVec.getLsbD_or, modeField_getLsbD, flagAt_getLsbD (show 0 < 40 by omega),
    flagAt_getLsbD (show 1 < 40 by omega), flagAt_getLsbD (show 4 < 40 by omega),
    flagAt_getLsbD (show 5 < 40 by omega), flagAt_getLsbD (show 6 < 40 by omega),
    flagAt_getLsbD (show 7 < 40 by omega), flagAt_getLsbD (show 8 < 40 by omega),
    flagAt_getLsbD (show 9 < 40 by omega), flagAt_getLsbD (show 10 < 40 by omega),
    flagAt_getLsbD (show 11 < 40 by omega)]

theorem statusValue_mode (s : State) : (statusValue s).extractLsb' 2 2 = modeNumber s.sd.mode := by
  apply BitVec.eq_of_getLsbD_eq
  intro i hi
  rw [BitVec.getLsbD_extractLsb', statusValue_getLsbD]
  have h0 : i = 0 ∨ i = 1 := by omega
  rcases h0 with rfl | rfl <;> simp

/-- A mode number has two bits. -/
theorem statusValue_high (s : State) {k : Nat} (hk : 12 ≤ k) : (statusValue s).getLsbD k = false := by
  rw [statusValue_getLsbD, BitVec.getLsbD_of_ge (modeNumber s.sd.mode) (k - 2) (by omega)]
  simp
  omega

theorem sdBusy_eq (s : State) : sdBusy s = (s.sd.acc.length != 0) := by
  unfold sdBusy
  cases s.sd.acc <;> rfl

/-- ERRSTAT's three bytes and the rest 0. -/
theorem errstatValue_fields (e : ErrRecord) :
    (errstatValue e).extractLsb' 0 8 = e.code ∧ (errstatValue e).extractLsb' 8 8 = e.stage ∧
      (errstatValue e).extractLsb' 16 8 = e.sub ∧ (errstatValue e).extractLsb' 24 16 = 0#16 := by
  show (immP e.sub e.stage e.code).extractLsb' 0 8 = _ ∧ (immP e.sub e.stage e.code).extractLsb' 8 8 = _ ∧
    (immP e.sub e.stage e.code).extractLsb' 16 8 = _ ∧ (immP e.sub e.stage e.code).extractLsb' 24 16 = _
  exact ⟨immP_low _ _ _, immP_mid _ _ _, immP_high _ _ _, immP_above _ _ _⟩

/-- While a run is open RLE_RUN holds its value byte below its count byte. -/
theorem rleRunValue_fields {r : RleUnit} (hr : r.active = true) :
    (rleRunValue r).extractLsb' 0 8 = r.val ∧ (rleRunValue r).extractLsb' 8 8 = r.cnt ∧
      (rleRunValue r).extractLsb' 16 24 = 0#24 := by
  have hv : rleRunValue r = immP 0#8 r.cnt r.val := by
    rw [← immW_eq_immP, rleRunValue, if_pos hr]
    rfl
  rw [hv]
  exact ⟨immP_low _ _ _, immP_mid _ _ _, immP_above_mid _ _⟩

/-- Settles O23: RDCR answers the three views (`exec_rdcr_of_reg`), whose bits and fields the lemmas above give. -/
theorem rdcrReadsTheStatusViews : Obligations.RdcrReadsTheStatusViews := by
  intro s
  refine ⟨⟨statusValue s, exec_rdcr_of_reg (reg := .status) rfl s, ?_, ?_, ?_, ?_, ?_, ?_, ?_, ?_, ?_, ?_, ?_,
      fun k hk => statusValue_high s hk⟩,
    ⟨errstatValue s.err, exec_rdcr_of_reg (reg := .errstat) rfl s, errstatValue_fields s.err⟩,
    ⟨rleRunValue s.rle, exec_rdcr_of_reg (reg := .rleRun) rfl s, fun hr => rleRunValue_fields hr,
      fun hr => by simp [rleRunValue, hr]⟩⟩
  case refine_3 =>
    rw [statusValue_mode]
    cases s.sd.mode <;> rfl
  all_goals
    rw [statusValue_getLsbD]
    simp [errPin, fcBusy, seBusy, sdBusy_eq, rldBusy]

/-! ### Each part of the invariant looks at its own part of the state -/

section
variable {s t : State}

theorem ErrorInv.congr (h : ErrorInv s) (herr : t.err = s.err) (hrsp : t.rsp = s.rsp) : ErrorInv t := by
  cases t; cases herr; cases hrsp
  exact ⟨h.code, h.none, h.response⟩

theorem FcInv.congr (h : FcInv s) (hfc : t.fc = s.fc) (hw : t.ctl.width = s.ctl.width)
    (hh : t.ctl.height = s.ctl.height) : FcInv t := by
  obtain ⟨⟨_, _, _, _⟩⟩ := t
  cases hfc; cases hw; cases hh
  exact ⟨h.pos, h.y, h.u, h.v, h.uRange, h.vRange, h.idle⟩

theorem RleInv.congr (h : RleInv s) (hrle : t.rle = s.rle) : RleInv t := by
  cases t; cases hrle
  exact ⟨h.count⟩

theorem RldInv.congr (h : RldInv s) (hrld : t.rld = s.rld) (hxlen : t.ctl.xlen = s.ctl.xlen) : RldInv t := by
  obtain ⟨⟨_, _, _, _⟩⟩ := t
  cases hrld; cases hxlen
  exact ⟨h.length, h.bound⟩

theorem SeInv.congr (h : SeInv s) (hse : t.se = s.se) (hw : t.ctl.width = s.ctl.width)
    (hh : t.ctl.height = s.ctl.height) : SeInv t := by
  obtain ⟨⟨_, _, _, _⟩⟩ := t
  cases hse; cases hw; cases hh
  exact ⟨h.pos, h.cur, h.prev, h.first, h.idle⟩

/-- A failed decoder stays one with an error recorded as long as the record is not cleared. -/
theorem SdInv.congr (h : SdInv s) (hsd : t.sd = s.sd) (hw : t.ctl.width = s.ctl.width)
    (hh : t.ctl.height = s.ctl.height) (hkeep : s.sd.mode = .failed → s.err.code ≠ 0#8 → t.err.code ≠ 0#8) :
    SdInv t := by
  obtain ⟨⟨_, _, _, _⟩⟩ := t
  cases hsd; cases hw; cases hh
  refine ⟨h.raw, h.pair, fun hm => ?_, h.clean, h.idle⟩
  obtain ⟨hidx, hsub, htally, hcode⟩ := h.failed hm
  exact ⟨hidx, hsub, htally, hkeep hm hcode⟩

/-- A unit at its reset values meets its part of the invariant for every size. -/
theorem fcInv_of_idle (hpos : s.fc.pos = 0#34) (hidx : s.fc.idx = 0#32)
    (hu : ∀ i x, bufGet s.fc.u i = some x → 5000 ≤ x.toNat ∧ x.toNat ≤ 2424950)
    (hv : ∀ i x, bufGet s.fc.v i = some x → 6785 ≤ x.toNat ∧ x.toNat ≤ 2552450) : FcInv s where
  pos hd := by rw [hpos]; exact npixOf_pos hd
  y := by simp [hpos, writtenBelow]
  u := by simp [hpos, writtenBelow]
  v := by simp [hpos, writtenBelow]
  uRange := hu
  vRange := hv
  idle _ := ⟨hpos, hidx⟩

theorem seInv_of_idle (hfirst : s.se.first = true) (hpos : s.se.pos = 0#34) (hidx : s.se.idx = 0#32) : SeInv s where
  pos hd := by have := frameLen_ge hd; simp [hpos]; omega
  cur := by simp [hpos, writtenBelow]
  prev hf := by simp [hfirst] at hf
  first := by simp [hfirst, hidx]
  idle _ := ⟨hfirst, hpos⟩

theorem sdInv_of_idle (hsd : sdIdle s.sd) : SdInv s := by
  unfold sdIdle at hsd
  constructor <;> rw [hsd]
  · intro _
    refine ⟨rfl, rfl, rfl, fun hd => ?_⟩
    have := frameLen_ge hd
    simp; omega
  all_goals simp

end

/-! ### Updates that keep the invariant -/

theorem errCode_le (e : ErrKind) : (errCode e).toNat ≤ 4 := by
  cases e <;> decide

/-- A raise answers with a code of 1 to 4 and leaves a recorded error recorded. -/
theorem ErrorInv.raise {s : State} (h : ErrorInv s) (e : ErrKind) (u : UnitCode) (sub : Byte) (idx : Idx) :
    ErrorInv (Machine.raise e u sub idx s) := by
  refine ⟨?_, ?_, ?_⟩
  · rw [raise_err]
    split
    · exact errCode_le e
    · exact h.code
  · rw [raise_err]
    split
    · exact fun hc => absurd hc (errCode_ne_zero e)
    · exact h.none
  · rintro r ⟨⟩
    exact ⟨errCode_le e, fun hc => absurd hc (errCode_ne_zero e)⟩

namespace Inv

variable {s t : State}

/-- What a change of the state must show: nothing of the parts it leaves as they are. -/
theorem update (h : Inv s)
    (hw : t.ctl.width = s.ctl.width := by rfl)
    (hh : t.ctl.height = s.ctl.height := by rfl)
    (herror : (t.err = s.err ∧ t.rsp = s.rsp) ∨
      (ErrorInv t ∧ (t.sd.mode = .failed → s.err.code ≠ 0#8 → t.err.code ≠ 0#8)) := by exact .inl ⟨rfl, rfl⟩)
    (hfc : t.fc = s.fc ∨ (FcInv t ∧ Memory.wf t.fc.y ∧ Memory.wf t.fc.u ∧ Memory.wf t.fc.v) := by exact .inl rfl)
    (hrle : t.rle = s.rle ∨ RleInv t := by exact .inl rfl)
    (hrld : (t.rld = s.rld ∧ t.ctl.xlen = s.ctl.xlen) ∨ RldInv t := by exact .inl ⟨rfl, rfl⟩)
    (hse : t.se = s.se ∨ (SeInv t ∧ Memory.wf t.se.cur ∧ Memory.wf t.se.prev) := by exact .inl rfl)
    (hsd : t.sd = s.sd ∨ (SdInv t ∧ Memory.wf t.sd.prev) := by exact .inl rfl)
    (hout : t.out = s.out ∨ ∀ b ∈ t.out, b.src ≠ .sys := by exact .inl rfl) : Inv t where
  buffers :=
    have ⟨hy, hu, hv⟩ : Memory.wf t.fc.y ∧ Memory.wf t.fc.u ∧ Memory.wf t.fc.v :=
      hfc.elim (fun e => by rw [e]; exact ⟨h.buffers.y, h.buffers.u, h.buffers.v⟩) (·.2)
    have ⟨hcur, hprev⟩ : Memory.wf t.se.cur ∧ Memory.wf t.se.prev :=
      hse.elim (fun e => by rw [e]; exact ⟨h.buffers.cur, h.buffers.prev⟩) (·.2)
    ⟨hy, hu, hv, hcur, hprev, hsd.elim (fun e => by rw [e]; exact h.buffers.sdPrev) (·.2)⟩
  error := herror.elim (fun e => h.error.congr e.1 e.2) (·.1)
  fc := hfc.elim (h.fc.congr · hw hh) (·.1)
  rle := hrle.elim h.rle.congr id
  rld := hrld.elim (fun e => h.rld.congr e.1 e.2) id
  se := hse.elim (h.se.congr · hw hh) (·.1)
  sd := hsd.elim
    (fun e => h.sd.congr e hw hh
      (e ▸ herror.elim (fun e' _ => by rw [e'.1]; exact id) (·.2)))
    (·.1)
  out := hout.elim (fun e => by rw [e]; exact h.out) id

theorem setInputs (h : Inv s) (q : List HostEvent) : Inv { s with inputs := q } := h.update

theorem setOut (h : Inv s) {o : List Beat} (ho : ∀ b ∈ o, b.src ≠ .sys) : Inv { s with out := o } :=
  h.update (hout := .inr ho)

theorem setFc (h : Inv s) {fc : FcUnit} (hy : Memory.wf fc.y) (hu : Memory.wf fc.u) (hv : Memory.wf fc.v)
    (hfc : FcInv { s with fc := fc }) : Inv { s with fc := fc } :=
  h.update (hfc := .inr ⟨hfc, hy, hu, hv⟩)

theorem setRle (h : Inv s) {rle : RleUnit} (hrle : rle.active = true → rle.cnt ≠ 0#8) :
    Inv { s with rle := rle } :=
  h.update (hrle := .inr ⟨hrle⟩)

theorem setRld (h : Inv s) {rld : RldUnit} (hlen : rld.buf.length = rld.tally.toNat)
    (hbound : rld.tally.toNat ≤ s.ctl.xlen.toNat) : Inv { s with rld := rld } :=
  h.update (hrld := .inr ⟨hlen, hbound⟩)

theorem setSe (h : Inv s) {se : SeUnit} (hcur : Memory.wf se.cur) (hprev : Memory.wf se.prev)
    (hse : SeInv { s with se := se }) : Inv { s with se := se } :=
  h.update (hse := .inr ⟨hse, hcur, hprev⟩)

theorem setSd (h : Inv s) {sd : SdUnit} (hprev : Memory.wf sd.prev) (hsd : SdInv { s with sd := sd }) :
    Inv { s with sd := sd } :=
  h.update (hsd := .inr ⟨hsd, hprev⟩)

/-! The shared operations. -/

theorem respondOk (h : Inv s) (val : XWord) : Inv (respondOk val s) := by
  refine h.update (herror := .inr ⟨⟨h.error.code, h.error.none, ?_⟩, fun _ => id⟩)
  rintro r ⟨⟩
  simp

theorem raise (h : Inv s) (e : ErrKind) (u : UnitCode) (sub : Byte) (idx : Idx) : Inv (raise e u sub idx s) := by
  have he := h.error.raise e u sub idx
  have hkeep : s.err.code ≠ 0#8 → (Machine.raise e u sub idx s).err.code ≠ 0#8 := fun hc => by
    rwa [raise_err, if_neg hc]
  rw [raise_eq_raised] at he hkeep ⊢
  exact h.update (herror := .inr ⟨he, fun _ => hkeep⟩)

theorem emit (h : Inv s) {src : UnitCode} (hsrc : src ≠ .sys) (bytes : List Byte) : Inv (emit src bytes s) := by
  refine h.setOut fun b hb => ?_
  rcases List.mem_append.mp hb with hb | hb
  · exact h.out b hb
  · rwa [beatsOf_src hb]

theorem removeBeat (h : Inv s) : Inv (removeBeat s) :=
  h.setOut fun b hb => h.out b (List.mem_of_mem_drop hb)

theorem reinitFc (h : Inv s) : Inv (reinitFc s) :=
  h.setFc h.buffers.y h.buffers.u h.buffers.v (fcInv_of_idle rfl rfl h.fc.uRange h.fc.vRange)

theorem reinitRle (h : Inv s) : Inv (reinitRle s) :=
  h.setRle (by simp)

theorem reinitRld (h : Inv s) : Inv (reinitRld s) :=
  h.setRld rfl (Nat.zero_le _)

theorem reinitSe (h : Inv s) : Inv (reinitSe s) :=
  h.setSe h.buffers.cur h.buffers.prev (seInv_of_idle rfl rfl rfl)

theorem reinitSd (h : Inv s) : Inv (reinitSd s) :=
  h.setSd h.buffers.sdPrev (sdInv_of_idle rfl)

/-- The record may be cleared unless the decoder is in Failed mode, which needs a recorded error. -/
theorem clearError (h : Inv s) (hm : s.sd.mode ≠ .failed) : Inv (clearError s) :=
  h.update (herror := .inr ⟨⟨by simp, by simp, h.error.response⟩, fun hf => absurd hf hm⟩)

/-! Writes of the control registers (R173). -/

/-- With a new size the frame units start over, so nothing they held has to fit it. -/
theorem setSize (h : Inv s) (w d : Dim) :
    Inv (reinitFrameUnits { s with ctl := { s.ctl with width := w, height := d } }) :=
  have ⟨hy, hu, hv, hcur, hprev, hsp⟩ := h.buffers
  { buffers := ⟨hy, hu, hv, hcur, hprev, hsp⟩
    error := h.error.congr rfl rfl
    fc := fcInv_of_idle rfl rfl h.fc.uRange h.fc.vRange
    rle := h.rle.congr rfl
    rld := h.rld.congr rfl rfl
    se := seInv_of_idle rfl rfl rfl
    sd := sdInv_of_idle rfl
    out := h.out }

theorem setXlen (h : Inv s) (x : XLen) : Inv (Machine.reinitRld { s with ctl := { s.ctl with xlen := x } }) :=
  h.update (hrld := .inr ⟨rfl, Nat.zero_le _⟩)

theorem setChain (h : Inv s) (c : Bool) : Inv { s with ctl := { s.ctl with chain := c } } := h.update

end Inv

section
variable {s : State}

/-! ### Unit SE -/

theorem writtenBelow_mono {α : Type} {m : Memory α} {n k : Nat} (h : writtenBelow m n) (hk : k ≤ n) :
    writtenBelow m k :=
  fun i hi => h i (by omega)

/-- A byte stored at the position, which stays or moves on by one. -/
theorem SeInv.store (h : SeInv s) (hd : dimsOk s = true) (b : Byte) (p : Len)
    (hp : p.toNat ≤ s.se.pos.toNat + 1) (hlt : p.toNat < frameLen s) :
    SeInv { s with se := { s.se with cur := bufPut s.se.cur s.se.pos.toNat b, pos := p } } where
  pos _ := hlt
  cur := writtenBelow_mono (writtenBelow_bufPut b h.cur) hp
  prev := h.prev
  first := h.first
  idle hf := (nomatch hd.symm.trans hf)

/-- After a frame the frame just read is the previous one, whole. -/
theorem seInv_frame (hd : dimsOk s = true) {frame : List Byte} (hlen : frame.length = frameLen s) :
    SeInv { s with se := { first := false, pos := 0#34, idx := satInc s.se.idx, cur := s.se.cur,
                           prev := bufPutFrom s.se.prev 0 frame } } where
  pos _ := Nat.lt_of_lt_of_le (Nat.zero_lt_succ 5) (frameLen_ge hd)
  cur i hi := absurd hi (Nat.not_lt_zero i)
  prev _ := by
    have := writtenBelow_bufPutFrom s.se.prev frame
    rwa [hlen] at this
  first := by simp [satInc_ne_zero]
  idle hf := (nomatch hd.symm.trans hf)

theorem seFrameBytes_total (h : SeInv s) (cur : List Byte) :
    ∃ bytes, seFrameBytes (frameLen s) s.se cur = .ok bytes := by
  cases hf : s.se.first with
  | true => exact ⟨cur, seFrameBytes_ok_iff.mpr (.inl ⟨hf, rfl⟩)⟩
  | false =>
    obtain ⟨prev, hprev⟩ := bufReadAll_total (b := .sePrev) (h.prev hf)
    exact ⟨_, seFrameBytes_ok_iff.mpr (.inr ⟨hf, prev, hprev, rfl⟩)⟩

theorem seFrame_safe (h : Inv s) (hd : dimsOk s = true) (hcur : writtenBelow s.se.cur (frameLen s)) :
    ∃ t, seFrame s = .ok t ∧ Inv t := by
  obtain ⟨frame, hread⟩ := bufReadAll_total (b := .seCur) hcur
  obtain ⟨hlen, -⟩ := bufReadAll_ok_iff.mp hread
  obtain ⟨bytes, hbytes⟩ := seFrameBytes_total h.se frame
  exact ⟨_, seFrame_ok_iff.mpr ⟨frame, bytes, hread, hbytes, rfl⟩,
    (h.emit (by decide) bytes).setSe h.buffers.cur (bufPutFrom_wf 0 frame h.buffers.prev)
      (seInv_frame (s := emit .se bytes s) hd hlen)⟩

theorem sePushByte_safe (h : Inv s) (hd : dimsOk s = true) (b : Byte) :
    ∃ t, sePushByte b s = .ok t ∧ Inv t := by
  have hpos := h.se.pos hd
  have hL : frameLen s < 2 ^ 33 := frameLen_lt hd
  have stored (p : Len) (hp : p.toNat ≤ s.se.pos.toNat + 1) (hlt : p.toNat < frameLen s) :
      Inv { s with se := { s.se with cur := bufPut s.se.cur s.se.pos.toNat b, pos := p } } :=
    h.setSe (bufPut_wf _ b h.buffers.cur) h.buffers.prev (h.se.store hd b p hp hlt)
  by_cases hlast : s.se.pos.toNat + 1 < frameLen s
  · have hnext := len_add_one_toNat s.se.pos (by omega)
    exact ⟨_, sePushByte_ok_iff.mpr ⟨hpos, .inl ⟨hlast, rfl⟩⟩, stored _ (by omega) (by omega)⟩
  · have hend : s.se.pos.toNat + 1 = frameLen s := by omega
    have hwhole := writtenBelow_bufPut b h.se.cur
    rw [hend] at hwhole
    obtain ⟨t, ht, hInv⟩ := seFrame_safe (stored s.se.pos (by omega) hpos) hd hwhole
    exact ⟨t, sePushByte_ok_iff.mpr ⟨hpos, .inr ⟨hend, ht⟩⟩, hInv⟩

theorem sePushAll_safe (h : Inv s) (hd : dimsOk s = true) (bs : List Byte) :
    ∃ t, sePushAll bs s = .ok t ∧ Inv t := by
  induction bs generalizing s with
  | nil => exact ⟨s, rfl, h⟩
  | cons b bs ih =>
    obtain ⟨u, hu, hInv⟩ := sePushByte_safe h hd b
    obtain ⟨o, hframe, -⟩ := sePushByte_frame hu
    have hdu : dimsOk u = true := by rw [dimsOk_congr u s (by rw [hframe]), hd]
    simpa only [sePushAll, hu] using ih hInv hdu

/-! ### Unit FC -/

/-- A chroma intermediate in the range of R83 is its buffer element's value. -/
theorem chroma_toNat {x : Int} (h0 : 0 ≤ x) (h1 : x < 2 ^ 22) : ((BitVec.ofInt 22 x : Chroma).toNat : Int) = x := by
  rw [BitVec.toNat_ofInt]
  omega

theorem cscU_range (r g b : Byte) :
    5000 ≤ (BitVec.ofInt 22 (cscU Config.params.k r g b)).toNat ∧
      (BitVec.ofInt 22 (cscU Config.params.k r g b)).toNat ≤ 2424950 := by
  have hr : r.toNat < 2 ^ 8 := r.isLt
  have hg : g.toNat < 2 ^ 8 := g.isLt
  have hb : b.toNat < 2 ^ 8 := b.isLt
  have hu : cscU Config.params.k r g b = 1280000 + -1690 * (r.toNat : Int) + -3310 * (g.toNat : Int) +
    4490 * (b.toNat : Int) := rfl
  have hx := chroma_toNat (x := cscU Config.params.k r g b) (by omega) (by omega)
  omega

theorem cscV_range (r g b : Byte) :
    6785 ≤ (BitVec.ofInt 22 (cscV Config.params.k r g b)).toNat ∧
      (BitVec.ofInt 22 (cscV Config.params.k r g b)).toNat ≤ 2552450 := by
  have hr : r.toNat < 2 ^ 8 := r.isLt
  have hg : g.toNat < 2 ^ 8 := g.isLt
  have hb : b.toNat < 2 ^ 8 := b.isLt
  have hv : cscV Config.params.k r g b = 1280000 + 4990 * (r.toNat : Int) + -4180 * (g.toNat : Int) +
    -813 * (b.toNat : Int) := rfl
  have hx := chroma_toNat (x := cscV Config.params.k r g b) (by omega) (by omega)
  omega

/-- What holds of every element holds after a write that meets it. -/
theorem forall_bufGet_bufPut {α : Type} {P : α → Prop} {m : Memory α} (h : ∀ i x, bufGet m i = some x → P x) (k : Nat)
    {v : α} (hv : P v) : ∀ i x, bufGet (bufPut m k v) i = some x → P x := by
  intro i x hx
  rw [bufGet_bufPut] at hx
  split at hx
  · cases hx; exact hv
  · exact h i x hx

/-- A pixel stored at the position, which moves on by one or goes back to 0. -/
theorem FcInv.store (h : FcInv s) (hd : dimsOk s = true) (r g b : Byte) (p : Len) (i : Idx)
    (hp : p.toNat ≤ s.fc.pos.toNat + 1) (hlt : p.toNat < npix s) :
    FcInv { s with fc := { fcStored r g b s.fc with pos := p, idx := i } } where
  pos _ := hlt
  y := writtenBelow_mono (writtenBelow_bufPut _ h.y) hp
  u := writtenBelow_mono (writtenBelow_bufPut _ h.u) hp
  v := writtenBelow_mono (writtenBelow_bufPut _ h.v) hp
  uRange := forall_bufGet_bufPut h.uRange _ (cscU_range r g b)
  vRange := forall_bufGet_bufPut h.vRange _ (cscV_range r g b)
  idle hf := (nomatch hd.symm.trans hf)

/-- A subsampled plane can be read once every intermediate of the frame is written: the four pixels of a cell are
pixels of the frame. -/
theorem chromaPlane_total {bid : BufId} {w h : Nat} {m : Memory Chroma} (hl : dimsLegal w h = true)
    (hm : writtenBelow m (npixOf w h)) : ∃ xs, chromaPlane bid w h m = .ok xs := by
  obtain ⟨a, b, ha, hb, rfl, rfl, hn, hc, -⟩ := sizes_of_legal hl
  refine collect_total fun k hk => ?_
  have ea : 2 * a / 2 = a := by omega
  rw [hc] at hk
  have hx : (0 + k) % a < a := Nat.mod_lt _ ha
  have hy : (0 + k) / a < b := Nat.div_lt_of_lt_mul (by omega)
  have hcell := cell_in_frame hx hy
  have readable (i : Nat) (hi : i < 4 * (a * b)) : ∃ x, bufRead bid (npixOf (2 * a) (2 * b)) m i = .ok x := by
    rw [← hn] at hi
    obtain ⟨x, hx⟩ := Option.isSome_iff_exists.mp (hm i hi)
    exact ⟨x, bufRead_ok_iff.mpr ⟨hi, hx⟩⟩
  rw [ea]
  obtain ⟨p00, h00⟩ := readable (2 * ((0 + k) / a) * (2 * a) + 2 * ((0 + k) % a)) (by omega)
  obtain ⟨p10, h10⟩ := readable (2 * ((0 + k) / a) * (2 * a) + 2 * ((0 + k) % a) + 1) (by omega)
  obtain ⟨p01, h01⟩ := readable (2 * ((0 + k) / a) * (2 * a) + 2 * ((0 + k) % a) + 2 * a) (by omega)
  obtain ⟨p11, h11⟩ := readable (2 * ((0 + k) / a) * (2 * a) + 2 * ((0 + k) % a) + 2 * a + 1) hcell
  exact ⟨_, chromaCell_ok_iff.mpr ⟨p00, p10, p01, p11, h00, h10, h01, h11, rfl⟩⟩

theorem fcPack_total {w h : Nat} {fc : FcUnit} (hl : dimsLegal w h = true) (hy : writtenBelow fc.y (npixOf w h))
    (hu : writtenBelow fc.u (npixOf w h)) (hv : writtenBelow fc.v (npixOf w h)) :
    ∃ frame, fcPack w h fc = .ok frame := by
  obtain ⟨y, hy⟩ := bufReadAll_total (b := .fcY) hy
  obtain ⟨u, hu⟩ := chromaPlane_total (bid := .fcU) hl hu
  obtain ⟨v, hv⟩ := chromaPlane_total (bid := .fcV) hl hv
  exact ⟨_, fcPack_ok_iff.mpr ⟨y, u, v, hy, hu, hv, rfl⟩⟩

theorem fcDeliver_safe (h : Inv s) (hd : dimsOk s = true) (frame : List Byte) :
    ∃ t, fcDeliver frame s = .ok t ∧ Inv t := by
  unfold fcDeliver
  split
  · exact sePushAll_safe h hd frame
  · exact ⟨_, rfl, h.emit (by decide) frame⟩

theorem fcPixel_safe (h : Inv s) (hd : dimsOk s = true) (r g b : Byte) :
    ∃ t, fcPixel r g b s = .ok t ∧ Inv t := by
  have hpos := h.fc.pos hd
  have hN : npix s < 2 ^ 33 := npix_lt hd
  have stored (p : Len) (i : Idx) (hp : p.toNat ≤ s.fc.pos.toNat + 1) (hlt : p.toNat < npix s) :
      Inv { s with fc := { fcStored r g b s.fc with pos := p, idx := i } } :=
    h.setFc (bufPut_wf _ _ h.buffers.y) (bufPut_wf _ _ h.buffers.u) (bufPut_wf _ _ h.buffers.v)
      (h.fc.store hd r g b p i hp hlt)
  by_cases hlast : s.fc.pos.toNat + 1 < npix s
  · have hnext := len_add_one_toNat s.fc.pos (by omega)
    exact ⟨_, fcPixel_ok_iff.mpr ⟨hpos, .inl ⟨hlast, rfl⟩⟩, stored _ _ (by omega) (by omega)⟩
  · have hend : s.fc.pos.toNat + 1 = npix s := by omega
    have whole {α : Type} {m : Memory α} (v : α) (hm : writtenBelow m s.fc.pos.toNat) :
        writtenBelow (bufPut m s.fc.pos.toNat v) (npix s) := hend ▸ writtenBelow_bufPut v hm
    obtain ⟨frame, hframe⟩ := fcPack_total (fc := fcStored r g b s.fc) hd (whole _ h.fc.y) (whole _ h.fc.u)
      (whole _ h.fc.v)
    obtain ⟨t, ht, hInv⟩ := fcDeliver_safe (stored 0#34 (satInc s.fc.idx) (Nat.zero_le _) (by simp; omega)) hd frame
    exact ⟨t, fcPixel_ok_iff.mpr ⟨hpos, .inr ⟨hend, frame, hframe, ht⟩⟩, hInv⟩

/-! ### Unit SD -/

/-- A count byte after whole pairs adds its count. -/
theorem countSum_append_count {xs : List Byte} (hx : xs.length % 2 = 0) (c : Byte) :
    countSum (xs ++ [c]) = countSum xs + c.toNat := by
  induction xs using countSum.induct with
  | case1 => simp [countSum]
  | case2 d => simp at hx
  | case3 d v rest ih =>
    have := ih (by simp at hx; omega)
    simp only [List.cons_append, countSum, this]
    omega

/-- A value byte after a count byte adds nothing. -/
theorem countSum_append_value {xs : List Byte} (hx : xs.length % 2 = 1) (v : Byte) :
    countSum (xs ++ [v]) = countSum xs := by
  induction xs using countSum.induct with
  | case1 => simp at hx
  | case2 d => simp [countSum]
  | case3 d w rest ih =>
    have := ih (by simp at hx; omega)
    simp only [List.cons_append, countSum, this]

/-- Whole pairs expand to as many bytes as their counts say (R157). -/
theorem length_expandPairs {xs : List Byte} (hx : xs.length % 2 = 0) :
    (expandPairs (pairsOf xs)).length = countSum xs := by
  induction xs using countSum.induct with
  | case1 => rfl
  | case2 d => simp at hx
  | case3 d w rest ih =>
    have := ih (by simp at hx; omega)
    simp only [pairsOf, expandPairs, countSum, List.length_append, List.length_replicate, this]

/-- After a raise an error is recorded, whether it is the first or not (R190). -/
theorem raise_err_code_ne_zero (e : ErrKind) (u : UnitCode) (sub : Byte) (idx : Idx) (s : State) :
    (raise e u sub idx s).err.code ≠ 0#8 := by
  rw [raise_err]
  split
  · exact errCode_ne_zero e
  · assumption

/-- The raise of a failure does not look at unit SD, so it may come before the change of the unit. -/
theorem sdFail_eq (sub : Byte) (sd : SdUnit) (s : State) :
    sdFail sub { s with sd := sd } =
      { raise .corruptStream .sd sub sd.idx s with
        sd := { sd with fsub := sub, fidx := sd.idx, mode := .failed } } := by
  simp only [sdFail, raise_eq_raised]
  rfl

/-- Entering Failed mode with any tally that a count byte can leave (R149, R154). -/
theorem Inv.sdFail (h : Inv s) (hd : dimsOk s = true) {sd : SdUnit} {sub : Byte} (hprev : Memory.wf sd.prev)
    (hsub : sub = 1#8 ∨ sub = 2#8 ∨ sub = 3#8) (htally : sd.tally.toNat ≤ frameLen s + 254) :
    Inv (sdFail sub { s with sd := sd }) := by
  have hraise := h.raise .corruptStream .sd sub sd.idx
  have hcode := raise_err_code_ne_zero .corruptStream .sd sub sd.idx s
  have hdims : dimsOk (Machine.raise .corruptStream .sd sub sd.idx s) = true := by rwa [dimsOk_raise]
  rw [← frameLen_raise s .corruptStream .sd sub sd.idx] at htally
  rw [sdFail_eq]
  refine hraise.setSd hprev ⟨nofun, nofun, fun _ => ⟨rfl, hsub, htally, hcode⟩, fun hm => absurd rfl hm, fun hf => ?_⟩
  exact (nomatch hdims.symm.trans hf)

/-- A delivered frame starts a pair stream against a whole previous frame. -/
theorem Inv.sdDeliver (h : Inv s) (hd : dimsOk s = true) (hm : s.sd.mode ≠ .failed) (frame : List Byte)
    {prev : List Byte} (hlen : prev.length = frameLen s) : Inv (sdDeliver frame prev s) := by
  refine (h.emit (src := .sd) (by decide) frame).setSd (bufPutFrom_wf 0 prev h.buffers.sdPrev)
    ⟨nofun, fun _ => ⟨satInc_ne_zero _, ?_, rfl, rfl, ?_⟩, nofun, fun _ => h.sd.clean hm, fun hf => ?_⟩
  · have hw := writtenBelow_bufPutFrom s.sd.prev prev
    rwa [hlen] at hw
  · exact Nat.lt_of_lt_of_le (Nat.zero_lt_succ 5) (frameLen_ge hd)
  · exact (nomatch hd.symm.trans hf)

theorem sdRaw_safe (h : Inv s) (hd : dimsOk s = true) (hm : s.sd.mode = .rawFrame) (b : Byte) :
    ∃ t, sdRaw b s = .ok t ∧ Inv t := by
  obtain ⟨hphase, hidx, hlen, hlt⟩ := h.sd.raw hm
  have hL : frameLen s < 2 ^ 33 := frameLen_lt hd
  have htally := len_add_one_toNat s.sd.tally (by have := hlt hd; omega)
  have hacc : (s.sd.acc ++ [b]).length = s.sd.tally.toNat + 1 := by simp [hlen]
  by_cases hend : (s.sd.tally + 1#34).toNat = frameLen s
  · refine ⟨_, sdRaw_ok_iff.mpr (.inr ⟨hend, by omega, rfl⟩), ?_⟩
    exact (h.sdDeliver hd (by simp [hm]) _ (by rw [List.length_take]; omega)).respondOk _
  · have hinside : (s.sd.tally + 1#34).toNat < frameLen s := by have := hlt hd; omega
    refine ⟨_, sdRaw_ok_iff.mpr (.inl ⟨hend, rfl⟩), Inv.respondOk ?_ _⟩
    exact h.setSd h.buffers.sdPrev
      ⟨fun _ => ⟨hphase, hidx, hacc.trans htally.symm, fun _ => hinside⟩,
        fun hp => (nomatch hm.symm.trans hp), fun hf => (nomatch hm.symm.trans hf), h.sd.clean,
        fun hf => (nomatch hd.symm.trans hf)⟩

/-- Inside a frame of pairs: a new accumulator, tally and phase that meet R157 and R149. -/
theorem Inv.setPairs (h : Inv s) (hd : dimsOk s = true) (hm : s.sd.mode = .rlePair) {acc : List Byte} {tally : Len}
    {phase : Bool} (hsum : countSum acc = tally.toNat) (hpar : acc.length % 2 = if phase then 1 else 0)
    (hbound : if phase then tally.toNat ≤ frameLen s else tally.toNat < frameLen s) :
    Inv { s with sd := { s.sd with acc := acc, tally := tally, phase := phase } } := by
  obtain ⟨hidx, hprev, -, -, -⟩ := h.sd.pair hm
  refine h.setSd h.buffers.sdPrev ⟨fun hr => (nomatch hm.symm.trans hr),
    fun _ => ⟨hidx, hprev, hsum, hpar, hbound⟩, fun hf => (nomatch hm.symm.trans hf), h.sd.clean,
    fun hf => (nomatch hd.symm.trans hf)⟩

theorem sdCount_inv (h : Inv s) (hd : dimsOk s = true) (hm : s.sd.mode = .rlePair) (hphase : s.sd.phase = false)
    (c : Byte) : Inv (sdCount c s) := by
  obtain ⟨-, -, hsum, hpar, hbound⟩ := h.sd.pair hm
  simp only [hphase, Bool.false_eq_true, if_false] at hpar hbound
  have hL : frameLen s < 2 ^ 33 := frameLen_lt hd
  have hc : c.toNat < 2 ^ 8 := c.isLt
  have htally := len_add_byte_toNat s.sd.tally c (by omega)
  rw [sdCount_eq]
  split
  · exact h.sdFail hd h.buffers.sdPrev (.inl rfl) (by rw [htally]; omega)
  · refine (h.setPairs hd hm ?_ ?_ ?_).respondOk _
    · rw [countSum_append_count hpar, hsum, htally]
    · simp; omega
    · rw [if_pos rfl]; omega

theorem sdValue_safe (h : Inv s) (hd : dimsOk s = true) (hm : s.sd.mode = .rlePair) (hphase : s.sd.phase = true)
    (v : Byte) : ∃ t, sdValue v s = .ok t ∧ Inv t := by
  obtain ⟨-, hprev, hsum, hpar, hbound⟩ := h.sd.pair hm
  simp only [hphase, if_true] at hpar hbound
  have hsum' : countSum (s.sd.acc ++ [v]) = s.sd.tally.toNat := by rw [countSum_append_value hpar, hsum]
  have hpar' : (s.sd.acc ++ [v]).length % 2 = 0 := by simp; omega
  by_cases hend : s.sd.tally.toNat = frameLen s
  · obtain ⟨p, hread⟩ := bufReadAll_total (b := .sdPrev) hprev
    obtain ⟨hp, -⟩ := bufReadAll_ok_iff.mp hread
    have hexp : (expandPairs (pairsOf (s.sd.acc ++ [v]))).length = frameLen s := by
      rw [length_expandPairs hpar', hsum', hend]
    refine ⟨_, sdValue_ok_iff.mpr (.inr ⟨hend, _, sdFrame_ok_iff.mpr ⟨hexp, p, hread, rfl⟩, rfl⟩), ?_⟩
    exact (h.sdDeliver hd (by simp [hm]) _ (by rw [List.length_zipWith, hexp, hp, Nat.min_self])).respondOk _
  · refine ⟨_, sdValue_ok_iff.mpr (.inl ⟨hend, rfl⟩), ?_⟩
    exact (h.setPairs hd hm hsum' (by simpa using hpar') (by simp; omega)).respondOk _

theorem sdPushByte_safe (h : Inv s) (hd : dimsOk s = true) (b : Byte) : ∃ t, sdPushByte b s = .ok t ∧ Inv t := by
  cases hm : s.sd.mode with
  | failed => exact ⟨_, sdPushByte_ok_iff.mpr (.inl ⟨hm, rfl⟩), h.raise _ _ _ _⟩
  | rawFrame =>
    obtain ⟨t, ht, hInv⟩ := sdRaw_safe h hd hm b
    exact ⟨t, sdPushByte_ok_iff.mpr (.inr (.inl ⟨hm, ht⟩)), hInv⟩
  | rlePair =>
    cases hphase : s.sd.phase with
    | true =>
      obtain ⟨t, ht, hInv⟩ := sdValue_safe h hd hm hphase b
      exact ⟨t, sdPushByte_ok_iff.mpr (.inr (.inr (.inl ⟨hm, hphase, ht⟩))), hInv⟩
    | false =>
      exact ⟨_, sdPushByte_ok_iff.mpr (.inr (.inr (.inr ⟨hm, hphase, rfl⟩))), sdCount_inv h hd hm hphase b⟩

/-- A decoder that has not failed holds at most a frame's tally. -/
theorem SdInv.tally_le (h : SdInv s) (hd : dimsOk s = true) (hm : s.sd.mode ≠ .failed) :
    s.sd.tally.toNat ≤ frameLen s := by
  cases hmode : s.sd.mode with
  | rawFrame =>
    obtain ⟨-, -, -, hlt⟩ := h.raw hmode
    exact (hlt hd).le
  | rlePair =>
    obtain ⟨-, -, -, -, hbound⟩ := h.pair hmode
    split at hbound
    · exact hbound
    · exact hbound.le
  | failed => exact absurd hmode hm

/-- With illegal dimensions SD has accepted nothing. -/
theorem SdInv.dimsOk_of_acc (h : SdInv s) (hacc : s.sd.acc ≠ []) : dimsOk s = true := by
  cases hd : dimsOk s with
  | true => rfl
  | false =>
    obtain ⟨-, hnil⟩ := h.idle hd
    exact absurd hnil hacc

/-! ### The operations -/

theorem execWrcr_safe (h : Inv s) (cr : Byte) (imm : XWord) : answersNextWith (execWrcr cr imm s) Inv := by
  rcases execWrcr_cases cr imm s with ⟨sub, e⟩ | ⟨-, w, d, e⟩ | ⟨-, x, e⟩ | ⟨-, c, e⟩
  · exact ⟨_, e, h.raise _ _ _ _⟩
  · exact ⟨_, e, (h.setSize w d).respondOk _⟩
  · exact ⟨_, e, (h.setXlen x).respondOk _⟩
  · exact ⟨_, e, (h.setChain c).respondOk _⟩

theorem execRldPair_safe (h : Inv s) (c v : Byte) : answersNextWith (execRldPair c v s) Inv := by
  rcases execRldPair_cases c v s with e | e | ⟨hle, e⟩
  · exact ⟨_, e, h.respondOk _⟩
  · refine ⟨_, e, Inv.respondOk ?_ _⟩
    exact h.setRld h.rld.length h.rld.bound
  · have hx : s.ctl.xlen.toNat < 2 ^ 40 := s.ctl.xlen.isLt
    have htally : (s.rld.tally + c.setWidth 40).toNat = s.rld.tally.toNat + c.toNat := by
      bv_omega
    refine ⟨_, e, (h.setRld ?_ ?_).respondOk _⟩
    · rw [htally, List.length_append, List.length_replicate, h.rld.length]
    · rwa [htally]

theorem execSdEnd_safe (h : Inv s) : answersNextWith (execSdEnd s) Inv := by
  rcases execSdEnd_cases s with ⟨-, e⟩ | ⟨-, -, e⟩ | ⟨hm, hacc, sub, hsub, e⟩
  · exact ⟨_, e, h.raise _ _ _ _⟩
  · exact ⟨_, e, h.reinitSd.respondOk _⟩
  · have hd := h.sd.dimsOk_of_acc hacc
    have hle := h.sd.tally_le hd hm
    exact ⟨_, e, h.sdFail hd h.buffers.sdPrev (.inr hsub) (by omega)⟩

/-- Under the invariant every operation answers a next state, and that state meets the invariant. -/
theorem exec_safe (h : Inv s) (i : Instr) : answersNextWith (exec i s) Inv := by
  cases i with
  | rdcr cr =>
    rcases execRdcr_cases cr s with e | ⟨v, e⟩
    · exact ⟨_, e, h.raise _ _ _ _⟩
    · exact ⟨_, e, h.respondOk _⟩
  | wrcr cr imm => exact execWrcr_safe h cr imm
  | init =>
    have hunits := h.reinitFc.reinitRle.reinitRld.reinitSe.reinitSd
    exact ⟨_, rfl, (hunits.clearError (by simp)).respondOk _⟩
  | fcPix r g b =>
    cases hd : dimsOk s with
    | false => exact ⟨_, execFcPix_next_iff.mpr (.inl ⟨hd, rfl⟩), h.raise _ _ _ _⟩
    | true =>
      obtain ⟨u, hu, hInv⟩ := fcPixel_safe h hd r g b
      exact ⟨_, execFcPix_next_iff.mpr (.inr ⟨hd, u, hu, rfl⟩), hInv.respondOk _⟩
  | fcEnd => exact ⟨_, rfl, h.reinitFc.respondOk _⟩
  | dltSub a b => exact ⟨_, rfl, (h.emit (by decide) _).respondOk _⟩
  | dltAdd d b => exact ⟨_, rfl, (h.emit (by decide) _).respondOk _⟩
  | rlePush b =>
    obtain ⟨bytes, rle, hcnt, e⟩ := execRlePush_cases b s
    exact ⟨_, e, ((h.emit (by decide) bytes).setRle fun _ => hcnt).respondOk _⟩
  | rleEnd =>
    refine ⟨_, rfl, Inv.respondOk (Inv.reinitRle ?_) _⟩
    split
    · exact h.emit (by decide) _
    · exact h
  | rldPair c v => exact execRldPair_safe h c v
  | rldEnd =>
    rcases execRldEnd_cases s with ⟨sub, e⟩ | e
    · exact ⟨_, e, h.reinitRld.raise _ _ _ _⟩
    · exact ⟨_, e, (h.emit (by decide) _).reinitRld.respondOk _⟩
  | sePush b =>
    cases hd : dimsOk s with
    | false => exact ⟨_, execSePush_next_iff.mpr (.inl ⟨hd, rfl⟩), h.raise _ _ _ _⟩
    | true =>
      obtain ⟨u, hu, hInv⟩ := sePushByte_safe h hd b
      exact ⟨_, execSePush_next_iff.mpr (.inr ⟨hd, u, hu, rfl⟩), hInv.respondOk _⟩
  | seEnd => exact ⟨_, rfl, h.reinitSe.respondOk _⟩
  | sdPush b =>
    cases hd : dimsOk s with
    | false => exact ⟨_, execSdPush_next_iff.mpr (.inl ⟨hd, rfl⟩), h.raise _ _ _ _⟩
    | true =>
      obtain ⟨u, hu, hInv⟩ := sdPushByte_safe h hd b
      exact ⟨u, execSdPush_next_iff.mpr (.inr ⟨hd, hu⟩), hInv⟩
  | sdEnd => exact execSdEnd_safe h

theorem runWord_safe (h : Inv s) (w : Cmd) : answersNextWith (runWord w s) Inv := by
  unfold runWord
  split
  · exact exec_safe h _
  · exact ⟨_, rfl, h.raise _ _ _ _⟩

/-! ### The step -/

/-- The reset state meets the invariant, whatever events wait. -/
theorem inv_reset (q : List HostEvent) : Inv { State.reset with inputs := q } := by
  have hreset : Inv State.reset :=
    { buffers := reset_buffersWf
      error := ⟨by decide, by simp [State.reset], nofun⟩
      fc := fcInv_of_idle rfl rfl nofun nofun
      rle := ⟨nofun⟩
      rld := ⟨rfl, Nat.zero_le _⟩
      se := seInv_of_idle rfl rfl rfl
      sd := sdInv_of_idle rfl
      out := nofun }
  exact hreset.setInputs q

theorem step_of_no_input (hq : s.inputs = []) : step s = .next s := by
  simp only [step, nextEvent, hq]

theorem step_of_rst {rest : List HostEvent} (hq : s.inputs = .rst :: rest) :
    step s = .next { State.reset with inputs := rest } := by
  simp only [step, nextEvent_of_inputs hq]
  rfl

theorem step_of_takeBeat {rest : List HostEvent} (hq : s.inputs = .takeBeat :: rest) :
    step s = .next (removeBeat { s with inputs := rest }) := by
  simp only [step, nextEvent_of_inputs hq]

/-- Under the invariant a step answers a next state, and that state meets the invariant. -/
theorem step_safe (h : Inv s) : answersNextWith (step s) Inv := by
  cases hq : s.inputs with
  | nil => exact ⟨s, step_of_no_input hq, h⟩
  | cons e rest =>
    cases e with
    | command w =>
      rw [step_of_command hq]
      exact runWord_safe (h.setInputs rest) w
    | rst => exact ⟨_, step_of_rst hq, inv_reset rest⟩
    | takeBeat => exact ⟨_, step_of_takeBeat hq, (h.setInputs rest).removeBeat⟩

/-- A run from a state that meets the invariant does not stop. -/
theorem run_safe (h : Inv s) (n : Nat) : answersNext (Host.Core.run Sys2Proof.core n s) := by
  induction n generalizing s with
  | zero => exact ⟨s, rfl⟩
  | succ n ih =>
    obtain ⟨t, ht, hInv⟩ := step_safe h
    rw [run_succ_next Sys2Proof.core n s t ht]
    exact ih hInv

end

/-- Settles O6, by the step's equation for each event. -/
theorem stepOfOtherHostEvents : Obligations.StepOfOtherHostEvents := by
  refine ⟨fun s => step_of_no_input, fun s rest => step_of_rst, fun s rest b bs hq hout => ?_⟩
  rw [step_of_takeBeat hq]
  simp [removeBeat, hout]

/-- Settles O7, by `inv_reset`. -/
theorem resetMeetsTheInvariant : Obligations.ResetMeetsTheInvariant :=
  inv_reset []

/-- Settles O8: the next state is the one of `step_safe`. -/
theorem everyStepKeepsTheInvariant : Obligations.EveryStepKeepsTheInvariant := by
  intro s t h hst
  obtain ⟨u, hu, hInv⟩ := step_safe h
  cases hu.symm.trans hst
  exact hInv

/-- Settles O9, by `step_safe`. -/
theorem noStepStopsUnderTheInvariant : Obligations.NoStepStopsUnderTheInvariant := by
  intro s h
  obtain ⟨t, ht, -⟩ := step_safe h
  exact ⟨t, ht⟩

/-- Settles O10: reset meets the invariant with any events waiting, and a run from it does not stop (`run_safe`). -/
theorem noRunFromResetStops : Obligations.NoRunFromResetStops :=
  fun events n => run_safe (inv_reset events) n

end Sys2Proof.Machine
end

section
/-! Proofs for the family of 20_memory.md: the FC.FRAME expansion of R69 and the bytes of an RGB frame (R42). -/

namespace Sys2Proof.Machine

/-! ### The expansion of FC.FRAME -/

@[simp] theorem pixelOps_triplet (r g b : Byte) (rest : List Byte) :
    pixelOps (r :: g :: b :: rest) = (pixelOps rest).map (fun is => .fcPix r g b :: is) := rfl

/-- The one induction over the triplets: what holds of no pixels, and of one more pixel in front, holds of every list of
bytes and the operations it expands to. -/
theorem pixelOps_induction {P : List Byte → List Instr → Prop} (nil : P [] [])
    (pixel : ∀ r g b bytes ops, P bytes ops → P (r :: g :: b :: bytes) (.fcPix r g b :: ops)) :
    ∀ {bytes : List Byte} {ops : List Instr}, pixelOps bytes = some ops → P bytes ops := by
  intro bytes
  induction bytes using pixelOps.induct with
  | case1 =>
    rintro ops ⟨⟩
    exact nil
  | case2 r g b rest ih =>
    intro ops h
    obtain ⟨tail, htail, rfl⟩ := Option.map_eq_some_iff.mp h
    exact pixel r g b rest tail (ih htail)
  | case3 bytes hnil htriplet =>
    intro ops h
    simp [pixelOps] at h

/-- Three bytes for each operation. -/
theorem length_of_pixelOps {bytes : List Byte} {ops : List Instr} (h : pixelOps bytes = some ops) :
    bytes.length = 3 * ops.length := by
  refine pixelOps_induction (P := fun bytes ops => bytes.length = 3 * ops.length) rfl ?_ h
  intro r g b bytes ops ih
  simp only [List.length_cons]
  omega

/-- The operation at `p` is FC.PIX of the bytes at `3p`, `3p+1` and `3p+2` (R42). -/
theorem getElem?_of_pixelOps {bytes : List Byte} {ops : List Instr} (h : pixelOps bytes = some ops) :
    ∀ p, p < ops.length → ∃ r g b, bytes[3 * p]? = some r ∧ bytes[3 * p + 1]? = some g ∧
      bytes[3 * p + 2]? = some b ∧ ops[p]? = some (.fcPix r g b) := by
  refine pixelOps_induction (P := fun bytes ops => ∀ p, p < ops.length → ∃ r g b, bytes[3 * p]? = some r ∧
    bytes[3 * p + 1]? = some g ∧ bytes[3 * p + 2]? = some b ∧ ops[p]? = some (.fcPix r g b)) (by simp) ?_ h
  intro r g b bytes ops ih p hp
  cases p with
  | zero => exact ⟨r, g, b, rfl, rfl, rfl, rfl⟩
  | succ p => exact ih p (Nat.lt_of_succ_lt_succ hp)

/-! ### Back from the operations to the bytes -/

/-- The bytes that an operation carries as a pixel. -/
def pixelBytes : Instr → List Byte
  | .fcPix r g b => [r, g, b]
  | _ => []

/-- The operations give the bytes back. -/
theorem flatMap_pixelBytes_of_pixelOps {bytes : List Byte} {ops : List Instr} (h : pixelOps bytes = some ops) :
    ops.flatMap pixelBytes = bytes := by
  refine pixelOps_induction (P := fun bytes ops => ops.flatMap pixelBytes = bytes) rfl ?_ h
  intro r g b bytes ops ih
  simp [pixelBytes, ih]

theorem pixelOps_injective {bytes bytes' : List Byte} {ops : List Instr} (h : pixelOps bytes = some ops)
    (h' : pixelOps bytes' = some ops) : bytes' = bytes :=
  (flatMap_pixelBytes_of_pixelOps h').symm.trans (flatMap_pixelBytes_of_pixelOps h)

/-! ### Which byte counts are accepted -/

/-- Whole pixels are accepted. -/
theorem exists_pixelOps_of_length {n : Nat} {bytes : List Byte} (h : bytes.length = 3 * n) :
    ∃ ops, pixelOps bytes = some ops := by
  induction n generalizing bytes with
  | zero => exact ⟨[], by rw [List.eq_nil_of_length_eq_zero h]; rfl⟩
  | succ n ih =>
    match bytes, h with
    | r :: g :: b :: rest, h =>
      have hrest : rest.length = 3 * n := by simpa [Nat.mul_succ] using h
      obtain ⟨ops, hops⟩ := ih hrest
      exact ⟨.fcPix r g b :: ops, by simp [hops]⟩

/-- A cut pixel is refused: operations would come from whole pixels. -/
theorem pixelOps_eq_none_of_cut {bytes : List Byte} (h : bytes.length % 3 ≠ 0) : pixelOps bytes = none := by
  refine Option.eq_none_iff_forall_ne_some.mpr fun ops hops => h ?_
  rw [length_of_pixelOps hops, Nat.mul_mod_right]

/-- Settles O55: the frame's bytes are whole pixels, so they expand (`exists_pixelOps_of_length`); the count, the operation
at each place and the uniqueness of the bytes are the facts about any expansion above. -/
theorem rgbFrameIsItsPixels : Obligations.RgbFrameIsItsPixels := by
  refine ⟨fun s bytes hlen => ?_, fun bytes => pixelOps_eq_none_of_cut⟩
  have hpixels : bytes.length = 3 * npix s := hlen
  obtain ⟨ops, hops⟩ := exists_pixelOps_of_length hpixels
  have hcount : ops.length = npix s := by
    have := length_of_pixelOps hops
    omega
  refine ⟨ops, hops, hcount, ?_, fun bytes' => pixelOps_injective hops⟩
  rw [← hcount]
  exact getElem?_of_pixelOps hops

end Sys2Proof.Machine
end

section
/-! Proofs for the family of 30_encoding.md: the fields of a command word, what a format asks of them, the opcode map with
the mask table of R66, and the round trips between words and operations. -/

namespace Sys2Proof

/-! ### A word is its fields (R60, R61) -/

theorem extractLsb'_eq_iff {n : Nat} (x y : BitVec n) (k m : Nat) :
    x.extractLsb' k m = y.extractLsb' k m ↔ ∀ i < m, x.getLsbD (k + i) = y.getLsbD (k + i) := by
  rw [BitVec.eq_of_getLsbD_eq_iff]
  refine forall₂_congr fun i hi => ?_
  simp [hi]

/-- A field of `a + b` bits is its low `a` and its high `b` bits. -/
theorem extractLsb'_add_eq_iff {n : Nat} (x y : BitVec n) (k a b : Nat) :
    x.extractLsb' k (a + b) = y.extractLsb' k (a + b) ↔
      x.extractLsb' (k + a) b = y.extractLsb' (k + a) b ∧ x.extractLsb' k a = y.extractLsb' k a := by
  simp only [extractLsb'_eq_iff]
  constructor
  · intro h
    exact ⟨fun i hi => by simpa [Nat.add_assoc] using h (a + i) (by omega), fun i hi => h i (by omega)⟩
  · rintro ⟨hhigh, hlow⟩ i hi
    by_cases h : i < a
    · exact hlow i h
    · simpa [show k + a + (i - a) = k + i by omega] using hhigh (i - a) (by omega)

/-- The fields of R60 hold every bit of the word. -/
theorem cmd_eq_iff (x y : Cmd) :
    x = y ↔ cmdOp x = cmdOp y ∧ cmdCr x = cmdCr y ∧ cmdRsv x = cmdRsv y ∧ cmdImm x = cmdImm y := by
  calc x = y
    _ ↔ x.extractLsb' 0 (40 + 8 + 8 + 8) = y.extractLsb' 0 (40 + 8 + 8 + 8) := by simp
    _ ↔ _ := by
      rw [extractLsb'_add_eq_iff, extractLsb'_add_eq_iff, extractLsb'_add_eq_iff]
      rfl

theorem aboveMid_eq_iff (x y : Cmd) :
    x.extractLsb' 16 24 = y.extractLsb' 16 24 ↔
      x.extractLsb' 24 16 = y.extractLsb' 24 16 ∧ immHigh x = immHigh y :=
  extractLsb'_add_eq_iff x y 16 8 16

theorem aboveLow_eq_iff (x y : Cmd) :
    x.extractLsb' 8 32 = y.extractLsb' 8 32 ↔
      (x.extractLsb' 24 16 = y.extractLsb' 24 16 ∧ immHigh x = immHigh y) ∧ immMid x = immMid y := by
  rw [← aboveMid_eq_iff]
  exact extractLsb'_add_eq_iff x y 8 8 24

theorem cmdImm_eq_iff (x y : Cmd) :
    cmdImm x = cmdImm y ↔
      ((x.extractLsb' 24 16 = y.extractLsb' 24 16 ∧ immHigh x = immHigh y) ∧ immMid x = immMid y) ∧
        immLow x = immLow y := by
  rw [← aboveLow_eq_iff]
  exact extractLsb'_add_eq_iff x y 0 8 32

theorem aboveMid_eq_zero_iff (x : Cmd) :
    x.extractLsb' 16 24 = 0#24 ↔ x.extractLsb' 24 16 = 0#16 ∧ immHigh x = 0#8 :=
  aboveMid_eq_iff x 0#64

theorem aboveLow_eq_zero_iff (x : Cmd) :
    x.extractLsb' 8 32 = 0#32 ↔ (x.extractLsb' 24 16 = 0#16 ∧ immHigh x = 0#8) ∧ immMid x = 0#8 :=
  aboveLow_eq_iff x 0#64

/-- Formats B and W are format P with zero bytes on top (`immB_eq_immP`, `immW_eq_immP`). -/
theorem cmdImm_eq_immP_iff (x : Cmd) (r g b : Byte) :
    cmdImm x = immP r g b ↔ ((x.extractLsb' 24 16 = 0#16 ∧ immHigh x = r) ∧ immMid x = g) ∧ immLow x = b := by
  simpa [extract_cmdWord] using cmdImm_eq_iff x (cmdWord 0#8 0#8 (immP r g b))

theorem cmdImm_eq_zero_iff (x : Cmd) :
    cmdImm x = 0#40 ↔ ((x.extractLsb' 24 16 = 0#16 ∧ immHigh x = 0#8) ∧ immMid x = 0#8) ∧ immLow x = 0#8 :=
  cmdImm_eq_immP_iff x 0#8 0#8 0#8

/-- A masked word is an opcode alone exactly when its fields are, each under the mask's own. -/
theorem and_eq_cmdWord_iff (x m : Cmd) (op : Byte) :
    x &&& m = cmdWord op 0#8 0#40 ↔
      cmdOp x &&& cmdOp m = op ∧ cmdCr x &&& cmdCr m = 0#8 ∧ cmdRsv x &&& cmdRsv m = 0#8 ∧
        ((x.extractLsb' 24 16 &&& m.extractLsb' 24 16 = 0#16 ∧ immHigh x &&& immHigh m = 0#8) ∧
          immMid x &&& immMid m = 0#8) ∧ immLow x &&& immLow m = 0#8 := by
  have field (k n : Nat) : (x &&& m).extractLsb' k n = x.extractLsb' k n &&& m.extractLsb' k n :=
    BitVec.extractLsb'_and
  rw [cmd_eq_iff, cmdOp_cmdWord, cmdCr_cmdWord, cmdRsv_cmdWord, cmdImm_cmdWord, cmdImm_eq_zero_iff]
  simp only [cmdOp, cmdCr, cmdRsv, immHigh, immMid, immLow, field]

/-! ### What a format asks of a word (R61) -/

/-- The word that a format's operands in `x` make with its opcode, every other bit 0. -/
def formatWord (f : Format) (x : Cmd) : Cmd :=
  match f with
  | .z => cmdWord (cmdOp x) 0#8 0#40
  | .cr => cmdWord (cmdOp x) (cmdCr x) 0#40
  | .cw => cmdWord (cmdOp x) (cmdCr x) (cmdImm x)
  | .b => cmdWord (cmdOp x) 0#8 (immB (immLow x))
  | .w => cmdWord (cmdOp x) 0#8 (immW (immMid x) (immLow x))
  | .p => cmdWord (cmdOp x) 0#8 (immP (immHigh x) (immMid x) (immLow x))

/-- A word has its format's must-be-zero bits at 0 exactly when nothing is lost by rebuilding it from its operands. -/
theorem formatLegal_iff_eq_formatWord (f : Format) (x : Cmd) : formatLegal f x = true ↔ x = formatWord f x := by
  rw [cmd_eq_iff]
  cases f <;>
    simp [formatWord, formatLegal, immW_eq_immP, immB_eq_immP, cmdImm_eq_immP_iff, cmdImm_eq_zero_iff,
      aboveLow_eq_zero_iff, aboveMid_eq_zero_iff, and_assoc]

/-- The bits that a row of each format fixes: the opcode and the must-be-zero bits. -/
def formatMask : Format → Cmd
  | .z => 0xFFFFFFFFFFFFFFFF#64
  | .cr => 0xFF00FFFFFFFFFFFF#64
  | .cw => 0xFF00FF0000000000#64
  | .b => 0xFFFFFFFFFFFFFF00#64
  | .w => 0xFFFFFFFFFFFF0000#64
  | .p => 0xFFFFFFFFFF000000#64

theorem and_formatMask_eq_iff (f : Format) (op : Byte) (x : Cmd) :
    x &&& formatMask f = cmdWord op 0#8 0#40 ↔ cmdOp x = op ∧ formatLegal f x = true := by
  have byte (b : Byte) : b &&& 255#8 = b := BitVec.and_allOnes
  have above (b : BitVec 16) : b &&& 65535#16 = b := BitVec.and_allOnes
  rw [and_eq_cmdWord_iff]
  cases f <;>
    simp [formatMask, formatLegal, cmdImm_eq_zero_iff, aboveLow_eq_zero_iff, aboveMid_eq_zero_iff, and_assoc,
      cmdOp, cmdCr, cmdRsv, immHigh, immMid, immLow, byte, above]

/-! ### The opcode map (R64) and its rows (R66) -/

/-- The fifteen opcodes with their formats. -/
def opcodeFormats : List (Byte × Format) :=
  [(0x01#8, .cr), (0x02#8, .cw), (0x03#8, .z), (0x10#8, .p), (0x11#8, .z), (0x20#8, .w), (0x21#8, .w), (0x30#8, .b),
   (0x31#8, .z), (0x32#8, .w), (0x33#8, .z), (0x40#8, .b), (0x41#8, .z), (0x50#8, .b), (0x51#8, .z)]

/-- The fifteen opcodes. -/
def opcodes : List Byte := opcodeFormats.map Prod.fst

theorem opcode_mem_of_operationOf {x : Cmd} {f : Format} {i : Instr} (h : operationOf x = some (f, i)) :
    (cmdOp x, f) ∈ opcodeFormats := by
  unfold operationOf at h
  split at h <;> simp_all [opcodeFormats]

theorem exists_operationOf {x : Cmd} {f : Format} (h : (cmdOp x, f) ∈ opcodeFormats) :
    ∃ i, operationOf x = some (f, i) := by
  have every : ∀ p ∈ opcodeFormats, cmdOp x = p.1 → ∃ i, operationOf x = some (p.2, i) := by
    simp +contextual [opcodeFormats, operationOf]
  exact every _ h rfl

theorem cmdOp_mem_opcodes_iff (x : Cmd) : cmdOp x ∈ opcodes ↔ ∃ f i, operationOf x = some (f, i) := by
  constructor
  · intro h
    obtain ⟨⟨op, f⟩, hmem, rfl⟩ := List.mem_map.mp h
    exact ⟨f, exists_operationOf hmem⟩
  · rintro ⟨f, i, h⟩
    exact List.mem_map_of_mem (opcode_mem_of_operationOf h)

/-- The rows of the table are the opcodes under their formats' masks. -/
theorem opcodeRows_masks :
    opcodeRows.map (fun r => (r.mask, r.pattern)) =
      opcodeFormats.map fun p => (formatMask p.2, cmdWord p.1 0#8 0#40) := by
  decide

/-- A word matches a row exactly when it has an opcode with the must-be-zero bits of the opcode's format at 0. -/
theorem exists_row_iff_format (x : Cmd) :
    (∃ r ∈ opcodeRows, x &&& r.mask = r.pattern) ↔ ∃ f, (cmdOp x, f) ∈ opcodeFormats ∧ formatLegal f x = true := by
  calc (∃ r ∈ opcodeRows, x &&& r.mask = r.pattern)
    _ ↔ ∃ q ∈ opcodeRows.map (fun r => (r.mask, r.pattern)), x &&& q.1 = q.2 := by simp
    _ ↔ ∃ p ∈ opcodeFormats, x &&& formatMask p.2 = cmdWord p.1 0#8 0#40 := by
      simp only [opcodeRows_masks, List.mem_map, exists_exists_and_eq_and]
    _ ↔ ∃ f, (cmdOp x, f) ∈ opcodeFormats ∧ formatLegal f x = true := by
      simp [and_formatMask_eq_iff]

/-- Every row fixes the opcode byte. -/
theorem cmdOp_eq_of_row {x : Cmd} {r : Row} (hr : r ∈ opcodeRows) (h : x &&& r.mask = r.pattern) :
    cmdOp x = cmdOp r.pattern := by
  have hmem : (r.mask, r.pattern) ∈ opcodeRows.map fun r => (r.mask, r.pattern) := List.mem_map_of_mem hr
  rw [opcodeRows_masks] at hmem
  obtain ⟨⟨op, f⟩, -, hrow⟩ := List.mem_map.mp hmem
  obtain ⟨hmask, hpattern⟩ := Prod.mk.inj hrow
  rw [← hmask, ← hpattern, and_formatMask_eq_iff] at h
  obtain ⟨hop, -⟩ := h
  rw [hop, ← hpattern, cmdOp_cmdWord]

/-- No two rows share an opcode, so no word matches both. -/
theorem row_unique {x : Cmd} {r r' : Row} (hr : r ∈ opcodeRows) (hr' : r' ∈ opcodeRows)
    (h : x &&& r.mask = r.pattern) (h' : x &&& r'.mask = r'.pattern) : r = r' := by
  have hnodup : (opcodeRows.map fun r => cmdOp r.pattern).Nodup := by decide
  exact List.inj_on_of_nodup_map hnodup hr hr' ((cmdOp_eq_of_row hr h).symm.trans (cmdOp_eq_of_row hr' h'))

/-! ### What `decode` answers (R66) -/

theorem decode_eq_ok_iff (x : Cmd) (i : Instr) :
    decode x = .ok i ↔ ∃ f, operationOf x = some (f, i) ∧ formatLegal f x = true := by
  unfold decode
  split
  · simp [*]
  · split <;> simp_all

theorem decode_eq_opcode_iff (x : Cmd) : decode x = .error .opcode ↔ cmdOp x ∉ opcodes := by
  rw [cmdOp_mem_opcodes_iff]
  unfold decode
  split
  · simp [*]
  · split <;> simp [*]

theorem exists_decode_iff_row (x : Cmd) :
    (∃ i, decode x = .ok i) ↔ ∃ r ∈ opcodeRows, x &&& r.mask = r.pattern := by
  simp only [decode_eq_ok_iff, exists_row_iff_format]
  constructor
  · rintro ⟨i, f, hop, hlegal⟩
    exact ⟨f, opcode_mem_of_operationOf hop, hlegal⟩
  · rintro ⟨f, hmem, hlegal⟩
    obtain ⟨i, hop⟩ := exists_operationOf hmem
    exact ⟨i, f, hop, hlegal⟩

theorem decode_eq_reservedBits {x : Cmd} (hop : cmdOp x ∈ opcodes)
    (hrow : ∀ r ∈ opcodeRows, x &&& r.mask ≠ r.pattern) : decode x = .error .reservedBits := by
  match hd : decode x with
  | .ok i =>
    obtain ⟨r, hr, hmatch⟩ := (exists_decode_iff_row x).mp ⟨i, hd⟩
    exact absurd hmatch (hrow r hr)
  | .error .opcode => exact absurd hop ((decode_eq_opcode_iff x).mp hd)
  | .error .reservedBits => rfl

/-! ### The round trips -/

/-- An operation read from a word encodes to that word's opcode and operands. -/
theorem encode_of_operationOf {x : Cmd} {f : Format} {i : Instr} (h : operationOf x = some (f, i)) :
    encode i = formatWord f x := by
  unfold operationOf at h
  split at h <;> cases h <;> simp [encode, opcodeOf, formatWord, *]

theorem operationOf_encode (i : Instr) : ∃ f, operationOf (encode i) = some (f, i) := by
  cases i <;> simp [operationOf, encode, opcodeOf, immB_eq_immP, immW_eq_immP]

/-- Every operation has an encoding that decodes to it; it is legal because it is its own format's word. -/
theorem decode_encode (i : Instr) : decode (encode i) = .ok i := by
  obtain ⟨f, hop⟩ := operationOf_encode i
  have hlegal : formatLegal f (encode i) = true :=
    (formatLegal_iff_eq_formatWord f (encode i)).mpr (encode_of_operationOf hop)
  exact (decode_eq_ok_iff _ i).mpr ⟨f, hop, hlegal⟩

theorem encode_of_decode {x : Cmd} {i : Instr} (h : decode x = .ok i) : encode i = x := by
  obtain ⟨f, hop, hlegal⟩ := (decode_eq_ok_iff x i).mp h
  rw [encode_of_operationOf hop]
  exact ((formatLegal_iff_eq_formatWord f x).mp hlegal).symm

end Sys2Proof

namespace Sys2Proof.Machine

/-- Settles O1, by `decode_encode`. -/
theorem decodeOfEncodeIsTheOperation : Obligations.DecodeOfEncodeIsTheOperation := decode_encode

/-- Settles O2, by `encode_of_decode`. -/
theorem encodeOfDecodeIsTheWord : Obligations.EncodeOfDecodeIsTheWord := fun _ _ => encode_of_decode

/-- Settles O3: each word is the encoding of its operation, which `decode_encode` gives back. -/
theorem sampleWordsDecode : Obligations.SampleWordsDecode :=
  ⟨decode_encode (.rdcr 6#8), decode_encode (.wrcr 1#8 4#40), decode_encode .init,
    decode_encode (.fcPix 255#8 0#8 0#8), decode_encode (.dltSub 10#8 250#8), decode_encode (.rlePush 7#8),
    decode_encode (.rldPair 8#8 255#8), decode_encode (.sePush 5#8), decode_encode .sdEnd⟩

/-- A word that does not decode is taken off the queue and raises IllegalCommand; the step does nothing else. -/
theorem step_of_decode_error {s : State} {w : Cmd} {rest : List HostEvent} {e : DecodeError}
    (hq : s.inputs = .command w :: rest) (hd : decode w = .error e) :
    step s = .next (raised 4#8 0#8 (decodeErrorSub e) 0#32 { s with inputs := rest }) := by
  rw [step_of_command hq]
  simp only [runWord, hd, raiseIllegalWord, raise_eq_raised]
  rfl

/-- Settles O4: `decode` names the sub-cause by the opcode and the rows, and the step raises it
(`step_of_decode_error`); a row that matches decodes (`exists_decode_iff_row`) and is the only one (`row_unique`). -/
theorem illegalWordsRaiseAndDoNothingElse : Obligations.IllegalWordsRaiseAndDoNothingElse := by
  intro w rest s hq
  exact ⟨fun hop => step_of_decode_error hq ((decode_eq_opcode_iff w).mpr hop),
    fun hop hrow => step_of_decode_error hq (decode_eq_reservedBits hop hrow),
    (exists_decode_iff_row w).mpr, fun _ hr _ hr' => row_unique hr hr'⟩

end Sys2Proof.Machine
end

section
/-! Proofs for the family of 40_color_convert.md: the colour arithmetic (R81 to R85), the packed frame (R86) and the
operations of unit FC (R87 to R91). -/

namespace Sys2Proof.Machine

/-! ### The arithmetic of a pixel (R81 to R84) -/

/-- `clamp8` leaves a value that is a byte already (R84). -/
theorem clamp8_toNat {q : Int} (h0 : 0 ≤ q) (h1 : q ≤ 255) : ((clamp8 q).toNat : Int) = q := by
  rw [clamp8, BitVec.toNat_ofNat]
  omega

theorem y1000_eq (r g b : Byte) :
    y1000 Config.params.k r g b = 299 * (r.toNat : Int) + 587 * (g.toNat : Int) + 114 * (b.toNat : Int) := rfl

theorem cscU_eq (r g b : Byte) :
    cscU Config.params.k r g b =
      1280000 - 1690 * (r.toNat : Int) - 3310 * (g.toNat : Int) + 4490 * (b.toNat : Int) := by
  have hu : cscU Config.params.k r g b = 1280000 + -1690 * (r.toNat : Int) + -3310 * (g.toNat : Int) +
    4490 * (b.toNat : Int) := rfl
  omega

theorem cscV_eq (r g b : Byte) :
    cscV Config.params.k r g b =
      1280000 + 4990 * (r.toNat : Int) - 4180 * (g.toNat : Int) - 813 * (b.toNat : Int) := by
  have hv : cscV Config.params.k r g b = 1280000 + 4990 * (r.toNat : Int) + -4180 * (g.toNat : Int) +
    -813 * (b.toNat : Int) := rfl
  omega

theorem y1000_bounds (r g b : Byte) :
    0 ≤ y1000 Config.params.k r g b ∧ y1000 Config.params.k r g b ≤ 255000 := by
  rw [y1000_eq]
  omega

/-- The luma clamp never acts: the sum of R81 is at most 255000. -/
theorem cscY_toNat (r g b : Byte) :
    (cscY Config.params.k r g b).toNat = (299 * r.toNat + 587 * g.toNat + 114 * b.toNat) / 1000 := by
  obtain ⟨hlo, hhi⟩ := y1000_bounds r g b
  have hclamp : ((cscY Config.params.k r g b).toNat : Int) = y1000 Config.params.k r g b / 1000 :=
    clamp8_toNat (q := y1000 Config.params.k r g b / 1000) (by omega) (by omega)
  rw [y1000_eq] at hclamp
  omega

/-- The luma coefficients sum to 1000, so a grey pixel keeps its level. -/
theorem cscY_grey (r : Byte) : cscY Config.params.k r r r = r := by
  apply BitVec.eq_of_toNat_eq
  rw [cscY_toNat]
  omega

theorem cscU_bounds (r g b : Byte) : 5000 ≤ cscU Config.params.k r g b ∧ cscU Config.params.k r g b ≤ 2424950 := by
  rw [cscU_eq]
  omega

theorem cscV_bounds (r g b : Byte) : 6785 ≤ cscV Config.params.k r g b ∧ cscV Config.params.k r g b ≤ 2552450 := by
  rw [cscV_eq]
  omega

/-- Settles O26: the conversion's equations, the bounds of `y1000`, and grey by `cscY_grey`. -/
theorem colourConversionLiterals : Obligations.ColourConversionLiterals :=
  fun r g b => ⟨cscY_toNat r g b, cscU_eq r g b, cscV_eq r g b, y1000_bounds r g b, cscY_grey r⟩

/-! ### The average of a block (R85) -/

/-- The average of four intermediates is not clamped while their sum stays below 256 times the denominator. -/
theorem cssAvg_toNat {a b c d : Int} (h0 : 0 ≤ a + b + c + d) (h1 : a + b + c + d < 256 * 40000) :
    ((cssAvg a b c d).toNat : Int) = (a + b + c + d) / 40000 :=
  clamp8_toNat (q := (a + b + c + d) / 40000) (by omega) (by omega)

/-- Settles O27: the ranges are `cscU_bounds` and `cscV_bounds`, each end is a pixel's value, and four intermediates in
range sum to less than `cssAvg_toNat` asks. -/
theorem chromaIntermediatesStayInRange : Obligations.ChromaIntermediatesStayInRange := by
  refine ⟨fun r g b => ?_, by decide, by decide, by decide, by decide, ?_, ?_⟩
  · obtain ⟨hulo, huhi⟩ := cscU_bounds r g b
    obtain ⟨hvlo, hvhi⟩ := cscV_bounds r g b
    omega
  · intro a b c d _ _ _ _ _ _ _ _
    have havg := cssAvg_toNat (a := a) (b := b) (c := c) (d := d) (by omega) (by omega)
    exact ⟨by omega, havg, by omega⟩
  · intro a b c d _ _ _ _ _ _ _ _
    exact ⟨by omega, cssAvg_toNat (by omega) (by omega)⟩

/-! ### The packed frame (R86) -/

/-- The byte `x` is the average of the 2x2 block of cell `(cx, cy)`, all four of whose elements are written. -/
def IsCellAverage (w : Nat) (m : Memory Chroma) (cx cy : Nat) (x : Byte) : Prop :=
  ∃ p00 p10 p01 p11 : Chroma,
    bufGet m (2 * cy * w + 2 * cx) = some p00 ∧ bufGet m (2 * cy * w + 2 * cx + 1) = some p10 ∧
    bufGet m ((2 * cy + 1) * w + 2 * cx) = some p01 ∧ bufGet m ((2 * cy + 1) * w + 2 * cx + 1) = some p11 ∧
    x = cssAvg p00.toNat p10.toNat p01.toNat p11.toNat

theorem isCellAverage_of_chromaCell {bid : BufId} {n w : Nat} {m : Memory Chroma} {cy cx : Nat} {x : Byte}
    (h : chromaCell bid n w m cy cx = .ok x) : IsCellAverage w m cx cy x := by
  obtain ⟨p00, p10, p01, p11, h00, h10, h01, h11, rfl⟩ := chromaCell_ok_iff.mp h
  have hrow : (2 * cy + 1) * w + 2 * cx = 2 * cy * w + 2 * cx + w := by ring
  refine ⟨p00, p10, p01, p11, (bufRead_ok_iff.mp h00).2, (bufRead_ok_iff.mp h10).2, ?_, ?_, rfl⟩
  · rw [hrow]
    exact (bufRead_ok_iff.mp h01).2
  · rw [hrow]
    exact (bufRead_ok_iff.mp h11).2

/-- A cell's index in its plane lies below NC. -/
theorem cell_index_lt {w h cx cy : Nat} (hl : dimsLegal w h = true) (hx : cx < w / 2) (hy : cy < h / 2) :
    cy * (w / 2) + cx < ncOf w h := by
  obtain ⟨a, b, -, -, rfl, rfl, -, hc, -⟩ := sizes_of_legal hl
  rw [Nat.mul_div_cancel_left _ Nat.two_pos] at hx hy ⊢
  rw [hc, Nat.mul_comm a b]
  calc cy * a + cx < (cy + 1) * a := by rw [Nat.succ_mul]; omega
    _ ≤ b * a := Nat.mul_le_mul_right a hy

/-- A subsampled plane holds NC bytes, row-major, each the average of its cell's block (R44, R86). -/
theorem chromaPlane_layout {bid : BufId} {w h : Nat} {m : Memory Chroma} {xs : List Byte}
    (hl : dimsLegal w h = true) (hxs : chromaPlane bid w h m = .ok xs) :
    xs.length = ncOf w h ∧
    ∀ cx cy, cx < w / 2 → cy < h / 2 → ∃ x, xs[cy * (w / 2) + cx]? = some x ∧ IsCellAverage w m cx cy x := by
  obtain ⟨hlen, hcells⟩ := collect_ok_iff.mp hxs
  refine ⟨hlen, fun cx cy hx hy => ?_⟩
  have hk : cy * (w / 2) + cx < xs.length := hlen ▸ cell_index_lt hl hx hy
  have hdiv : (cy * (w / 2) + cx) / (w / 2) = cy := by
    rw [Nat.mul_comm, Nat.mul_add_div (by omega), Nat.div_eq_of_lt hx, Nat.add_zero]
  have hmod : (cy * (w / 2) + cx) % (w / 2) = cx := by
    rw [Nat.mul_add_mod', Nat.mod_eq_of_lt hx]
  have hcell := hcells _ hk
  rw [Nat.zero_add, hdiv, hmod] at hcell
  exact ⟨_, List.getElem?_eq_getElem hk, isCellAverage_of_chromaCell hcell⟩

/-- The frame has `L` bytes whenever it can be packed (R86). -/
theorem fcPack_length {w h : Nat} {fc : FcUnit} {frame : List Byte} (hl : dimsLegal w h = true)
    (hframe : fcPack w h fc = .ok frame) : frame.length = lenOf w h := by
  obtain ⟨y, u, v, hy, hu, hv, rfl⟩ := fcPack_ok_iff.mp hframe
  obtain ⟨hylen, -⟩ := bufReadAll_ok_iff.mp hy
  obtain ⟨hulen, -⟩ := chromaPlane_layout hl hu
  obtain ⟨hvlen, -⟩ := chromaPlane_layout hl hv
  rw [List.length_append, List.length_append, hylen, hulen, hvlen, lenOf_eq hl]
  omega

/-- Settles O28: the frame exists by `fcPack_total`, and each plane starts where the ones before it end. -/
theorem packedFrameLayout : Obligations.PackedFrameLayout := by
  intro w h fc hl hwy hwu hwv
  obtain ⟨frame, hframe⟩ := fcPack_total hl hwy hwu hwv
  have hlen := fcPack_length hl hframe
  obtain ⟨y, u, v, hy, hu, hv, rfl⟩ := fcPack_ok_iff.mp hframe
  obtain ⟨hylen, hyget⟩ := bufReadAll_ok_iff.mp hy
  obtain ⟨hulen, hucell⟩ := chromaPlane_layout hl hu
  obtain ⟨-, hvcell⟩ := chromaPlane_layout hl hv
  refine ⟨_, hframe, hlen.trans (lenOf_eq hl), fun p hp => ?_, fun cx cy hx hy => ⟨?_, ?_⟩⟩
  · rw [hyget p hp, List.append_assoc, List.getElem?_append_left (by rw [hylen]; exact hp)]
  · obtain ⟨_, hat, p00, p10, p01, p11, h00, h10, h01, h11, rfl⟩ := hucell cx cy hx hy
    have hin : cy * (w / 2) + cx < u.length := hulen ▸ cell_index_lt hl hx hy
    refine ⟨p00, p10, p01, p11, h00, h10, h01, h11, ?_⟩
    change (y ++ u ++ v)[npixOf w h + cy * (w / 2) + cx]? = _
    rw [List.append_assoc, Nat.add_assoc, ← hylen, List.getElem?_append_right (Nat.le_add_right _ _),
      Nat.add_sub_cancel_left, List.getElem?_append_left hin, hat]
  · obtain ⟨_, hat, p00, p10, p01, p11, h00, h10, h01, h11, rfl⟩ := hvcell cx cy hx hy
    refine ⟨p00, p10, p01, p11, h00, h10, h01, h11, ?_⟩
    change (y ++ u ++ v)[npixOf w h + ncOf w h + cy * (w / 2) + cx]? = _
    rw [Nat.add_assoc, ← hylen, ← hulen, ← List.length_append, List.getElem?_append_right (Nat.le_add_right _ _),
      Nat.add_sub_cancel_left, hat]

/-! ### FC.PIX (R87, R88) -/

/-- FC.PIX with legal dimensions answers what its body does. -/
theorem exec_fcPix_of_fcPixel {r g b : Byte} {s u : State} (hd : dimsOk s = true) (hu : fcPixel r g b s = .ok u) :
    exec (.fcPix r g b) s = .next (respondOk 0#40 u) :=
  execFcPix_next_iff.mpr (.inr ⟨hd, u, hu, rfl⟩)

/-- Settles O29: the buffers after the pixel are those of `fcStored`, read by the rules of `bufPut`. -/
theorem fcPixStoresAPixel : Obligations.FcPixStoresAPixel := by
  intro r g b s hd hnext
  have hN : npix s < 2 ^ 33 := npix_lt hd
  obtain ⟨hulo, huhi⟩ := cscU_bounds r g b
  obtain ⟨hvlo, hvhi⟩ := cscV_bounds r g b
  have hbody : fcPixel r g b s = .ok { s with fc := { fcStored r g b s.fc with pos := s.fc.pos + 1#34 } } :=
    fcPixel_ok_iff.mpr ⟨by omega, .inl ⟨hnext, rfl⟩⟩
  refine ⟨_, exec_fcPix_of_fcPixel hd hbody, len_add_one_toNat s.fc.pos (by omega),
    ⟨_, bufGet_bufPut_same _ _ _, cscY_toNat r g b⟩, ⟨_, bufGet_bufPut_same _ _ _, ?_⟩,
    ⟨_, bufGet_bufPut_same _ _ _, ?_⟩,
    fun a ha => ⟨bufGet_bufPut_other _ _ ha, bufGet_bufPut_other _ _ ha, bufGet_bufPut_other _ _ ha⟩, rfl⟩
  · rw [chroma_toNat (by omega) (by omega), cscU_eq]
  · rw [chroma_toNat (by omega) (by omega), cscV_eq]

/-- Once the last pixel is stored every element is written, and the packed frame has `L` bytes. -/
theorem fcPack_fcStored_last {s : State} (hd : dimsOk s = true) (hlast : s.fc.pos.toNat + 1 = npix s)
    (hy : writtenBelow s.fc.y s.fc.pos.toNat) (hu : writtenBelow s.fc.u s.fc.pos.toNat)
    (hv : writtenBelow s.fc.v s.fc.pos.toNat) (r g b : Byte) :
    ∃ frame, fcPack (frameW s) (frameH s) (fcStored r g b s.fc) = .ok frame ∧ frame.length = frameLen s := by
  have whole {α : Type} {m : Memory α} (x : α) (hm : writtenBelow m s.fc.pos.toNat) :
      writtenBelow (bufPut m s.fc.pos.toNat x) (npix s) := hlast ▸ writtenBelow_bufPut x hm
  obtain ⟨frame, hframe⟩ :=
    fcPack_total (fc := fcStored r g b s.fc) hd (whole _ hy) (whole _ hu) (whole _ hv)
  exact ⟨frame, hframe, fcPack_length hd hframe⟩

/-- FC.PIX of the last pixel delivers the packed frame from the state whose FC unit has completed it (R87). -/
theorem exec_fcPix_last {r g b : Byte} {s u : State} {frame : List Byte} (hd : dimsOk s = true)
    (hlast : s.fc.pos.toNat + 1 = npix s) (hframe : fcPack (frameW s) (frameH s) (fcStored r g b s.fc) = .ok frame)
    (hu : fcDeliver frame { s with fc := fcDone r g b s.fc } = .ok u) :
    exec (.fcPix r g b) s = .next (respondOk 0#40 u) :=
  exec_fcPix_of_fcPixel hd (fcPixel_ok_iff.mpr ⟨by omega, .inr ⟨hlast, frame, hframe, hu⟩⟩)

theorem fcDeliver_of_not_chain {s : State} (frame : List Byte) (hc : s.ctl.chain = false) :
    fcDeliver frame s = .ok (emit .fc frame s) := by
  simp [fcDeliver, hc]

theorem fcDeliver_of_chain {s : State} (frame : List Byte) (hc : s.ctl.chain = true) :
    fcDeliver frame s = sePushAll frame s := by
  simp [fcDeliver, hc]

/-- Settles O30: the frame of `fcPack_fcStored_last`, delivered to OUT. -/
theorem fcPixLastPixelEmitsTheFrame : Obligations.FcPixLastPixelEmitsTheFrame := by
  intro r g b s hd hlast hc hy hu hv
  obtain ⟨frame, hframe, hlen⟩ := fcPack_fcStored_last hd hlast hy hu hv r g b
  exact ⟨frame, hframe, hlen, exec_fcPix_last hd hlast hframe (fcDeliver_of_not_chain frame (by exact hc))⟩

/-! ### The chain (R90) -/

/-- What unit SE needs for the next byte: a position inside the frame, every byte before it written, and the previous
frame whole once there is one. It asks less than `SeInv`: nothing about the frame index. -/
structure SeReady (s : State) : Prop where
  pos : s.se.pos.toNat < frameLen s
  cur : writtenBelow s.se.cur s.se.pos.toNat
  prev : s.se.first = false → writtenBelow s.se.prev (frameLen s)

/-- `seFrameBytes_total` without the invariant: the previous frame is all it reads. -/
theorem seFrameBytes_of_prev {n : Nat} {se : SeUnit} (hprev : se.first = false → writtenBelow se.prev n)
    (cur : List Byte) : ∃ bytes, seFrameBytes n se cur = .ok bytes := by
  cases hf : se.first with
  | true => exact ⟨cur, seFrameBytes_ok_iff.mpr (.inl ⟨hf, rfl⟩)⟩
  | false =>
    obtain ⟨prev, hp⟩ := bufReadAll_total (b := .sePrev) (hprev hf)
    exact ⟨_, seFrameBytes_ok_iff.mpr (.inr ⟨hf, prev, hp, rfl⟩)⟩

/-- A completed frame is read whole and becomes the previous one, so unit SE is ready for the next frame. -/
theorem seFrame_ready {s : State} (hcur : writtenBelow s.se.cur (frameLen s))
    (hprev : s.se.first = false → writtenBelow s.se.prev (frameLen s)) (hL : 0 < frameLen s) :
    ∃ u, seFrame s = .ok u ∧ SeReady u := by
  obtain ⟨frame, hread⟩ := bufReadAll_total (b := .seCur) hcur
  obtain ⟨hlen, -⟩ := bufReadAll_ok_iff.mp hread
  obtain ⟨bytes, hbytes⟩ := seFrameBytes_of_prev hprev frame
  exact ⟨_, seFrame_ok_iff.mpr ⟨frame, bytes, hread, hbytes, rfl⟩, hL, fun i hi => absurd hi (Nat.not_lt_zero i),
    fun _ => hlen ▸ writtenBelow_bufPutFrom s.se.prev frame⟩

theorem sePushByte_ready {s : State} (h : SeReady s) (hd : dimsOk s = true) (b : Byte) :
    ∃ u, sePushByte b s = .ok u ∧ SeReady u ∧ dimsOk u = true := by
  have hL : frameLen s < 2 ^ 33 := frameLen_lt hd
  have hpos := h.pos
  have hcur := writtenBelow_bufPut b h.cur
  have pushed : ∃ u, sePushByte b s = .ok u ∧ SeReady u := by
    by_cases hlast : s.se.pos.toNat + 1 < frameLen s
    · have hnext := len_add_one_toNat s.se.pos (by omega)
      rw [← hnext] at hcur
      exact ⟨_, sePushByte_ok_iff.mpr ⟨hpos, .inl ⟨hlast, rfl⟩⟩, hnext ▸ hlast, hcur, h.prev⟩
    · have hend : s.se.pos.toNat + 1 = frameLen s := by omega
      rw [hend] at hcur
      obtain ⟨u, hu, hready⟩ :=
        seFrame_ready (s := { s with se := { s.se with cur := bufPut s.se.cur s.se.pos.toNat b } }) hcur h.prev
          (Nat.zero_lt_of_lt hpos)
      exact ⟨u, sePushByte_ok_iff.mpr ⟨hpos, .inr ⟨hend, hu⟩⟩, hready⟩
  obtain ⟨u, hu, hready⟩ := pushed
  obtain ⟨o, hframe, -⟩ := sePushByte_frame hu
  exact ⟨u, hu, hready, by rw [dimsOk_congr u s (by rw [hframe]), hd]⟩

/-- The bytes pushed one after the other are what SE.PUSH of each of them does (R90). A response comes before them as
well as after them, since no operation reads it. -/
theorem sePushAll_execAll {s : State} (h : SeReady s) (hd : dimsOk s = true) (bs : List Byte) :
    ∃ u, sePushAll bs s = .ok u ∧
      execAll (bs.map .sePush) (respondOk 0#40 s) = .next (respondOk 0#40 u) := by
  induction bs generalizing s with
  | nil => exact ⟨s, rfl, rfl⟩
  | cons b bs ih =>
    obtain ⟨v, hv, hready, hdv⟩ := sePushByte_ready h hd b
    obtain ⟨u, hu, hrun⟩ := ih hready hdv
    have hexec : exec (.sePush b) (respondOk 0#40 s) = .next (respondOk 0#40 v) :=
      (noOperationReadsTheResponse (.sePush b) s (okReply 0#40)).1.trans
        (execSePush_next_iff.mpr (.inr ⟨hd, v, hv, rfl⟩))
    exact ⟨u, by simp only [sePushAll, hv, hu], by simp only [List.map_cons, execAll, hexec, hrun]⟩

/-- The first of one or more operations does not read the response before it (R25). -/
theorem execAll_respondOk {is : List Instr} (hne : is ≠ []) (val : XWord) (s : State) :
    execAll is (respondOk val s) = execAll is s := by
  cases is with
  | nil => exact absurd rfl hne
  | cons i is =>
    have hread : exec i (respondOk val s) = exec i s := (noOperationReadsTheResponse i s (okReply val)).1
    simp only [execAll, hread]

/-- Settles O31: the chain pushes the packed frame, which is what the SE.PUSH operations do (`sePushAll_execAll`);
the frame has at least six bytes, so the response before the first of them is not seen. -/
theorem fcPixChainedFrameIsPushedIntoSe : Obligations.FcPixChainedFrameIsPushedIntoSe := by
  intro r g b s hd hlast hc hy hu hv hpos hcur hprev
  obtain ⟨frame, hframe, hlen⟩ := fcPack_fcStored_last hd hlast hy hu hv r g b
  have hready : SeReady { s with fc := fcDone r g b s.fc } := ⟨hpos, hcur, hprev⟩
  obtain ⟨u, hpush, hrun⟩ := sePushAll_execAll hready hd frame
  have hne : frame.map Instr.sePush ≠ [] := by
    have hL := frameLen_ge hd
    intro hnil
    rw [List.map_eq_nil_iff] at hnil
    rw [hnil, List.length_nil] at hlen
    omega
  obtain ⟨o, hu', -⟩ := sePushAll_frame hpush
  refine ⟨frame, respondOk 0#40 u, hframe, (execAll_respondOk hne _ _).symm.trans hrun,
    exec_fcPix_last hd hlast hframe ((fcDeliver_of_chain frame (by exact hc)).trans hpush), ?_, rfl⟩
  rw [hu']
  rfl

/-! ### FC.END (R91) -/

/-- Settles O32: the word is the encoding of FC.END, which `decode_encode` gives back, and the answer is `reinit(FC)`
with the old position as the response. -/
theorem fcEndDropsThePartialFrame : Obligations.FcEndDropsThePartialFrame :=
  ⟨decode_encode .fcEnd, fun _ => rfl⟩

end Sys2Proof.Machine
end


section
/-! Proofs for the family of 41_delta.md: the mod-256 difference and sum (R100), the operations of unit DLT (R101, R102)
and their inversion over frames (R103). -/

namespace Sys2Proof.Machine

/-! ### The difference and the sum of bytes (R100) -/

/-- The integer difference modulo 256 is the subtraction of bytes. -/
theorem deltaEnc_eq_sub (a b : Byte) : deltaEnc a b = a - b := by
  apply BitVec.eq_of_toNat_eq
  rw [deltaEnc, BitVec.toNat_ofInt, BitVec.toNat_sub]
  omega

/-- The integer sum modulo 256 is the addition of bytes. -/
theorem deltaDec_eq_add (d b : Byte) : deltaDec d b = d + b := by
  apply BitVec.eq_of_toNat_eq
  rw [deltaDec, BitVec.toNat_ofInt, BitVec.toNat_add]
  omega

theorem deltaEnc_toNat (a b : Byte) : (deltaEnc a b).toNat = (a.toNat + 256 - b.toNat) % 256 := by
  rw [deltaEnc_eq_sub, BitVec.toNat_sub]
  omega

theorem deltaDec_toNat (d b : Byte) : (deltaDec d b).toNat = (d.toNat + b.toNat) % 256 := by
  rw [deltaDec_eq_add, BitVec.toNat_add]

/-! ### Inversion, by bytes and over frames (R103) -/

@[simp] theorem deltaDec_deltaEnc (a b : Byte) : deltaDec (deltaEnc a b) b = a := by
  rw [deltaDec_eq_add, deltaEnc_eq_sub, BitVec.sub_add_cancel]

@[simp] theorem deltaEnc_deltaDec (d b : Byte) : deltaEnc (deltaDec d b) b = d := by
  rw [deltaEnc_eq_sub, deltaDec_eq_add, BitVec.add_sub_cancel]

/-- An inversion of bytes against a second byte lifts to sequences against a second sequence of the same length. -/
theorem zipWith_zipWith_cancel {undo op : Byte → Byte → Byte} (hinv : ∀ a b, undo (op a b) b = a) {f p : List Byte}
    (hlen : f.length = p.length) : List.zipWith undo (List.zipWith op f p) p = f := by
  induction f generalizing p with
  | nil => rfl
  | cons a f ih =>
    cases p with
    | nil => cases hlen
    | cons b p => simp only [List.zipWith_cons_cons, hinv, ih (Nat.succ.inj hlen)]

/-- Settles O34: the byte identities of R103, lifted to frames by `zipWith_zipWith_cancel`. -/
theorem deltaCodingIsInvertibleOverFrames : Obligations.DeltaCodingIsInvertibleOverFrames :=
  fun _ _ hlen => ⟨zipWith_zipWith_cancel deltaDec_deltaEnc hlen, zipWith_zipWith_cancel deltaEnc_deltaDec hlen⟩

/-! ### DLT.SUB and DLT.ADD (R101, R102) -/

/-- Settles O33: the words are the encodings of the operations, which `decode_encode` gives back, and each operation
emits the byte whose value `deltaEnc_toNat` or `deltaDec_toNat` says. -/
theorem deltaOperationsEmitOneByte : Obligations.DeltaOperationsEmitOneByte :=
  fun a b _ => ⟨decode_encode (.dltSub a b), decode_encode (.dltAdd a b),
    ⟨deltaEnc a b, deltaEnc_toNat a b, rfl⟩, ⟨deltaDec a b, deltaDec_toNat a b, rfl⟩⟩

end Sys2Proof.Machine
end

section
/-! Proofs for the family of 42_rle.md: the functions of units RLE and RLD as lists of pairs (R110, R111, R114, R117),
and the operations that compute them byte by byte and pair by pair (R113, R115, R116, R121 to R123). -/

namespace Sys2Proof.Machine

/-! ### The encoder with a run open, in bytes (R110) -/

/-- The pairs `rle_encode` gives for `xs` with a run of the count byte `c` and the value byte `v` open, the form in
which unit RLE holds it. -/
def openPairs (v c : Byte) (xs : List Byte) : List (Byte × Byte) := pairsOf (rleEncodeRun v c.toNat xs)

theorem pairsOf_rleEncode_cons (x : Byte) (xs : List Byte) : pairsOf (rleEncode (x :: xs)) = openPairs x 1#8 xs := rfl

/-- Below the cap a count byte grows without wrapping. -/
theorem count_add_one_toNat {c : Byte} (h : c ≠ 255#8) : (c + 1#8).toNat = c.toNat + 1 := by
  bv_omega

theorem count_lt_runCap_iff (c : Byte) : c.toNat < Config.params.runCap ↔ c ≠ 255#8 := by
  rw [Config.params_runCap]
  bv_omega

/-- When the next byte closes the open run (R110, R113). -/
theorem run_closes_iff {v c x : Byte} : ¬ (x = v ∧ c.toNat < Config.params.runCap) ↔ x ≠ v ∨ c = 255#8 := by
  rw [count_lt_runCap_iff, not_and_or, not_ne_iff]

@[simp] theorem openPairs_nil (v c : Byte) : openPairs v c [] = [(c, v)] := by
  simp [openPairs, rleEncodeRun, pairsOf]

theorem openPairs_extend {c : Byte} (h : c ≠ 255#8) (v : Byte) (xs : List Byte) :
    openPairs v c (v :: xs) = openPairs v (c + 1#8) xs := by
  rw [openPairs, openPairs, rleEncodeRun, if_pos ⟨rfl, (count_lt_runCap_iff c).mpr h⟩, count_add_one_toNat h]

theorem openPairs_close {v c x : Byte} (h : x ≠ v ∨ c = 255#8) (xs : List Byte) :
    openPairs v c (x :: xs) = (c, v) :: openPairs x 1#8 xs := by
  rw [openPairs, rleEncodeRun, if_neg (run_closes_iff.mpr h), pairsOf, BitVec.ofNat_toNat, BitVec.setWidth_eq]
  rfl

/-- The three ways of R110: the input ends, the run grows by its own value below the cap, or the next byte closes it. -/
theorem openRun_induction {P : Byte → Byte → List Byte → Prop} (ends : ∀ v c, P v c [])
    (extend : ∀ v c xs, c ≠ 255#8 → P v (c + 1#8) xs → P v c (v :: xs))
    (close : ∀ v c x xs, x ≠ v ∨ c = 255#8 → P x 1#8 xs → P v c (x :: xs)) (v c : Byte) (xs : List Byte) :
    P v c xs := by
  induction xs generalizing v c with
  | nil => exact ends v c
  | cons x xs ih =>
    by_cases h : x ≠ v ∨ c = 255#8
    · exact close v c x xs h (ih x 1#8)
    · obtain ⟨rfl, hc⟩ : x = v ∧ c ≠ 255#8 := by simpa using h
      exact extend x c xs hc (ih x (c + 1#8))

/-! ### What the pairs of an open run say (R114, R117) -/

theorem expandPairs_openPairs (v c : Byte) (xs : List Byte) :
    expandPairs (openPairs v c xs) = List.replicate c.toNat v ++ xs := by
  induction v, c, xs using openRun_induction with
  | ends v c => simp [expandPairs]
  | extend v c xs hc ih => simp [openPairs_extend hc, ih, count_add_one_toNat hc, List.replicate_succ']
  | close v c x xs h ih => simp [openPairs_close h, ih, expandPairs]

/-- A run that counts at least one byte closes with such a count, and every later run opens with one. -/
theorem openPairs_count_ne_zero {v c : Byte} {xs : List Byte} (h0 : c ≠ 0#8) :
    ∀ p ∈ openPairs v c xs, p.1 ≠ 0#8 := by
  induction v, c, xs using openRun_induction with
  | ends v c => simpa using h0
  | extend v c xs hc ih =>
    rw [openPairs_extend hc]
    exact ih (by bv_omega)
  | close v c x xs h ih =>
    rw [openPairs_close h]
    exact List.forall_mem_cons.mpr ⟨h0, ih (by decide)⟩

/-- The first pair closes the open run, so it has that run's value. -/
theorem openPairs_head?_value {v c : Byte} {xs : List Byte} : ∀ p ∈ (openPairs v c xs).head?, p.2 = v := by
  induction v, c, xs using openRun_induction with
  | ends v c => simp
  | extend v c xs hc ih => rwa [openPairs_extend hc]
  | close v c x xs h ih => simp [openPairs_close h]

/-- A pair is followed by one of the same value only when it is full: the condition on which a run is closed. -/
theorem openPairs_isChain (v c : Byte) (xs : List Byte) :
    (openPairs v c xs).IsChain fun p q => p.2 = q.2 → p.1 = 255#8 := by
  induction v, c, xs using openRun_induction with
  | ends v c => simp
  | extend v c xs hc ih => rwa [openPairs_extend hc]
  | close v c x xs h ih =>
    rw [openPairs_close h]
    refine ih.cons fun q hq heq => h.resolve_left fun hne => hne ?_
    rw [← openPairs_head?_value q hq, ← heq]

/-- Where no byte equals the one before it, every byte is a run. -/
theorem openPairs_length_of_isChain_ne {v c : Byte} {xs : List Byte} (h : (v :: xs).IsChain (· ≠ ·)) :
    (openPairs v c xs).length = xs.length + 1 := by
  induction xs generalizing v c with
  | nil => rw [openPairs_nil]; rfl
  | cons x xs ih =>
    obtain ⟨hne, htail⟩ := List.isChain_cons_cons.mp h
    rw [openPairs_close (.inl hne.symm), List.length_cons, ih htail, List.length_cons]

/-! ### What `rle_encode` gives (R114, R116, R117) -/

theorem expandPairs_rleEncode (xs : List Byte) : expandPairs (pairsOf (rleEncode xs)) = xs := by
  cases xs with
  | nil => rfl
  | cons x xs => exact expandPairs_openPairs x 1#8 xs

theorem rleEncode_count_ne_zero (xs : List Byte) : ∀ p ∈ pairsOf (rleEncode xs), p.1 ≠ 0#8 := by
  cases xs with
  | nil => exact List.forall_mem_nil _
  | cons x xs => exact openPairs_count_ne_zero (c := 1#8) (by decide)

theorem rleEncode_isChain (xs : List Byte) :
    (pairsOf (rleEncode xs)).IsChain fun p q => p.2 = q.2 → p.1 = 255#8 := by
  cases xs with
  | nil => exact .nil
  | cons x xs => exact openPairs_isChain x 1#8 xs

theorem rleEncode_pairs_of_isChain_ne {xs : List Byte} (h : xs.IsChain (· ≠ ·)) :
    (pairsOf (rleEncode xs)).length = xs.length := by
  cases xs with
  | nil => rfl
  | cons x xs => exact openPairs_length_of_isChain_ne (c := 1#8) h

theorem rleEncodeRun_length_even (v : Byte) (n : Nat) (xs : List Byte) : (rleEncodeRun v n xs).length % 2 = 0 := by
  induction v, n, xs using rleEncodeRun.induct with
  | case1 v n => simp [rleEncodeRun]
  | case2 v n x xs hext ih => rwa [rleEncodeRun, if_pos hext]
  | case3 v n x xs hclose ih =>
    rw [rleEncodeRun, if_neg hclose, List.length_cons, List.length_cons]
    omega

theorem rleEncode_length_even (xs : List Byte) : (rleEncode xs).length % 2 = 0 := by
  cases xs with
  | nil => rfl
  | cons x xs => exact rleEncodeRun_length_even x 1 xs

/-! ### Sequences of pairs (R45, R111) -/

theorem length_eq_two_mul_pairsOf {bytes : List Byte} (h : bytes.length % 2 = 0) :
    bytes.length = 2 * (pairsOf bytes).length := by
  induction bytes using countSum.induct with
  | case1 => rfl
  | case2 c => simp at h
  | case3 c v rest ih =>
    simp only [List.length_cons, pairsOf] at h ⊢
    have := ih (by omega)
    omega

theorem length_expandPairs_cons (p : Byte × Byte) (ps : List (Byte × Byte)) :
    (expandPairs (p :: ps)).length = p.1.toNat + (expandPairs ps).length := by
  simp [expandPairs]

theorem length_le_expandPairs {ps : List (Byte × Byte)} (h : ∀ p ∈ ps, p.1 ≠ 0#8) :
    ps.length ≤ (expandPairs ps).length := by
  induction ps with
  | nil => exact Nat.le_refl _
  | cons p ps ih =>
    obtain ⟨hp, hps⟩ := List.forall_mem_cons.mp h
    have := ih hps
    have : 1 ≤ p.1.toNat := by bv_omega
    rw [length_expandPairs_cons, List.length_cons]
    omega

theorem expandPairs_length_le (ps : List (Byte × Byte)) : (expandPairs ps).length ≤ 255 * ps.length := by
  induction ps with
  | nil => exact Nat.le_refl _
  | cons p ps ih =>
    have := p.1.isLt
    rw [length_expandPairs_cons, List.length_cons]
    omega

theorem rleDecode_eq_some_iff {ps : List (Byte × Byte)} {x : Nat} {xs : List Byte} :
    rleDecode ps x = some xs ↔ (expandPairs ps).length = x ∧ expandPairs ps = xs := by
  simp [rleDecode]

theorem rleDecode_eq_none_iff {ps : List (Byte × Byte)} {x : Nat} :
    rleDecode ps x = none ↔ (expandPairs ps).length ≠ x := by
  simp [rleDecode]

/-- A relation of neighbours, read by index as R114 and R116 say it. -/
theorem isChain_iff_getElem? {α : Type} {R : α → α → Prop} {l : List α} :
    l.IsChain R ↔ ∀ k a b, l[k]? = some a → l[k + 1]? = some b → R a b := by
  rw [List.isChain_iff_getElem]
  constructor
  · intro h k a b ha hb
    obtain ⟨_, rfl⟩ := List.getElem?_eq_some_iff.mp ha
    obtain ⟨hk, rfl⟩ := List.getElem?_eq_some_iff.mp hb
    exact h k hk
  · intro h k hk
    exact h k _ _ (List.getElem?_eq_getElem _) (List.getElem?_eq_getElem hk)

/-- Settles O37: the encoding expands to the sequence, and the length of an expansion is the sum of the counts. -/
theorem runLengthCodingIsInvertible : Obligations.RunLengthCodingIsInvertible := by
  intro xs
  have hexp := expandPairs_rleEncode xs
  refine ⟨rleDecode_eq_some_iff.mpr ⟨by rw [hexp], hexp⟩, ?_⟩
  rw [← length_expandPairs (rleEncode_length_even xs), hexp]

/-- Settles O38: `rleEncode_isChain` read by index. -/
theorem runLengthCountsAndMaximalRuns : Obligations.RunLengthCountsAndMaximalRuns := by
  refine fun xs => ⟨fun p hp => ?_, isChain_iff_getElem?.mp (rleEncode_isChain xs)⟩
  have := rleEncode_count_ne_zero xs p hp
  bv_omega

/-! ### RLE.PUSH and RLE.END (R113, R115) -/

theorem exec_rlePush_open {s : State} (h : s.rle.active = false) (b : Byte) :
    exec (.rlePush b) s =
      .next { s with rle := { active := true, val := b, cnt := 1#8 }, rsp := okReply 0#40 } :=
  if_pos h

theorem exec_rlePush_extend {s : State} (h : s.rle.active = true) (hcap : s.rle.cnt.toNat < 255) :
    exec (.rlePush s.rle.val) s =
      .next { s with rle := { active := true, val := s.rle.val, cnt := s.rle.cnt + 1#8 }, rsp := okReply 0#40 } := by
  rw [← h]
  exact (if_neg (by simp [h])).trans (if_pos ⟨rfl, hcap⟩)

theorem exec_rlePush_close {s : State} {b : Byte} (h : s.rle.active = true)
    (hclose : b ≠ s.rle.val ∨ s.rle.cnt = 255#8) :
    exec (.rlePush b) s =
      .next { s with
        rle := { active := true, val := b, cnt := 1#8 }
        out := s.out ++ beatsOf .rle [s.rle.cnt, s.rle.val]
        rsp := okReply 0#40 } := by
  rw [← h]
  exact (if_neg (by simp [h])).trans (if_neg (run_closes_iff.mpr hclose))

theorem exec_rleEnd_of_active {s : State} (h : s.rle.active = true) :
    exec .rleEnd s =
      .next { s with
        rle := { s.rle with active := false }
        out := s.out ++ beatsOf .rle [s.rle.cnt, s.rle.val]
        rsp := okReply 0#40 } := by
  change execRleEnd s = _
  rw [execRleEnd, if_pos h]
  rfl

theorem exec_rleEnd_of_idle {s : State} (h : s.rle.active = false) :
    exec .rleEnd s = .next { s with rsp := okReply 0#40 } := by
  change execRleEnd s = _
  rw [execRleEnd, if_neg (by simp [h]), reinitRle, ← h]
  rfl

/-- Settles O35: the three cases of R113, and the word is the encoding of the operation. -/
theorem rlePushRunsAndCap : Obligations.RlePushRunsAndCap :=
  fun b _ => ⟨decode_encode (.rlePush b), fun h => exec_rlePush_open h b,
    fun h hb hcap => hb ▸ exec_rlePush_extend h hcap, exec_rlePush_close⟩

/-- Settles O36: the two cases of R115, and the word is the encoding of the operation. -/
theorem rleEndFlushesTheRun : Obligations.RleEndFlushesTheRun :=
  ⟨decode_encode .rleEnd, fun _ => ⟨exec_rleEnd_of_active, exec_rleEnd_of_idle⟩⟩

/-! ### The operations compute `rle_encode` (R116) -/

theorem execAll_cons_of_next {i : Instr} {is : List Instr} {s t : State} (h : exec i s = .next t) :
    execAll (i :: is) s = execAll is t := by
  simp only [execAll, h]

theorem execAll_append_of_next {is js : List Instr} {s t : State} (h : execAll is s = .next t) :
    execAll (is ++ js) s = execAll js t := by
  induction is generalizing s with
  | nil =>
    cases h
    rfl
  | cons i is ih =>
    cases hi : exec i s with
    | next u =>
      rw [execAll_cons_of_next hi] at h
      rw [List.cons_append, execAll_cons_of_next hi, ih h]
    | fault f => simp [execAll, hi] at h
    | refused r => simp [execAll, hi] at h

/-- The beats of pairs, one `emit` each (R63, R113). -/
def pairBeats (ps : List (Byte × Byte)) : List Beat := beatsOfFrames .rle (ps.map fun p => [p.1, p.2])

theorem pairBeats_cons (c v : Byte) (ps : List (Byte × Byte)) :
    pairBeats ((c, v) :: ps) = beatsOf .rle [c, v] ++ pairBeats ps := rfl

/-- The state after RLE.END: no run open, these beats appended to OUT, everything else as in `s`. -/
def rleFlushed (s t : State) (beats : List Beat) : Prop :=
  t.rle.active = false ∧ t = { s with rle := t.rle, out := s.out ++ beats, rsp := okReply 0#40 }

/-- With a run open the bytes pushed and RLE.END emit its pairs: the unit's registers are the loop variables of R110. -/
theorem execAll_rlePush_of_open (v c : Byte) (xs : List Byte) :
    ∀ s : State, s.rle = { active := true, val := v, cnt := c } →
      ∃ t, execAll (xs.map .rlePush ++ [.rleEnd]) s = .next t ∧ rleFlushed s t (pairBeats (openPairs v c xs)) := by
  induction v, c, xs using openRun_induction with
  | ends v c =>
    intro s hs
    have hend := exec_rleEnd_of_active (s := s) (by rw [hs])
    rw [hs] at hend
    refine ⟨_, execAll_cons_of_next hend, rfl, ?_⟩
    rw [openPairs_nil]
    rfl
  | extend v c xs hc ih =>
    intro s hs
    have hpush := exec_rlePush_extend (s := s) (by rw [hs]) (by rw [hs]; bv_omega)
    rw [hs] at hpush
    obtain ⟨t, hrun, hidle, ht⟩ :=
      ih { s with rle := { active := true, val := v, cnt := c + 1#8 }, rsp := okReply 0#40 } rfl
    refine ⟨t, (execAll_cons_of_next hpush).trans hrun, hidle, ?_⟩
    rw [openPairs_extend hc]
    exact ht
  | close v c x xs h ih =>
    intro s hs
    have hpush := exec_rlePush_close (s := s) (b := x) (by rw [hs]) (by rwa [hs])
    rw [hs] at hpush
    obtain ⟨t, hrun, hidle, ht⟩ :=
      ih { s with
        rle := { active := true, val := x, cnt := 1#8 }
        out := s.out ++ beatsOf .rle [c, v]
        rsp := okReply 0#40 } rfl
    refine ⟨t, (execAll_cons_of_next hpush).trans hrun, hidle, ?_⟩
    rw [openPairs_close h, pairBeats_cons, ← List.append_assoc]
    exact ht

theorem execAll_rlePush_of_idle {s : State} (h : s.rle.active = false) (xs : List Byte) :
    ∃ t, execAll (xs.map .rlePush ++ [.rleEnd]) s = .next t ∧
      rleFlushed s t (pairBeats (pairsOf (rleEncode xs))) := by
  cases xs with
  | nil =>
    refine ⟨_, execAll_cons_of_next (exec_rleEnd_of_idle h), h, ?_⟩
    simp [pairBeats, rleEncode, pairsOf, beatsOfFrames]
  | cons x xs =>
    obtain ⟨t, hrun, hflushed⟩ := execAll_rlePush_of_open x 1#8 xs
      { s with rle := { active := true, val := x, cnt := 1#8 }, rsp := okReply 0#40 } rfl
    exact ⟨t, (execAll_cons_of_next (exec_rlePush_open h x)).trans hrun, hflushed⟩

/-- Settles O39: the run of the operations by `execAll_rlePush_of_idle`; the bounds because the pairs expand to the
sequence and each stands for 1 to 255 of its bytes. -/
theorem rleOperationsComputeRleEncode : Obligations.RleOperationsComputeRleEncode := by
  intro xs s hidle
  obtain ⟨t, hrun, hclosed, ht⟩ := execAll_rlePush_of_idle hidle xs
  have hout : t.out = s.out ++ pairBeats (pairsOf (rleEncode xs)) := by rw [ht]
  have hbytes := length_eq_two_mul_pairsOf (rleEncode_length_even xs)
  have hlower := expandPairs_length_le (pairsOf (rleEncode xs))
  have hupper := length_le_expandPairs (rleEncode_count_ne_zero xs)
  rw [expandPairs_rleEncode] at hlower hupper
  refine ⟨t, hrun, hout, ?_, hclosed, hbytes, by omega, hupper, fun hne => ?_⟩
  · rw [hout]
    exact ht
  · rw [hbytes, rleEncode_pairs_of_isChain_ne (isChain_iff_getElem?.mpr hne)]

/-! ### RLD.PAIR and RLD.END (R121, R122) -/

/-- A tally that stays within XLEN grows without wrapping. -/
theorem rldTally_add_toNat {tally xlen : XLen} {c : Byte} (h : tally.toNat + c.toNat ≤ xlen.toNat) :
    (tally + c.setWidth 40).toNat = tally.toNat + c.toNat := by
  have := xlen.isLt
  bv_omega

theorem exec_rldPair_ignored {s : State} (h : s.rld.overrun = true) (c v : Byte) :
    exec (.rldPair c v) s = .next { s with rsp := okReply 0#40 } :=
  if_pos h

theorem exec_rldPair_overrun {s : State} {c : Byte} (h : s.rld.overrun = false)
    (hlong : s.ctl.xlen.toNat < s.rld.tally.toNat + c.toNat) (v : Byte) :
    exec (.rldPair c v) s = .next { s with rld := { s.rld with overrun := true }, rsp := okReply 0#40 } :=
  (if_neg (by simp [h])).trans (if_pos hlong)

theorem exec_rldPair_expand {s : State} {c : Byte} (h : s.rld.overrun = false)
    (hfits : s.rld.tally.toNat + c.toNat ≤ s.ctl.xlen.toNat) (v : Byte) :
    exec (.rldPair c v) s = .next { s with
      rld := { tally := s.rld.tally + c.setWidth 40, overrun := false, buf := s.rld.buf ++ List.replicate c.toNat v }
      rsp := okReply 0#40 } := by
  rw [← h]
  exact (if_neg (by simp [h])).trans (if_neg (Nat.not_lt.mpr hfits))

theorem exec_rldEnd_long {s : State} (h : s.rld.overrun = true) :
    exec .rldEnd s = .next (raised 3#8 4#8 2#8 0#32 { s with rld := { tally := 0#40, overrun := false, buf := [] } }) :=
  (if_pos h).trans (congrArg _ (raise_eq_raised .lengthMismatch .rld 2#8 0#32 _))

theorem exec_rldEnd_short {s : State} (h : s.rld.overrun = false) (hne : s.rld.tally ≠ s.ctl.xlen) :
    exec .rldEnd s = .next (raised 3#8 4#8 1#8 0#32 { s with rld := { tally := 0#40, overrun := false, buf := [] } }) :=
  (if_neg (by simp [h])).trans
    ((if_pos hne).trans (congrArg _ (raise_eq_raised .lengthMismatch .rld 1#8 0#32 _)))

theorem exec_rldEnd_deliver {s : State} (h : s.rld.overrun = false) (heq : s.rld.tally = s.ctl.xlen) :
    exec .rldEnd s = .next { s with
      rld := { tally := 0#40, overrun := false, buf := [] }
      out := s.out ++ beatsOf .rld s.rld.buf
      rsp := okReply 0#40 } :=
  (if_neg (by simp [h])).trans (if_neg (not_not.mpr heq))

/-- Settles O40: the three cases of R121, and the word is the encoding of the operation. -/
theorem rldPairExpandsOrOverruns : Obligations.RldPairExpandsOrOverruns :=
  fun c v _ => ⟨decode_encode (.rldPair c v), fun h => exec_rldPair_ignored h c v,
    fun h hlong => exec_rldPair_overrun h hlong v,
    fun h hfits => ⟨_, rldTally_add_toNat hfits, exec_rldPair_expand h hfits v⟩⟩

/-- Settles O41: the three cases of R122, and the word is the encoding of the operation. -/
theorem rldEndDeliversOrRefuses : Obligations.RldEndDeliversOrRefuses :=
  ⟨decode_encode .rldEnd, fun _ => ⟨exec_rldEnd_long, exec_rldEnd_short, exec_rldEnd_deliver⟩⟩

/-! ### The operations compute `rle_decode` (R123) -/

/-- Unit RLD after pairs that expand to `xs`: it holds all of `xs`, or `xs` is longer than XLEN and the flag says so. -/
structure RldExpanded (s : State) (xs : List Byte) : Prop extends RldInv s where
  long : s.rld.overrun = true → s.ctl.xlen.toNat < xs.length
  holds : s.rld.overrun = false → s.rld.buf = xs

/-- RLD.PAIR keeps `RldExpanded`, with the pair's copies appended: a sequence that is too long stays too long. -/
theorem exec_rldPair_expanded {s : State} {xs : List Byte} (h : RldExpanded s xs) (c v : Byte) :
    ∃ rld, exec (.rldPair c v) s = .next { s with rld := rld, rsp := okReply 0#40 } ∧
      RldExpanded { s with rld := rld, rsp := okReply 0#40 } (xs ++ List.replicate c.toNat v) := by
  obtain ⟨⟨hlen, hbound⟩, hover, hholds⟩ := h
  cases ho : s.rld.overrun with
  | true =>
    have hlong := hover ho
    refine ⟨_, exec_rldPair_ignored ho c v, ⟨hlen, hbound⟩, fun _ => ?_, fun hn => ?_⟩
    · rw [List.length_append]
      exact Nat.lt_add_right _ hlong
    · exact nomatch ho.symm.trans hn
  | false =>
    obtain rfl := hholds ho
    by_cases hfits : s.rld.tally.toNat + c.toNat ≤ s.ctl.xlen.toNat
    · have htally := rldTally_add_toNat hfits
      refine ⟨_, exec_rldPair_expand ho hfits v, ⟨?_, htally.trans_le hfits⟩, nofun, fun _ => rfl⟩
      rw [htally, List.length_append, List.length_replicate, hlen]
    · refine ⟨_, exec_rldPair_overrun ho (Nat.lt_of_not_le hfits) v, ⟨hlen, hbound⟩, fun _ => ?_, nofun⟩
      rw [List.length_append, List.length_replicate, hlen]
      exact Nat.lt_of_not_le hfits

/-- The pairs of a list one after the other change unit RLD and the response, and leave the expansion of the list. -/
theorem execAll_rldPair_expanded {s : State} {xs : List Byte} (h : RldExpanded s xs) (ps : List (Byte × Byte)) :
    ∃ rld rsp, execAll (ps.map fun p => .rldPair p.1 p.2) s = .next { s with rld := rld, rsp := rsp } ∧
      RldExpanded { s with rld := rld, rsp := rsp } (xs ++ expandPairs ps) := by
  induction ps generalizing s xs with
  | nil =>
    rw [expandPairs, List.append_nil]
    exact ⟨s.rld, s.rsp, rfl, h⟩
  | cons p ps ih =>
    obtain ⟨rld, hpair, hnext⟩ := exec_rldPair_expanded h p.1 p.2
    obtain ⟨rld', rsp, hrun, hend⟩ := ih hnext
    rw [List.append_assoc] at hend
    exact ⟨rld', rsp, (execAll_cons_of_next hpair).trans hrun, hend⟩

/-- RLD.END after pairs that expand to `xs` delivers `xs` when its length is XLEN, and else says which way it fails. -/
theorem exec_rldEnd_expanded {s : State} {xs : List Byte} (h : RldExpanded s xs) :
    exec .rldEnd s = .next (
      if xs.length = s.ctl.xlen.toNat then
        { s with
          rld := { tally := 0#40, overrun := false, buf := [] }
          out := s.out ++ beatsOf .rld xs
          rsp := okReply 0#40 }
      else
        raised 3#8 4#8 (if xs.length < s.ctl.xlen.toNat then 1#8 else 2#8) 0#32
          { s with rld := { tally := 0#40, overrun := false, buf := [] } }) := by
  obtain ⟨⟨hlen, hbound⟩, hover, hholds⟩ := h
  cases ho : s.rld.overrun with
  | true =>
    have hlong := hover ho
    rw [if_neg (Nat.ne_of_gt hlong), if_neg (Nat.lt_asymm hlong)]
    exact exec_rldEnd_long ho
  | false =>
    obtain rfl := hholds ho
    rw [hlen]
    by_cases heq : s.rld.tally = s.ctl.xlen
    · rw [if_pos (congrArg _ heq)]
      exact exec_rldEnd_deliver ho heq
    · have hne : s.rld.tally.toNat ≠ s.ctl.xlen.toNat := fun h => heq (BitVec.eq_of_toNat_eq h)
      rw [if_neg hne, if_pos (Nat.lt_of_le_of_ne hbound hne)]
      exact exec_rldEnd_short ho heq

/-- Settles O42: after the pairs the unit is `RldExpanded` (`execAll_rldPair_expanded`), which says what RLD.END answers
(`exec_rldEnd_expanded`) and bounds the buffer. -/
theorem rldOperationsComputeRleDecode : Obligations.RldOperationsComputeRleDecode := by
  intro ps s hidle
  have hstart : RldExpanded s [] := ⟨⟨by simp [hidle], by simp [hidle]⟩, by simp [hidle], by simp [hidle]⟩
  obtain ⟨rld, rsp, hpairs, hexp⟩ := execAll_rldPair_expanded hstart ps
  have hend := execAll_cons_of_next (is := []) (exec_rldEnd_expanded hexp)
  have hrun := (execAll_append_of_next hpairs).trans hend
  rw [← hidle] at hrun
  refine ⟨fun xs hdec => ?_, fun hdec => ?_, fun t ht => ?_⟩
  · obtain ⟨hlen, rfl⟩ := rleDecode_eq_some_iff.mp hdec
    exact hrun.trans (congrArg _ (if_pos hlen))
  · exact hrun.trans (congrArg _ (if_neg (rleDecode_eq_none_iff.mp hdec)))
  · obtain rfl : _ = t := Host.Outcome.next.inj (hpairs.symm.trans ht)
    exact hexp.length.trans_le hexp.bound

end Sys2Proof.Machine
end

section
/-! Proofs for the family of 43_stream_encode.md: the operations of unit SE (R132, R133, R136), the stream they emit
(R135), and unit SD reading that stream back (R138). -/

namespace Sys2Proof.Machine

/-! ### SE.PUSH by its position (R132, R133) -/

/-- Unit SE after a completed frame: the frame is the previous one, the position is 0 and `cur` is what the buffer of
the current frame holds. -/
def seDone (cur : Memory Byte) (frame : List Byte) (se : SeUnit) : SeUnit :=
  { first := false, pos := 0#34, idx := satInc se.idx, cur := cur, prev := bufPutFrom se.prev 0 frame }

/-- SE.PUSH with legal dimensions answers what its body does. -/
theorem exec_sePush_of_sePushByte {b : Byte} {s u : State} (hd : dimsOk s = true) (hu : sePushByte b s = .ok u) :
    exec (.sePush b) s = .next (respondOk 0#40 u) :=
  execSePush_next_iff.mpr (.inr ⟨hd, u, hu, rfl⟩)

theorem exec_sePush_store {s : State} (hd : dimsOk s = true) (hnext : s.se.pos.toNat + 1 < frameLen s) (b : Byte) :
    exec (.sePush b) s = .next { s with
      se := { s.se with cur := bufPut s.se.cur s.se.pos.toNat b, pos := s.se.pos + 1#34 }
      rsp := okReply 0#40 } :=
  exec_sePush_of_sePushByte hd (sePushByte_ok_iff.mpr ⟨by omega, .inl ⟨hnext, rfl⟩⟩)

theorem exec_sePush_last {s : State} {b : Byte} {frame bytes : List Byte} (hd : dimsOk s = true)
    (hlast : s.se.pos.toNat + 1 = frameLen s)
    (hread : bufReadAll .seCur (frameLen s) (bufPut s.se.cur s.se.pos.toNat b) = .ok frame)
    (hbytes : seFrameBytes (frameLen s) s.se frame = .ok bytes) :
    exec (.sePush b) s = .next { s with
      se := seDone (bufPut s.se.cur s.se.pos.toNat b) frame s.se
      out := s.out ++ beatsOf .se bytes
      rsp := okReply 0#40 } :=
  exec_sePush_of_sePushByte hd (sePushByte_ok_iff.mpr ⟨by omega, .inr ⟨hlast,
    seFrame_ok_iff.mpr ⟨frame, bytes, hread, hbytes, rfl⟩⟩⟩)

/-- Settles O43: the state of `exec_sePush_store`, its buffer read by the rule of `bufPut`. -/
theorem sePushStoresAByte : Obligations.SePushStoresAByte := by
  intro b s hd hnext
  have hL : frameLen s < 2 ^ 33 := frameLen_lt hd
  exact ⟨_, exec_sePush_store hd hnext b, len_add_one_toNat s.se.pos (by omega),
    (bufGet_bufPut s.se.cur s.se.pos.toNat · b), rfl⟩

/-- Settles O44: with the last byte stored the whole frame is written, so it is read, encoded (`seFrameBytes_of_prev`)
and kept as `exec_sePush_last` says. -/
theorem sePushLastByteEmitsTheFrame : Obligations.SePushLastByteEmitsTheFrame := by
  intro b s hd hlast hcur hprev
  obtain ⟨frame, hread⟩ := bufReadAll_total (b := .seCur) (hlast ▸ writtenBelow_bufPut b hcur)
  obtain ⟨hlen, hframe⟩ := bufReadAll_ok_iff.mp hread
  obtain ⟨bytes, hbytes⟩ := seFrameBytes_of_prev hprev frame
  have hstored (a : Nat) : bufGet (bufPut s.se.cur s.se.pos.toNat b) a = frameByte s.se.cur s.se.pos.toNat b a :=
    bufGet_bufPut s.se.cur s.se.pos.toNat a b
  refine ⟨frame, bytes, _, exec_sePush_last hd hlast hread hbytes, hlen,
    fun k hk => (hframe k hk).symm.trans (hstored k), fun hfirst => ?_, fun hlater => ?_, rfl, rfl, rfl, satInc_toNat s.se.idx, hstored, fun a => ?_, rfl⟩
  · obtain ⟨-, hraw⟩ | ⟨hlater, -⟩ := seFrameBytes_ok_iff.mp hbytes
    · exact hraw
    · exact (nomatch hfirst.symm.trans hlater)
  · obtain ⟨hfirst, -⟩ | ⟨-, prev, hp, hdelta⟩ := seFrameBytes_ok_iff.mp hbytes
    · exact (nomatch hfirst.symm.trans hlater)
    · obtain ⟨hplen, hpget⟩ := bufReadAll_ok_iff.mp hp
      exact ⟨prev, hplen, fun k hk => (hpget k hk).symm, hdelta⟩
  · simpa [seDone, hlen] using bufGet_bufPutFrom s.se.prev 0 frame a

/-! ### SE.END (R136) -/

/-- Settles O45: the word is the encoding of SE.END, which `decode_encode` gives back, and the answer is `reinit(SE)`
with the old position as the response. -/
theorem seEndDropsThePartialFrame : Obligations.SeEndDropsThePartialFrame :=
  ⟨decode_encode .seEnd, fun _ => rfl⟩

/-! ### The bytes of one frame pushed in order -/

/-- A write just behind the elements a buffer is known to hold makes it hold one more. -/
theorem bufGet_bufPut_append {m : Memory Byte} {xs : List Byte} (h : ∀ k, k < xs.length → bufGet m k = xs[k]?)
    (b : Byte) : ∀ k, k < (xs ++ [b]).length → bufGet (bufPut m xs.length b) k = (xs ++ [b])[k]? := by
  intro k hk
  rw [bufGet_bufPut]
  split
  · simp [*]
  · have hin : k < xs.length := by simp at hk; omega
    rw [List.getElem?_append_left hin, h k hin]

/-- Unit SE has taken the bytes `xs` of the frame under way. -/
structure SeHolds (se : SeUnit) (xs : List Byte) : Prop where
  pos : se.pos.toNat = xs.length
  cur : ∀ k, k < xs.length → bufGet se.cur k = xs[k]?

theorem seHolds_nil {se : SeUnit} (hpos : se.pos = 0#34) : SeHolds se [] where
  pos := by simp [hpos]
  cur := by simp

theorem SeHolds.store {se : SeUnit} {xs : List Byte} (h : SeHolds se xs) (hlt : xs.length + 1 < 2 ^ 34) (b : Byte) :
    SeHolds { se with cur := bufPut se.cur se.pos.toNat b, pos := se.pos + 1#34 } (xs ++ [b]) where
  pos := by rw [len_add_one_toNat _ (by rw [h.pos]; exact hlt), h.pos, List.length_append, List.length_singleton]
  cur := by rw [h.pos]; exact bufGet_bufPut_append h.cur b

/-- The rest of a frame pushed byte by byte completes it: every byte but the last is stored, the last one emits. -/
theorem execAll_sePush_rest {xs rest bytes : List Byte} {s : State} (hd : dimsOk s = true) (h : SeHolds s.se xs)
    (hne : rest ≠ []) (hlen : (xs ++ rest).length = frameLen s)
    (hbytes : seFrameBytes (frameLen s) s.se (xs ++ rest) = .ok bytes) :
    ∃ cur, execAll (rest.map .sePush) s = .next { s with
      se := seDone cur (xs ++ rest) s.se, out := s.out ++ beatsOf .se bytes, rsp := okReply 0#40 } := by
  induction rest generalizing xs s with
  | nil => exact absurd rfl hne
  | cons b rest ih =>
    have hL : frameLen s < 2 ^ 33 := frameLen_lt hd
    have hcount : xs.length + (rest.length + 1) = frameLen s := by rw [← hlen, List.length_append, List.length_cons]
    cases rest with
    | nil =>
      have hread : bufReadAll .seCur (frameLen s) (bufPut s.se.cur s.se.pos.toNat b) = .ok (xs ++ [b]) := by
        rw [bufReadAll_ok_iff, h.pos, ← hlen]
        exact ⟨rfl, bufGet_bufPut_append h.cur b⟩
      exact ⟨_, execAll_cons_of_next (exec_sePush_last hd (by rw [h.pos]; exact hcount) hread hbytes)⟩
    | cons b' rest =>
      have hnext : xs.length + 1 < frameLen s := by rw [List.length_cons] at hcount; omega
      have hpush := exec_sePush_store hd (by rw [h.pos]; exact hnext) b
      rw [List.append_cons] at hlen hbytes ⊢
      obtain ⟨cur, hrun⟩ := ih (s := { s with
        se := { s.se with cur := bufPut s.se.cur s.se.pos.toNat b, pos := s.se.pos + 1#34 }
        rsp := okReply 0#40 }) hd (h.store (by omega) b) (List.cons_ne_nil _ _) hlen hbytes
      exact ⟨cur, (execAll_cons_of_next hpush).trans hrun⟩

/-- A frame of a legal size has bytes. -/
theorem ne_nil_of_length_frameLen {s : State} {frame : List Byte} (hd : dimsOk s = true)
    (hlen : frame.length = frameLen s) : frame ≠ [] :=
  List.ne_nil_of_length_pos (hlen ▸ Nat.lt_of_lt_of_le (Nat.zero_lt_succ 5) (frameLen_ge hd))

/-! ### The stream unit SE emits (R134, R135) -/

/-- From `s` to `t` unit SE has put `bytes` on OUT, in SE beats, and stands at a frame boundary again. -/
structure SeEmitted (s t : State) (bytes : List Byte) : Prop where
  out : ∃ bs, t.out = s.out ++ bs ∧ bs.map (·.data) = bytes ∧ ∀ b ∈ bs, b.src = .se
  err : t.err = s.err
  pos : t.se.pos = 0#34

theorem SeEmitted.refl {s : State} (hpos : s.se.pos = 0#34) : SeEmitted s s [] where
  out := ⟨[], by simp⟩
  err := rfl
  pos := hpos

theorem SeEmitted.trans {s t u : State} {xs ys : List Byte} (hst : SeEmitted s t xs) (htu : SeEmitted t u ys) :
    SeEmitted s u (xs ++ ys) where
  out := by
    obtain ⟨bs, hout, rfl, hsrc⟩ := hst.out
    obtain ⟨bs', hout', rfl, hsrc'⟩ := htu.out
    exact ⟨bs ++ bs', by rw [hout', hout, List.append_assoc], List.map_append,
      fun b hb => (List.mem_append.mp hb).elim (hsrc b) (hsrc' b)⟩
  err := htu.err.trans hst.err
  pos := htu.pos

/-- At a frame boundary unit SE holds the whole previous frame `prev`. -/
structure SeAfterFrame (s : State) (prev : List Byte) : Prop where
  dims : dimsOk s = true
  pos : s.se.pos = 0#34
  later : s.se.first = false
  prev : bufReadAll .sePrev (frameLen s) s.se.prev = .ok prev

/-- The bytes of a whole frame pushed at a frame boundary emit what R133 says of it, and the frame is the previous one
for the next. -/
theorem execAll_sePush_frame {frame bytes : List Byte} {s : State} (hd : dimsOk s = true) (hpos : s.se.pos = 0#34)
    (hlen : frame.length = frameLen s) (hbytes : seFrameBytes (frameLen s) s.se frame = .ok bytes) :
    ∃ t, execAll (frame.map .sePush) s = .next t ∧ SeEmitted s t bytes ∧ SeAfterFrame t frame ∧
      frameLen t = frameLen s := by
  obtain ⟨cur, hrun⟩ :=
    execAll_sePush_rest hd (seHolds_nil hpos) (ne_nil_of_length_frameLen hd hlen) hlen hbytes
  have hprev := bufReadAll_bufPutFrom (b := .sePrev) s.se.prev frame
  rw [hlen] at hprev
  exact ⟨_, hrun, ⟨⟨_, rfl, beatsOf_data .se bytes, fun _ => beatsOf_src⟩, rfl, rfl⟩, ⟨hd, rfl, rfl, hprev⟩, rfl⟩

/-- After a first frame the frames that follow are emitted each by its delta. -/
theorem execAll_sePush_later {prev : List Byte} {s : State} (h : SeAfterFrame s prev) (frames : List (List Byte))
    (hlen : ∀ f ∈ frames, f.length = frameLen s) :
    ∃ t, execAll (frames.flatten.map .sePush) s = .next t ∧ SeEmitted s t (streamEncodeAfter prev frames) := by
  induction frames generalizing prev s with
  | nil => exact ⟨s, rfl, .refl h.pos⟩
  | cons f fs ih =>
    obtain ⟨hf, hfs⟩ := List.forall_mem_cons.mp hlen
    obtain ⟨t, hframe, hemit, hafter, hL⟩ := execAll_sePush_frame h.dims h.pos hf
      (seFrameBytes_ok_iff.mpr (.inr ⟨h.later, prev, h.prev, rfl⟩))
    obtain ⟨u, hrest, hemit'⟩ := ih hafter (by rwa [hL])
    rw [List.flatten_cons, List.map_append, execAll_append_of_next hframe]
    exact ⟨u, hrest, hemit.trans hemit'⟩

/-- Settles O46: frame 0 leaves raw and unit SE ready for the delta frames that `execAll_sePush_later` pushes. -/
theorem encoderComputesStreamEncode : Obligations.EncoderComputesStreamEncode := by
  intro video s hd hfirst hpos hlen
  have pushed : ∃ t, execAll (video.flatten.map .sePush) s = .next t ∧ SeEmitted s t (streamEncode video) := by
    cases video with
    | nil => exact ⟨s, rfl, .refl hpos⟩
    | cons f fs =>
      obtain ⟨hf, hfs⟩ := List.forall_mem_cons.mp hlen
      obtain ⟨t, hframe, hemit, hafter, hL⟩ := execAll_sePush_frame hd hpos hf
        (seFrameBytes_ok_iff.mpr (.inl ⟨hfirst, rfl⟩))
      obtain ⟨u, hrest, hemit'⟩ := execAll_sePush_later hafter fs (by rwa [hL])
      rw [List.flatten_cons, List.map_append, execAll_append_of_next hframe]
      exact ⟨u, hrest, hemit.trans hemit'⟩
  obtain ⟨t, hrun, ⟨bs, hout, hdata, hsrc⟩, herr, hend⟩ := pushed
  exact ⟨t, bs, hrun, hout, hdata, hsrc, herr, hend⟩

/-! ### SD.PUSH on a stream without errors (R151 to R153) -/

/-- SD.PUSH with legal dimensions answers what the step of its mode does. -/
theorem exec_sdPush_of_sdPushByte {b : Byte} {s t : State} (hd : dimsOk s = true) (ht : sdPushByte b s = .ok t) :
    exec (.sdPush b) s = .next t :=
  execSdPush_next_iff.mpr (.inr ⟨hd, ht⟩)

theorem exec_sdPush_raw_inside {s : State} (hd : dimsOk s = true) (hm : s.sd.mode = .rawFrame)
    (hlt : s.sd.tally.toNat + 1 < frameLen s) (b : Byte) :
    exec (.sdPush b) s = .next { s with
      sd := { s.sd with acc := s.sd.acc ++ [b], tally := s.sd.tally + 1#34 }, rsp := okReply 0#40 } := by
  have hL : frameLen s < 2 ^ 33 := frameLen_lt hd
  have htally := len_add_one_toNat s.sd.tally (by omega)
  exact exec_sdPush_of_sdPushByte hd (sdPushByte_ok_iff.mpr (.inr (.inl ⟨hm,
    sdRaw_ok_iff.mpr (.inl ⟨by omega, rfl⟩)⟩)))

theorem exec_sdPush_raw_last {s : State} (hd : dimsOk s = true) (hm : s.sd.mode = .rawFrame)
    (hacc : s.sd.acc.length = s.sd.tally.toNat) (hlast : s.sd.tally.toNat + 1 = frameLen s) (b : Byte) :
    exec (.sdPush b) s = .next (respondOk 0#40 (sdDeliver (s.sd.acc ++ [b]) (s.sd.acc ++ [b]) s)) := by
  have hL : frameLen s < 2 ^ 33 := frameLen_lt hd
  have htally := len_add_one_toNat s.sd.tally (by omega)
  have hlen : (s.sd.acc ++ [b]).length = frameLen s := by simp; omega
  have hraw := sdRaw_ok_iff (b := b).mpr (.inr ⟨htally.trans hlast, hlen.ge, rfl⟩)
  rw [List.take_of_length_le hlen.le] at hraw
  exact exec_sdPush_of_sdPushByte hd (sdPushByte_ok_iff.mpr (.inr (.inl ⟨hm, hraw⟩)))

/-- A count that stays within the frame is kept and added to the tally. -/
theorem exec_sdPush_count {s : State} (hd : dimsOk s = true) (hm : s.sd.mode = .rlePair) (hp : s.sd.phase = false)
    {c : Byte} (hle : s.sd.tally.toNat + c.toNat ≤ frameLen s) :
    exec (.sdPush c) s = .next { s with
      sd := { s.sd with acc := s.sd.acc ++ [c], tally := s.sd.tally + c.setWidth 34, phase := true }
      rsp := okReply 0#40 } := by
  have hL : frameLen s < 2 ^ 33 := frameLen_lt hd
  have htally := len_add_byte_toNat s.sd.tally c (by omega)
  have hcount := sdCount_eq c s
  rw [if_neg (by omega)] at hcount
  exact exec_sdPush_of_sdPushByte hd (sdPushByte_ok_iff.mpr (.inr (.inr (.inr ⟨hm, hp, hcount.symm⟩))))

theorem exec_sdPush_value_inside {s : State} (hd : dimsOk s = true) (hm : s.sd.mode = .rlePair)
    (hp : s.sd.phase = true) (hne : s.sd.tally.toNat ≠ frameLen s) (v : Byte) :
    exec (.sdPush v) s = .next { s with
      sd := { s.sd with acc := s.sd.acc ++ [v], phase := false }, rsp := okReply 0#40 } :=
  exec_sdPush_of_sdPushByte hd (sdPushByte_ok_iff.mpr (.inr (.inr (.inl ⟨hm, hp,
    sdValue_ok_iff.mpr (.inl ⟨hne, rfl⟩)⟩))))

theorem exec_sdPush_value_last {v : Byte} {s : State} {frame : List Byte} (hd : dimsOk s = true)
    (hm : s.sd.mode = .rlePair) (hp : s.sd.phase = true) (hend : s.sd.tally.toNat = frameLen s)
    (hframe : sdFrame (frameLen s) (s.sd.acc ++ [v]) s.sd.prev = .ok frame) :
    exec (.sdPush v) s = .next (respondOk 0#40 (sdDeliver frame frame s)) :=
  exec_sdPush_of_sdPushByte hd (sdPushByte_ok_iff.mpr (.inr (.inr (.inl ⟨hm, hp,
    sdValue_ok_iff.mpr (.inr ⟨hend, frame, hframe, rfl⟩)⟩))))

/-! ### The bytes of one frame read back -/

/-- The rest of a raw frame pushed byte by byte delivers the frame. -/
theorem execAll_sdPush_raw {rest : List Byte} {s : State} (hd : dimsOk s = true) (hm : s.sd.mode = .rawFrame)
    (hacc : s.sd.acc.length = s.sd.tally.toNat) (hne : rest ≠ []) (hlen : (s.sd.acc ++ rest).length = frameLen s) :
    execAll (rest.map .sdPush) s = .next (respondOk 0#40 (sdDeliver (s.sd.acc ++ rest) (s.sd.acc ++ rest) s)) := by
  induction rest generalizing s with
  | nil => exact absurd rfl hne
  | cons b rest ih =>
    have hL : frameLen s < 2 ^ 33 := frameLen_lt hd
    have hcount : s.sd.tally.toNat + (rest.length + 1) = frameLen s := by
      rw [← hlen, ← hacc, List.length_append, List.length_cons]
    cases rest with
    | nil => exact execAll_cons_of_next (exec_sdPush_raw_last hd hm hacc hcount b)
    | cons b' rest =>
      have hlt : s.sd.tally.toNat + 1 < frameLen s := by rw [List.length_cons] at hcount; omega
      have hpush := exec_sdPush_raw_inside hd hm hlt b
      have hacc' : (s.sd.acc ++ [b]).length = (s.sd.tally + 1#34).toNat := by
        rw [len_add_one_toNat _ (by omega), List.length_append, hacc, List.length_singleton]
      rw [List.append_cons] at hlen ⊢
      exact (execAll_cons_of_next hpush).trans (ih (s := { s with
        sd := { s.sd with acc := s.sd.acc ++ [b], tally := s.sd.tally + 1#34 }
        rsp := okReply 0#40 }) hd hm hacc' (List.cons_ne_nil _ _) hlen)

/-- The counts of whole pairs and of what follows them add up. -/
theorem countSum_append {xs : List Byte} (hx : xs.length % 2 = 0) (ys : List Byte) :
    countSum (xs ++ ys) = countSum xs + countSum ys := by
  induction xs using countSum.induct with
  | case1 => simp [countSum]
  | case2 c => simp at hx
  | case3 c v rest ih =>
    have := ih (by simp at hx; omega)
    simp only [List.cons_append, countSum, this]
    omega

/-- Whole pairs with no zero count among them expand to nothing only if there are none. -/
theorem eq_nil_of_countSum_eq_zero {xs : List Byte} (hx : xs.length % 2 = 0) (h0 : ∀ p ∈ pairsOf xs, p.1 ≠ 0#8)
    (hsum : countSum xs = 0) : xs = [] := by
  have hle := length_le_expandPairs h0
  rw [length_expandPairs hx, hsum] at hle
  have hlen := length_eq_two_mul_pairsOf hx
  exact List.eq_nil_of_length_eq_zero (by omega)

/-- Unit SD in RLEPair mode between two pairs of an unfinished frame (R149, R157). -/
structure SdBetweenPairs (s : State) : Prop where
  dims : dimsOk s = true
  mode : s.sd.mode = .rlePair
  phase : s.sd.phase = false
  even : s.sd.acc.length % 2 = 0
  sum : countSum s.sd.acc = s.sd.tally.toNat
  unfinished : s.sd.tally.toNat < frameLen s

/-- Unit SD after a pair that leaves the frame unfinished (R152, R153). -/
def sdPaired (c v : Byte) (sd : SdUnit) : SdUnit :=
  { sd with acc := sd.acc ++ [c] ++ [v], tally := sd.tally + c.setWidth 34, phase := false }

/-- The two bytes of a pair that leaves the frame unfinished. -/
theorem SdBetweenPairs.execAll_pair {s : State} (h : SdBetweenPairs s) {c : Byte}
    (hlt : s.sd.tally.toNat + c.toNat < frameLen s) (v : Byte) :
    execAll [.sdPush c, .sdPush v] s = .next { s with sd := sdPaired c v s.sd, rsp := okReply 0#40 } ∧
      SdBetweenPairs { s with sd := sdPaired c v s.sd, rsp := okReply 0#40 } := by
  have hL : frameLen s < 2 ^ 33 := frameLen_lt h.dims
  have htally := len_add_byte_toNat s.sd.tally c (by omega)
  have hinside : (s.sd.tally + c.setWidth 34).toNat < frameLen s := htally.trans_lt hlt
  have hcount := exec_sdPush_count h.dims h.mode h.phase hlt.le
  have hpar := h.even
  constructor
  · refine (execAll_cons_of_next hcount).trans (execAll_cons_of_next ?_)
    exact exec_sdPush_value_inside (s := { s with
      sd := { s.sd with acc := s.sd.acc ++ [c], tally := s.sd.tally + c.setWidth 34, phase := true }
      rsp := okReply 0#40 }) h.dims h.mode rfl hinside.ne v
  · refine ⟨h.dims, h.mode, rfl, ?_, ?_, hinside⟩
    · simp [sdPaired]; omega
    · exact (countSum_append_value (by simp; omega) v).trans
        (((countSum_append_count hpar c).trans (by rw [h.sum])).trans htally.symm)

/-- The two bytes of the pair that fills the frame deliver it. -/
theorem SdBetweenPairs.execAll_lastPair {s : State} (h : SdBetweenPairs s) {c v : Byte} {frame : List Byte}
    (hend : s.sd.tally.toNat + c.toNat = frameLen s)
    (hframe : sdFrame (frameLen s) (s.sd.acc ++ [c] ++ [v]) s.sd.prev = .ok frame) :
    execAll [.sdPush c, .sdPush v] s = .next (respondOk 0#40 (sdDeliver frame frame s)) := by
  have hL : frameLen s < 2 ^ 33 := frameLen_lt h.dims
  have htally := len_add_byte_toNat s.sd.tally c (by omega)
  have hcount := exec_sdPush_count h.dims h.mode h.phase hend.le
  refine (execAll_cons_of_next hcount).trans (execAll_cons_of_next ?_)
  exact exec_sdPush_value_last (s := { s with
    sd := { s.sd with acc := s.sd.acc ++ [c], tally := s.sd.tally + c.setWidth 34, phase := true }
    rsp := okReply 0#40 }) h.dims h.mode rfl (htally.trans hend) hframe

/-- The rest of a frame's pairs, none of them with a zero count, delivers the frame that the accumulator and these pairs
give: the tally reaches `L` at the last pair and not before. -/
theorem execAll_sdPush_pairs {bytes frame : List Byte} {s : State} (h : SdBetweenPairs s)
    (heven : bytes.length % 2 = 0) (h0 : ∀ p ∈ pairsOf bytes, p.1 ≠ 0#8)
    (hframe : sdFrame (frameLen s) (s.sd.acc ++ bytes) s.sd.prev = .ok frame) :
    execAll (bytes.map .sdPush) s = .next (respondOk 0#40 (sdDeliver frame frame s)) := by
  have hpar := h.even
  have htotal : s.sd.tally.toNat + countSum bytes = frameLen s := by
    obtain ⟨hlen, -⟩ := sdFrame_ok_iff.mp hframe
    rwa [length_expandPairs (by rw [List.length_append]; omega), countSum_append hpar, h.sum] at hlen
  induction bytes using countSum.induct generalizing s with
  | case1 => exact absurd htotal h.unfinished.ne
  | case2 c => simp at heven
  | case3 c v rest ih =>
    have hrest : rest.length % 2 = 0 := by simp at heven; omega
    obtain ⟨-, h0'⟩ := List.forall_mem_cons.mp h0
    rw [countSum, ← Nat.add_assoc] at htotal
    rw [List.append_cons, List.append_cons] at hframe
    by_cases hend : s.sd.tally.toNat + c.toNat = frameLen s
    · obtain rfl := eq_nil_of_countSum_eq_zero hrest h0' (by omega)
      rw [List.append_nil] at hframe
      exact h.execAll_lastPair hend hframe
    · have hlt : s.sd.tally.toNat + c.toNat < frameLen s := by omega
      have hL : frameLen s < 2 ^ 33 := frameLen_lt h.dims
      obtain ⟨hpair, hnext⟩ := h.execAll_pair hlt v
      have htally := len_add_byte_toNat s.sd.tally c (by omega)
      exact (execAll_append_of_next (is := [_, _]) hpair).trans
        (ih hnext hrest h0' hframe hnext.even ((congrArg (· + countSum rest) htally).trans htotal))

/-! ### The stream of a video read back (R138) -/

/-- At a frame boundary after frame 0 unit SD holds the whole previous frame `prev`. -/
structure SdAfterFrame (s : State) (prev : List Byte) : Prop where
  dims : dimsOk s = true
  mode : s.sd.mode = .rlePair
  phase : s.sd.phase = false
  tally : s.sd.tally = 0#34
  acc : s.sd.acc = []
  prev : bufReadAll .sdPrev (frameLen s) s.sd.prev = .ok prev

theorem SdAfterFrame.betweenPairs {s : State} {prev : List Byte} (h : SdAfterFrame s prev) : SdBetweenPairs s where
  dims := h.dims
  mode := h.mode
  phase := h.phase
  even := by rw [h.acc]; rfl
  sum := by rw [h.acc, h.tally]; rfl
  unfinished := by
    rw [h.tally]
    exact Nat.lt_of_lt_of_le (Nat.zero_lt_succ 5) (frameLen_ge h.dims)

theorem sdAfterFrame_sdDeliver {s : State} {frame : List Byte} (hd : dimsOk s = true)
    (hlen : frame.length = frameLen s) : SdAfterFrame (respondOk 0#40 (sdDeliver frame frame s)) frame where
  dims := hd
  mode := rfl
  phase := rfl
  tally := rfl
  acc := rfl
  prev := by
    have hread := bufReadAll_bufPutFrom (b := .sdPrev) s.sd.prev frame
    rwa [hlen] at hread

/-- The completed frame is the one encoded: the run-length code and the delta code are inverted in turn. -/
theorem sdFrame_rleEncode_delta {n : Nat} {m : Memory Byte} {frame prev : List Byte} (hlen : frame.length = n)
    (hprev : bufReadAll .sdPrev n m = .ok prev) :
    sdFrame n (rleEncode (List.zipWith deltaEnc frame prev)) m = .ok frame := by
  obtain ⟨hplen, -⟩ := bufReadAll_ok_iff.mp hprev
  rw [sdFrame_ok_iff, expandPairs_rleEncode]
  exact ⟨by rw [List.length_zipWith, hlen, hplen, Nat.min_self],
    prev, hprev, (zipWith_zipWith_cancel deltaDec_deltaEnc (hlen.trans hplen.symm)).symm⟩

/-- The encoded delta of a frame, pushed at a frame boundary, delivers the frame. -/
theorem execAll_sdPush_delta {s : State} {frame prev : List Byte} (h : SdAfterFrame s prev)
    (hlen : frame.length = frameLen s) :
    execAll ((rleEncode (List.zipWith deltaEnc frame prev)).map .sdPush) s =
      .next (respondOk 0#40 (sdDeliver frame frame s)) :=
  execAll_sdPush_pairs h.betweenPairs (rleEncode_length_even _) (rleEncode_count_ne_zero _)
    (by rw [h.acc]; exact sdFrame_rleEncode_delta hlen h.prev)

/-- The encoded frames after frame 0 are delivered one by one. -/
theorem execAll_sdPush_later {s : State} {prev : List Byte} (h : SdAfterFrame s prev) (frames : List (List Byte))
    (hlen : ∀ f ∈ frames, f.length = frameLen s) :
    ∃ t, execAll ((streamEncodeAfter prev frames).map .sdPush) s = .next t ∧
      t = { s with sd := t.sd, out := s.out ++ beatsOfFrames .sd frames, rsp := t.rsp } ∧
      SdAfterFrame t (frames.getLastD prev) := by
  induction frames generalizing s prev with
  | nil => exact ⟨s, rfl, by simp [beatsOfFrames], h⟩
  | cons f fs ih =>
    obtain ⟨hf, hfs⟩ := List.forall_mem_cons.mp hlen
    obtain ⟨t, hrun, ht, hafter⟩ := ih (sdAfterFrame_sdDeliver h.dims hf) hfs
    rw [streamEncodeAfter, List.map_append, execAll_append_of_next (execAll_sdPush_delta h hf), List.getLastD_cons]
    refine ⟨t, hrun, ht.trans ?_, hafter⟩
    rw [beatsOfFrames, ← List.append_assoc]
    rfl

theorem sdIdle_fields {sd : SdUnit} (h : sdIdle sd) : sd.mode = .rawFrame ∧ sd.tally = 0#34 ∧ sd.acc = [] := by
  unfold sdIdle at h
  exact ⟨by rw [h], by rw [h], by rw [h]⟩

/-- SD.END at a frame boundary is clean (R155). -/
theorem exec_sdEnd_clean {s : State} (hm : s.sd.mode ≠ .failed) (hacc : s.sd.acc = []) :
    exec .sdEnd s = .next (respondOk 0#40 (reinitSd s)) :=
  (if_neg hm).trans (if_pos hacc)

/-- Settles O52: frame 0 is delivered raw (`execAll_sdPush_raw`), the others from their deltas
(`execAll_sdPush_later`), and SD.END finds a frame boundary. -/
theorem streamRoundTrip : Obligations.StreamRoundTrip := by
  intro video s hd hidle hlen
  obtain ⟨hm, htally, hacc⟩ := sdIdle_fields hidle
  cases video with
  | nil =>
    have hend := exec_sdEnd_clean (s := s) (by rw [hm]; decide) hacc
    exact ⟨_, execAll_cons_of_next hend, by simp [beatsOfFrames], rfl, rfl, rfl, nofun⟩
  | cons f fs =>
    obtain ⟨hf, hfs⟩ := List.forall_mem_cons.mp hlen
    have hraw : execAll (f.map .sdPush) s = .next (respondOk 0#40 (sdDeliver f f s)) := by
      have hdeliver := execAll_sdPush_raw (rest := f) hd hm (by rw [hacc, htally]; rfl)
        (ne_nil_of_length_frameLen hd hf) (by rwa [hacc])
      rwa [hacc] at hdeliver
    obtain ⟨t, hrun, ht, hafter⟩ := execAll_sdPush_later (sdAfterFrame_sdDeliver hd hf) fs hfs
    have hend := exec_sdEnd_clean (by rw [hafter.mode]; decide) hafter.acc
    have hall : execAll ((streamEncode (f :: fs)).map .sdPush ++ [.sdEnd]) s =
        .next (respondOk 0#40 (reinitSd t)) := by
      rw [streamEncode, List.map_append, List.append_assoc, execAll_append_of_next hraw,
        execAll_append_of_next hrun]
      exact execAll_cons_of_next hend
    refine ⟨_, hall, ?_, rfl, ?_, rfl, fun g hg k hk => ?_⟩
    · rw [respondOk_out, reinitSd_out, ht, beatsOfFrames, ← List.append_assoc]
      rfl
    · rw [respondOk_err, reinitSd_err, ht]
      rfl
    · obtain ⟨-, hget⟩ := bufReadAll_ok_iff.mp hafter.prev
      have hL : frameLen t = frameLen s := frameLen_congr t s (by rw [ht]; rfl)
      obtain rfl : fs.getLastD f = g := by simpa [List.getLast?_cons] using hg
      exact hget k (hL ▸ hk)

end Sys2Proof.Machine
end

section
/-! Proofs for the family of 44_stream_decode.md: SD.PUSH and SD.END by the state they meet (R150 to R155), the mode
transitions (R158), the stream the operations decode (R160) and the bounded form of the unit (R156). -/

namespace Sys2Proof.Machine

/-! ### The accumulator as pairs (R153, R157) -/

/-- A count byte after whole pairs is in no pair yet. -/
theorem pairsOf_append_count {xs : List Byte} (hx : xs.length % 2 = 0) (c : Byte) :
    pairsOf (xs ++ [c]) = pairsOf xs := by
  induction xs using countSum.induct with
  | case1 => rfl
  | case2 d => simp at hx
  | case3 d w rest ih =>
    have := ih (by simp at hx; omega)
    simp only [List.cons_append, pairsOf, this]

theorem pairsOf_append_pair {xs : List Byte} (hx : xs.length % 2 = 0) (c v : Byte) :
    pairsOf (xs ++ [c] ++ [v]) = pairsOf xs ++ [(c, v)] := by
  induction xs using countSum.induct with
  | case1 => rfl
  | case2 d => simp at hx
  | case3 d w rest ih =>
    have := ih (by simp at hx; omega)
    simp only [List.cons_append, pairsOf, this]

theorem pairsOf_eq_nil_iff {xs : List Byte} (hx : xs.length % 2 = 0) : pairsOf xs = [] ↔ xs = [] := by
  rw [← List.length_eq_zero_iff, ← List.length_eq_zero_iff (l := xs), length_eq_two_mul_pairsOf hx]
  omega

theorem expandPairs_append (ps qs : List (Byte × Byte)) :
    expandPairs (ps ++ qs) = expandPairs ps ++ expandPairs qs := by
  induction ps with
  | nil => rfl
  | cons p ps ih => simp only [List.cons_append, expandPairs, ih, List.append_assoc]

/-- A value byte after a pending count appends one run to the expansion of the complete pairs (R156). -/
theorem expandPairs_append_value {xs : List Byte} (hx : xs.length % 2 = 1) {c : Byte} (hc : xs.getLast? = some c)
    (v : Byte) : expandPairs (pairsOf (xs ++ [v])) = expandPairs (pairsOf xs) ++ List.replicate c.toNat v := by
  obtain ⟨ys, rfl⟩ := List.getLast?_eq_some_iff.mp hc
  have hy : ys.length % 2 = 0 := by simp at hx; omega
  rw [pairsOf_append_pair hy, expandPairs_append, pairsOf_append_count hy]
  simp [expandPairs]

/-- With a pending count the value byte makes whole pairs, which expand to as many bytes as the counts say. -/
theorem length_expandPairs_append_value {xs : List Byte} (hx : xs.length % 2 = 1) (v : Byte) :
    (expandPairs (pairsOf (xs ++ [v]))).length = countSum xs := by
  rw [length_expandPairs (by simp; omega), countSum_append_value hx]

/-- A frame put into the previous frame's buffer is read there, and the rest of the buffer is what it was. -/
theorem bufGet_bufPutFrom_zero {n : Nat} {frame : List Byte} (m : Memory Byte) (hlen : frame.length = n) (a : Nat) :
    bufGet (bufPutFrom m 0 frame) a = if a < n then frame[a]? else bufGet m a := by
  simp [bufGet_bufPutFrom, hlen]

/-- The frame that a last value byte completes. -/
theorem sdFrame_append_value {n : Nat} {acc p : List Byte} {prev : Memory Byte} (hodd : acc.length % 2 = 1)
    (hsum : countSum acc = n) (hread : bufReadAll .sdPrev n prev = .ok p) (v : Byte) :
    sdFrame n (acc ++ [v]) prev = .ok (List.zipWith deltaDec (expandPairs (pairsOf (acc ++ [v]))) p) :=
  sdFrame_ok_iff.mpr ⟨(length_expandPairs_append_value hodd v).trans hsum, p, hread, rfl⟩

/-! ### SD.PUSH where it fails (R152, R154, R192) -/

/-- Unit SD with a count byte kept and added to the tally (R152). -/
def sdCounted (c : Byte) (sd : SdUnit) : SdUnit :=
  { sd with acc := sd.acc ++ [c], tally := sd.tally + c.setWidth 34, phase := true }

/-- A failure in the numbers of R190. -/
theorem sdFail_eq_raised (sub : Byte) (s : State) :
    sdFail sub s = raised 2#8 6#8 sub s.sd.idx
      { s with sd := { s.sd with mode := .failed, fsub := sub, fidx := s.sd.idx } } :=
  raise_eq_raised _ _ _ _ _

/-- A count that passes the frame's end fails at once; it cannot wrap the tally (R149). -/
theorem exec_sdPush_overshoot {s : State} (hd : dimsOk s = true) (hm : s.sd.mode = .rlePair)
    (hp : s.sd.phase = false) (hle : s.sd.tally.toNat ≤ frameLen s) {c : Byte}
    (hgt : frameLen s < s.sd.tally.toNat + c.toNat) :
    exec (.sdPush c) s = .next (sdFail 1#8 { s with sd := sdCounted c s.sd }) := by
  have hL : frameLen s < 2 ^ 33 := frameLen_lt hd
  have htally := len_add_byte_toNat s.sd.tally c (by omega)
  have hcount := sdCount_eq c s
  rw [if_pos (by omega)] at hcount
  exact exec_sdPush_of_sdPushByte hd (sdPushByte_ok_iff.mpr (.inr (.inr (.inr ⟨hm, hp, hcount.symm⟩))))

theorem exec_sdPush_failed {s : State} (hd : dimsOk s = true) (hm : s.sd.mode = .failed) (b : Byte) :
    exec (.sdPush b) s = .next (raise .corruptStream .sd s.sd.fsub s.sd.fidx s) :=
  exec_sdPush_of_sdPushByte hd (sdPushByte_ok_iff.mpr (.inl ⟨hm, rfl⟩))

/-! ### SD.END away from a frame boundary (R155) -/

theorem exec_sdEnd_failed {s : State} (hm : s.sd.mode = .failed) :
    exec .sdEnd s = .next (raise .corruptStream .sd s.sd.fsub s.sd.fidx s) :=
  if_pos hm

theorem exec_sdEnd_midpair {s : State} (hacc : s.sd.acc ≠ []) (hm : s.sd.mode = .rlePair) (hp : s.sd.phase = true)
    (hend : s.sd.tally.toNat = frameLen s) : exec .sdEnd s = .next (sdFail 3#8 s) :=
  have hnf : s.sd.mode ≠ .failed := by rw [hm]; decide
  ((if_neg hnf).trans (if_neg hacc)).trans (if_pos ⟨hm, hp, hend⟩)

theorem exec_sdEnd_truncated {s : State} (hm : s.sd.mode ≠ .failed) (hacc : s.sd.acc ≠ [])
    (hmid : ¬ (s.sd.mode = .rlePair ∧ s.sd.phase = true ∧ s.sd.tally.toNat = frameLen s)) :
    exec .sdEnd s = .next (sdFail 2#8 s) :=
  ((if_neg hm).trans (if_neg hacc)).trans (if_neg hmid)

/-- Settles O50: the branches of R155, each by its lemma, a raise written in the numbers of R190. -/
theorem sdEndJudgesTheStream : Obligations.SdEndJudgesTheStream := by
  refine ⟨decode_encode .sdEnd, fun s => ⟨fun hm => ?_, fun hm hacc => exec_sdEnd_clean hm hacc,
    fun _ hacc hm hp hend => ?_, fun hm hacc hmid => ?_⟩⟩
  · rw [exec_sdEnd_failed hm, raise_eq_raised]
    rfl
  · rw [exec_sdEnd_midpair hacc hm hp hend, sdFail_eq_raised]
  · rw [exec_sdEnd_truncated hm hacc hmid, sdFail_eq_raised]

/-! ### What SD.PUSH leaves, by the kind of byte (R151 to R153) -/

/-- Settles O47, by `exec_sdPush_raw_inside` and `exec_sdPush_raw_last`. -/
theorem sdPushRawByte : Obligations.SdPushRawByte := by
  intro b s hd hm hacc
  have hL : frameLen s < 2 ^ 33 := frameLen_lt hd
  refine ⟨fun hlt => ⟨_, len_add_one_toNat s.sd.tally (by omega), exec_sdPush_raw_inside hd hm hlt b⟩, fun hend => ?_⟩
  have hlen : (s.sd.acc ++ [b]).length = frameLen s := by
    rw [List.length_append, hacc, List.length_singleton, hend]
  exact ⟨_, _, _, exec_sdPush_raw_last hd hm hacc hend b, satInc_toNat s.sd.idx,
    bufGet_bufPutFrom_zero s.sd.prev hlen, rfl⟩

/-- Settles O48: the tally does not wrap, so it is at most `L` or above it as the sum of the numbers is. -/
theorem sdPushCountByte : Obligations.SdPushCountByte := by
  intro c s hd hm hp hle
  have hL : frameLen s < 2 ^ 33 := frameLen_lt hd
  have htally := len_add_byte_toNat s.sd.tally c (by omega)
  refine ⟨_, htally, fun hin => exec_sdPush_count hd hm hp (htally ▸ hin), fun hover => ?_⟩
  rw [exec_sdPush_overshoot hd hm hp hle (htally ▸ hover), sdFail_eq_raised]
  rfl

/-- Settles O49: the counts sum to the tally, so the pairs of a completed frame expand to `L` bytes
(`sdFrame_append_value`), one for each byte of the previous frame. -/
theorem sdPushValueByte : Obligations.SdPushValueByte := by
  intro v s hd hm hp hodd hsum hprev
  refine ⟨fun hne => exec_sdPush_value_inside hd hm hp hne v, fun hend => ?_⟩
  obtain ⟨p, hread⟩ := bufReadAll_total (b := .sdPrev) hprev
  obtain ⟨hplen, hpget⟩ := bufReadAll_ok_iff.mp hread
  have hdelta : (expandPairs (pairsOf (s.sd.acc ++ [v]))).length = frameLen s :=
    (length_expandPairs_append_value hodd v).trans (hsum.trans hend)
  have hlen : (List.zipWith deltaDec (expandPairs (pairsOf (s.sd.acc ++ [v]))) p).length = frameLen s := by
    rw [List.length_zipWith, hdelta, hplen, Nat.min_self]
  refine ⟨_, _, _, _, _, exec_sdPush_value_last hd hm hp hend (sdFrame_append_value hodd (hsum.trans hend) hread v),
    rleDecode_eq_some_iff.mpr ⟨hdelta, rfl⟩, hlen, fun a ha => ?_, satInc_toNat s.sd.idx,
    bufGet_bufPutFrom_zero s.sd.prev hlen, rfl⟩
  have hda := List.getElem?_eq_getElem (hdelta.symm ▸ ha)
  have hpa := List.getElem?_eq_getElem (hplen.symm ▸ ha)
  exact ⟨_, _, hda, (hpget a ha).trans hpa, by rw [List.getElem?_zipWith, hda, hpa]⟩

/-! ### The modes (R158) -/

/-- A size that fits is stored, and the units that hold a frame start over (R173). -/
theorem exec_wrcr_width {imm : XWord} (hfit : imm.toNat < 2 ^ 16) (s : State) :
    exec (.wrcr 0x01#8 imm) s = .next (respondOk 0#40 (reinitFrameUnits
      { s with ctl := { s.ctl with width := imm.setWidth 16 } })) := by
  have hcheck : writeCheck 0x01#8 imm = .toWidth := if_pos hfit
  simp only [exec, execWrcr, hcheck, Config.widths_dimBits]

theorem exec_wrcr_height {imm : XWord} (hfit : imm.toNat < 2 ^ 16) (s : State) :
    exec (.wrcr 0x02#8 imm) s = .next (respondOk 0#40 (reinitFrameUnits
      { s with ctl := { s.ctl with height := imm.setWidth 16 } })) := by
  have hcheck : writeCheck 0x02#8 imm = .toHeight := if_pos hfit
  simp only [exec, execWrcr, hcheck, Config.widths_dimBits]

/-- The operations that move unit SD at all: R15's and R27's tables read for SD. -/
theorem mayWrite_sd_eq_false {i : Instr} (chain : Bool) (hpush : ∀ b, i ≠ .sdPush b) (hend : i ≠ .sdEnd)
    (hinit : i ≠ .init) (hw : ∀ imm, i ≠ .wrcr 0x01#8 imm) (hh : ∀ imm, i ≠ .wrcr 0x02#8 imm) :
    mayWrite .sd chain i = false := by
  cases i with
  | wrcr cr imm =>
    have h1 : cr ≠ 0x01#8 := fun e => hw imm (by rw [e])
    have h2 : cr ≠ 0x02#8 := fun e => hh imm (by rw [e])
    simp [mayWrite, h1, h2]
  | sdPush b => exact absurd rfl (hpush b)
  | sdEnd => exact absurd rfl hend
  | init => exact absurd rfl hinit
  | _ => rfl

/-- A value byte answers in RLEPair mode with phase 0, the tally emptied if it completed a frame (R153). -/
theorem sdValue_transition {v : Byte} {s t : State} (hm : s.sd.mode = .rlePair) (h : sdValue v s = .ok t) :
    t.sd.mode = .rlePair ∧ t.sd.phase = false ∧ (s.sd.tally.toNat = frameLen s → t.sd.tally = 0#34) := by
  obtain ⟨hne, rfl⟩ | ⟨-, frame, -, rfl⟩ := sdValue_ok_iff.mp h
  · exact ⟨hm, rfl, fun hend => absurd hend hne⟩
  · exact ⟨rfl, rfl, fun _ => rfl⟩

/-- The rows of R158 for SD.PUSH; the invariant bounds the tally in RLEPair mode. -/
theorem exec_sdPush_transitions {b : Byte} {s t : State} (hInv : Inv s) (hd : dimsOk s = true)
    (h : exec (.sdPush b) s = .next t) :
    (s.sd.mode = .rawFrame → s.sd.tally.toNat + 1 < frameLen s → t.sd.mode = .rawFrame) ∧
    (s.sd.mode = .rawFrame → s.sd.tally.toNat + 1 = frameLen s → t.sd.mode = .rlePair ∧ t.sd.phase = false) ∧
    (s.sd.mode = .rlePair → s.sd.phase = false → s.sd.tally.toNat + b.toNat ≤ frameLen s →
      t.sd.mode = .rlePair ∧ t.sd.phase = true) ∧
    (s.sd.mode = .rlePair → s.sd.phase = false → frameLen s < s.sd.tally.toNat + b.toNat →
      t.sd.mode = .failed ∧ t.sd.fsub = 1#8) ∧
    (s.sd.mode = .rlePair → s.sd.phase = true →
      t.sd.mode = .rlePair ∧ t.sd.phase = false ∧ (s.sd.tally.toNat = frameLen s → t.sd.tally = 0#34)) ∧
    (s.sd.mode = .failed → t.sd = s.sd) := by
  refine ⟨fun hm hlt => ?_, fun hm hend => ?_, fun hm hp hle => ?_, fun hm hp hgt => ?_, fun hm hp => ?_, fun hm => ?_⟩
  · cases (exec_sdPush_raw_inside hd hm hlt b).symm.trans h
    exact hm
  · obtain ⟨-, -, hacc, -⟩ := hInv.sd.raw hm
    cases (exec_sdPush_raw_last hd hm hacc hend b).symm.trans h
    exact ⟨rfl, rfl⟩
  · cases (exec_sdPush_count hd hm hp hle).symm.trans h
    exact ⟨hm, rfl⟩
  · have hle := hInv.sd.tally_le hd (by rw [hm]; decide)
    cases (exec_sdPush_overshoot hd hm hp hle hgt).symm.trans h
    rw [sdFail_sd]
    exact ⟨rfl, rfl⟩
  · obtain ⟨u, hvalue, -⟩ := sdValue_safe hInv hd hm hp b
    have hpush := exec_sdPush_of_sdPushByte hd (sdPushByte_ok_iff.mpr (.inr (.inr (.inl ⟨hm, hp, hvalue⟩))))
    cases hpush.symm.trans h
    exact sdValue_transition hm hvalue
  · cases (exec_sdPush_failed hd hm b).symm.trans h
    exact raise_sd _ _ _ _ _

/-- The rows of R158 for SD.END. -/
theorem exec_sdEnd_transitions {s t : State} (h : exec .sdEnd s = .next t) :
    (s.sd.mode ≠ .failed → s.sd.acc = [] → sdIdle t.sd) ∧
    (s.sd.mode ≠ .failed → s.sd.acc ≠ [] → t.sd.mode = .failed ∧ (t.sd.fsub = 2#8 ∨ t.sd.fsub = 3#8)) ∧
    (s.sd.mode = .failed → t.sd = s.sd) := by
  rcases execSdEnd_cases s with ⟨hm, e⟩ | ⟨hm, hacc, e⟩ | ⟨hm, hacc, sub, hsub, e⟩ <;> cases e.symm.trans h
  · exact ⟨absurd hm, absurd hm, fun _ => raise_sd _ _ _ _ _⟩
  · exact ⟨fun _ _ => rfl, fun _ hne => absurd hacc hne, fun hf => absurd hf hm⟩
  · rw [sdFail_sd]
    exact ⟨fun _ he => absurd he hacc, fun _ _ => ⟨rfl, hsub⟩, fun hf => absurd hf hm⟩

/-- Settles O20: the rows of SD.PUSH and SD.END, the two reinitialisations, and for every other operation the isolation
of the units (`exec_isolated`). -/
theorem decoderModeTransitions : Obligations.DecoderModeTransitions := by
  refine ⟨fun b s t hInv hd h => exec_sdPush_transitions hInv hd h, fun s t h => exec_sdEnd_transitions h,
    fun s t h => ?_, fun imm s t hfit h => ?_, fun i s t h hpush hend hinit hw hh => ?_⟩
  · cases h
    rfl
  · rcases h with h | h
    · cases (exec_wrcr_width hfit s).symm.trans h
      rfl
    · cases (exec_wrcr_height hfit s).symm.trans h
      rfl
  · exact (exec_isolated h).sd (mayWrite_sd_eq_false _ hpush hend hinit hw hh)

/-! ### The bounded form, operation by operation (R156) -/

section
variable {x : SdBounded} {n : Nat}

theorem boundedPush_failed (hm : x.mode = .failed) (b : Byte) :
    boundedPush n b x = .ok (x, .corrupt x.fsub x.fidx) := by
  simp only [boundedPush, hm]

theorem boundedPush_raw_inside (hm : x.mode = .rawFrame) (hne : (x.tally + 1#34).toNat ≠ n) (b : Byte) :
    boundedPush n b x =
      .ok ({ x with raw := x.raw ++ [b], tally := x.tally + 1#34, dirty := true }, .ok []) := by
  simp only [boundedPush, hm, if_neg hne]

theorem boundedPush_raw_last (hm : x.mode = .rawFrame) (hend : (x.tally + 1#34).toNat = n) (b : Byte) :
    boundedPush n b x = .ok (boundedDeliver (x.raw ++ [b]) x, .ok (x.raw ++ [b])) := by
  simp only [boundedPush, hm, if_pos hend]
  rfl

/-- The bounded form with a count byte pending. -/
def boundedCounted (c : Byte) (x : SdBounded) : SdBounded :=
  { x with pend := c, dirty := true, tally := x.tally + c.setWidth 34, phase := true }

/-- The bounded form in Failed mode. -/
def boundedFailed (sub : Byte) (x : SdBounded) : SdBounded :=
  { x with mode := .failed, fsub := sub, fidx := x.idx }

theorem boundedPush_count (hm : x.mode = .rlePair) (hp : x.phase = false) {c : Byte}
    (hle : (x.tally + c.setWidth 34).toNat ≤ n) : boundedPush n c x = .ok (boundedCounted c x, .ok []) := by
  have hnot : ¬ (x.tally + c.setWidth Config.widths.lenBits).toNat > n := by simpa using hle
  simp only [boundedPush, hm, hp, Bool.false_eq_true, if_false, if_neg hnot, boundedCounted,
    Config.widths_lenBits]

theorem boundedPush_overshoot (hm : x.mode = .rlePair) (hp : x.phase = false) {c : Byte}
    (hgt : n < (x.tally + c.setWidth 34).toNat) :
    boundedPush n c x = .ok (boundedFailed 1#8 (boundedCounted c x), .corrupt 1#8 x.idx) := by
  have hover : (x.tally + c.setWidth Config.widths.lenBits).toNat > n := hgt
  simp only [boundedPush, hm, hp, Bool.false_eq_true, if_false, if_pos hover]
  rfl

theorem boundedPush_value_inside (hm : x.mode = .rlePair) (hp : x.phase = true) (hne : x.tally.toNat ≠ n) (v : Byte) :
    boundedPush n v x =
      .ok ({ x with exp := x.exp ++ List.replicate x.pend.toNat v, phase := false }, .ok []) := by
  simp only [boundedPush, hm, hp, if_true, if_neg hne]

theorem boundedPush_value_last (hm : x.mode = .rlePair) (hp : x.phase = true) (hend : x.tally.toNat = n)
    {p : List Byte} (hread : bufReadAll .sdPrev n x.prev = .ok p) (v : Byte) :
    boundedPush n v x =
      .ok (boundedDeliver (List.zipWith deltaDec (x.exp ++ List.replicate x.pend.toNat v) p) x,
        .ok (List.zipWith deltaDec (x.exp ++ List.replicate x.pend.toNat v) p)) := by
  simp only [boundedPush, hm, hp, if_true, if_pos hend, hread]

/-- The bounded form at its reset values (R27); the previous frame's buffer keeps what it holds. -/
def boundedIdle (x : SdBounded) : SdBounded :=
  { mode := .rawFrame, phase := false, tally := 0#34, idx := 0#32, fsub := 0#8, fidx := 0#32, raw := [], exp := [],
    pend := 0#8, dirty := false, prev := x.prev }

theorem boundedEnd_failed (hm : x.mode = .failed) : boundedEnd n x = (x, .corrupt x.fsub x.fidx) :=
  if_pos hm

theorem boundedEnd_clean (hm : x.mode ≠ .failed) (hdirty : x.dirty = false) :
    boundedEnd n x = (boundedIdle x, .ok []) := by
  rw [boundedEnd, if_neg hm, if_pos hdirty, boundedIdle]

theorem boundedEnd_midpair (hdirty : x.dirty ≠ false) (hm : x.mode = .rlePair) (hp : x.phase = true)
    (hend : x.tally.toNat = n) : boundedEnd n x = (boundedFailed 3#8 x, .corrupt 3#8 x.idx) := by
  have hnf : x.mode ≠ .failed := by rw [hm]; decide
  rw [boundedEnd, if_neg hnf, if_neg hdirty, if_pos ⟨hm, hp, hend⟩, boundedFailed]

theorem boundedEnd_truncated (hm : x.mode ≠ .failed) (hdirty : x.dirty ≠ false)
    (hmid : ¬ (x.mode = .rlePair ∧ x.phase = true ∧ x.tally.toNat = n)) :
    boundedEnd n x = (boundedFailed 2#8 x, .corrupt 2#8 x.idx) := by
  rw [boundedEnd, if_neg hm, if_neg hdirty, if_neg hmid, boundedFailed]

end

/-! ### The bounded form goes on standing for the unit (R156) -/

namespace SdBounded.StandsFor

variable {x : SdBounded} {sd : SdUnit}

/-- A frame boundary: both forms hold nothing but the frame just delivered. -/
theorem deliver {s : State} (h : x.StandsFor s.sd) {frame bytes : List Byte} (hframe : frame = bytes) :
    (boundedDeliver frame x).StandsFor (sdDeliver bytes bytes s).sd := by
  subst hframe
  obtain ⟨-, -, -, hidx, hfsub, hfidx, hprev, -, -, -, -⟩ := h
  refine ⟨rfl, rfl, rfl, ?_, hfsub, hfidx, ?_, rfl, nofun, fun _ => rfl, nofun⟩
  · exact congrArg satInc hidx
  · exact congrArg (bufPutFrom · 0 frame) hprev

/-- A raw byte that leaves frame 0 unfinished. -/
theorem raw_inside (h : x.StandsFor sd) (hm : sd.mode = .rawFrame) (b : Byte) :
    SdBounded.StandsFor { x with raw := x.raw ++ [b], tally := x.tally + 1#34, dirty := true }
      { sd with acc := sd.acc ++ [b], tally := sd.tally + 1#34 } := by
  obtain ⟨hmode, hphase, htally, hidx, hfsub, hfidx, hprev, -, hraw, -, -⟩ := h
  refine ⟨hmode, hphase, congrArg (· + 1#34) htally, hidx, hfsub, hfidx, hprev, by simp, fun _ => ?_,
    fun hf => (nomatch hm.symm.trans hf), fun hf => (nomatch hm.symm.trans hf)⟩
  exact congrArg (· ++ [b]) (hraw hm)

/-- A count byte changes no complete pair: it is the pending count, and the last byte accumulated. -/
theorem counted (h : x.StandsFor sd) (hm : sd.mode = .rlePair) (heven : sd.acc.length % 2 = 0) (c : Byte) :
    (boundedCounted c x).StandsFor (sdCounted c sd) := by
  obtain ⟨hmode, -, htally, hidx, hfsub, hfidx, hprev, -, -, hexp, -⟩ := h
  refine ⟨hmode, rfl, congrArg (· + c.setWidth 34) htally, hidx, hfsub, hfidx, hprev,
    by simp [sdCounted, boundedCounted], fun hf => (nomatch hm.symm.trans hf), fun _ => ?_,
    fun _ _ => List.getLast?_concat⟩
  exact (hexp hm).trans (congrArg expandPairs (pairsOf_append_count heven c).symm)

/-- A value byte that leaves the frame unfinished appends its run to the expansion. -/
theorem value_inside (h : x.StandsFor sd) (hm : sd.mode = .rlePair) (hp : sd.phase = true)
    (hodd : sd.acc.length % 2 = 1) (v : Byte) :
    SdBounded.StandsFor { x with exp := x.exp ++ List.replicate x.pend.toNat v, phase := false }
      { sd with acc := sd.acc ++ [v], phase := false } := by
  obtain ⟨hmode, -, htally, hidx, hfsub, hfidx, hprev, hdirty, -, hexp, hpend⟩ := h
  have hacc : sd.acc ≠ [] := fun e => by simp [e] at hodd
  refine ⟨hmode, rfl, htally, hidx, hfsub, hfidx, hprev, hdirty.trans (by simp [List.isEmpty_eq_false_iff.mpr hacc]),
    fun hf => (nomatch hm.symm.trans hf), fun _ => ?_, fun _ => nofun⟩
  exact (congrArg (· ++ _) (hexp hm)).trans (expandPairs_append_value hodd (hpend hm hp) v).symm

/-- In Failed mode neither form reads what it has accumulated. -/
theorem fail {s : State} (h : x.StandsFor s.sd) (sub : Byte) : (boundedFailed sub x).StandsFor (sdFail sub s).sd := by
  obtain ⟨-, hphase, htally, hidx, -, -, hprev, hdirty, -, -, -⟩ := h
  rw [sdFail_sd]
  exact ⟨rfl, hphase, htally, hidx, rfl, hidx, hprev, hdirty, nofun, nofun, nofun⟩

theorem raise {s : State} (h : x.StandsFor s.sd) (e : ErrKind) (u : UnitCode) (sub : Byte) (idx : Idx) :
    x.StandsFor (Machine.raise e u sub idx s).sd := by
  rwa [raise_sd]

theorem idle {s : State} (h : x.StandsFor s.sd) : (boundedIdle x).StandsFor (reinitSd s).sd :=
  ⟨rfl, rfl, rfl, rfl, rfl, rfl, h.prev, rfl, fun _ => rfl, nofun, nofun⟩

/-- The unit is dirty exactly when it has accumulated a byte. -/
theorem dirty_eq_false_iff (h : x.StandsFor sd) : x.dirty = false ↔ sd.acc = [] := by
  rw [h.dirty]
  simp

end SdBounded.StandsFor

/-- What a reply of the bounded form says of the beats and the response of the operation. -/
def SdReply.Answers (reply : SdReply) (s t : State) : Prop :=
  match reply with
  | .ok frame => t.out = s.out ++ beatsOf .sd frame ∧ t.rsp = okReply 0#40
  | .corrupt sub i =>
    t.out = s.out ∧ t.rsp = some { code := 2#8, stage := 6#8, sub := sub, val := i.setWidth 40 }

/-- The two forms of an operation give the same reply, and the bounded state that results stands for the unit's. -/
def BoundedAgrees (n : Nat) (b : Byte) (x : SdBounded) (s : State) : Prop :=
  ∃ (t : State) (x' : SdBounded) (reply : SdReply), exec (.sdPush b) s = .next t ∧
    boundedPush n b x = .ok (x', reply) ∧ x'.StandsFor t.sd ∧ reply.Answers s t

section
variable {x : SdBounded} {s : State}

theorem boundedAgrees_raw (h : x.StandsFor s.sd) (hInv : Inv s) (hd : dimsOk s = true) (hm : s.sd.mode = .rawFrame)
    (b : Byte) : BoundedAgrees (frameLen s) b x s := by
  obtain ⟨-, -, hacc, hbound⟩ := hInv.sd.raw hm
  have hL : frameLen s < 2 ^ 33 := frameLen_lt hd
  have hlt := hbound hd
  have htally : (x.tally + 1#34).toNat = s.sd.tally.toNat + 1 := by rw [h.tally, len_add_one_toNat _ (by omega)]
  by_cases hend : s.sd.tally.toNat + 1 = frameLen s
  · have hraw : x.raw ++ [b] = s.sd.acc ++ [b] := congrArg (· ++ [b]) (h.raw hm)
    exact ⟨_, _, _, exec_sdPush_raw_last hd hm hacc hend b,
      boundedPush_raw_last (h.mode.trans hm) (htally.trans hend) b, h.deliver hraw,
      congrArg (s.out ++ beatsOf .sd ·) hraw.symm, rfl⟩
  · exact ⟨_, _, _, exec_sdPush_raw_inside hd hm (by omega) b,
      boundedPush_raw_inside (h.mode.trans hm) (by omega) b, h.raw_inside hm b, (List.append_nil _).symm, rfl⟩

theorem boundedAgrees_count (h : x.StandsFor s.sd) (hInv : Inv s) (hd : dimsOk s = true) (hm : s.sd.mode = .rlePair)
    (hp : s.sd.phase = false) (c : Byte) : BoundedAgrees (frameLen s) c x s := by
  obtain ⟨-, -, -, heven, -⟩ := hInv.sd.pair hm
  rw [hp] at heven
  have hL : frameLen s < 2 ^ 33 := frameLen_lt hd
  have hbound := hInv.sd.tally_le hd (by rw [hm]; decide)
  have htally : (x.tally + c.setWidth 34).toNat = s.sd.tally.toNat + c.toNat := by
    rw [h.tally, len_add_byte_toNat _ _ (by omega)]
  have hcounted := h.counted hm heven c
  by_cases hle : s.sd.tally.toNat + c.toNat ≤ frameLen s
  · exact ⟨_, _, _, exec_sdPush_count hd hm hp hle,
      boundedPush_count (h.mode.trans hm) (h.phase.trans hp) (htally.trans_le hle), hcounted,
      (List.append_nil _).symm, rfl⟩
  · exact ⟨_, _, _, exec_sdPush_overshoot hd hm hp hbound (by omega),
      boundedPush_overshoot (h.mode.trans hm) (h.phase.trans hp) (by omega),
      SdBounded.StandsFor.fail (s := { s with sd := sdCounted c s.sd }) hcounted 1#8,
      sdFail_out _ _, by rw [h.idx]; rfl⟩

theorem boundedAgrees_value (h : x.StandsFor s.sd) (hInv : Inv s) (hd : dimsOk s = true) (hm : s.sd.mode = .rlePair)
    (hp : s.sd.phase = true) (v : Byte) : BoundedAgrees (frameLen s) v x s := by
  obtain ⟨-, hprev, hsum, hodd, -⟩ := hInv.sd.pair hm
  rw [hp, if_pos rfl] at hodd
  by_cases hend : s.sd.tally.toNat = frameLen s
  · obtain ⟨p, hread⟩ := bufReadAll_total (b := .sdPrev) hprev
    have hexp : x.exp ++ List.replicate x.pend.toNat v = expandPairs (pairsOf (s.sd.acc ++ [v])) := by
      rw [h.exp hm, expandPairs_append_value hodd (h.pend hm hp)]
    have hframe := congrArg (List.zipWith deltaDec · p) hexp
    exact ⟨_, _, _, exec_sdPush_value_last hd hm hp hend (sdFrame_append_value hodd (hsum.trans hend) hread v),
      boundedPush_value_last (h.mode.trans hm) (h.phase.trans hp) (by rw [h.tally, hend]) (by rw [h.prev, hread]) v,
      h.deliver hframe, congrArg (s.out ++ beatsOf .sd ·) hframe.symm, rfl⟩
  · exact ⟨_, _, _, exec_sdPush_value_inside hd hm hp hend v,
      boundedPush_value_inside (h.mode.trans hm) (h.phase.trans hp) (by rwa [h.tally]) v,
      h.value_inside hm hp hodd v, (List.append_nil _).symm, rfl⟩

theorem boundedAgrees_failed (h : x.StandsFor s.sd) (hd : dimsOk s = true) (hm : s.sd.mode = .failed) (b : Byte) :
    BoundedAgrees (frameLen s) b x s :=
  ⟨_, _, _, exec_sdPush_failed hd hm b, boundedPush_failed (h.mode.trans hm) b, h.raise _ _ _ _,
    raise_out _ _ _ _ _, by rw [h.fsub, h.fidx]; rfl⟩

theorem boundedAgrees (h : x.StandsFor s.sd) (hInv : Inv s) (hd : dimsOk s = true) (b : Byte) :
    BoundedAgrees (frameLen s) b x s := by
  cases hm : s.sd.mode with
  | failed => exact boundedAgrees_failed h hd hm b
  | rawFrame => exact boundedAgrees_raw h hInv hd hm b
  | rlePair =>
    cases hp : s.sd.phase with
    | true => exact boundedAgrees_value h hInv hd hm hp b
    | false => exact boundedAgrees_count h hInv hd hm hp b

/-- A failure at SD.END, of the same sub-cause in the two forms. -/
theorem boundedEnd_fails (h : x.StandsFor s.sd) (sub : Byte) :
    (boundedFailed sub x).StandsFor (sdFail sub s).sd ∧ (SdReply.corrupt sub x.idx).Answers s (sdFail sub s) :=
  ⟨h.fail sub, sdFail_out _ _, by rw [h.idx]; rfl⟩

/-- SD.END in the two forms: what R155 looks at agrees, the dirty bit standing for the accumulator. -/
theorem boundedEnd_agrees (h : x.StandsFor s.sd) :
    ∃ t, exec .sdEnd s = .next t ∧ (boundedEnd (frameLen s) x).1.StandsFor t.sd ∧
      (boundedEnd (frameLen s) x).2.Answers s t := by
  by_cases hm : s.sd.mode = .failed
  · rw [boundedEnd_failed (h.mode.trans hm)]
    exact ⟨_, exec_sdEnd_failed hm, h.raise _ _ _ _, raise_out _ _ _ _ _, by rw [h.fsub, h.fidx]; rfl⟩
  have hxm : x.mode ≠ .failed := by rwa [h.mode]
  by_cases hacc : s.sd.acc = []
  · rw [boundedEnd_clean hxm (h.dirty_eq_false_iff.mpr hacc)]
    exact ⟨_, exec_sdEnd_clean hm hacc, h.idle, (List.append_nil _).symm, rfl⟩
  have hdirty : x.dirty ≠ false := fun hc => hacc (h.dirty_eq_false_iff.mp hc)
  by_cases hmid : s.sd.mode = .rlePair ∧ s.sd.phase = true ∧ s.sd.tally.toNat = frameLen s
  · obtain ⟨hpair, hp, hend⟩ := hmid
    rw [boundedEnd_midpair hdirty (h.mode.trans hpair) (h.phase.trans hp) (by rw [h.tally, hend])]
    exact ⟨_, exec_sdEnd_midpair hacc hpair hp hend, boundedEnd_fails h 3#8⟩
  · rw [boundedEnd_truncated hxm hdirty (by rwa [h.mode, h.phase, h.tally])]
    exact ⟨_, exec_sdEnd_truncated hm hacc hmid, boundedEnd_fails h 2#8⟩

/-- SD.END emits nothing (R155). -/
theorem exec_sdEnd_out {t : State} (ht : exec .sdEnd s = .next t) : t.out = s.out := by
  rcases execSdEnd_cases s with ⟨-, e⟩ | ⟨-, -, e⟩ | ⟨-, -, sub, -, e⟩ <;> cases e.symm.trans ht
  · exact raise_out _ _ _ _ _
  · rfl
  · exact sdFail_out _ _

end

/-- Settles O53: the two forms agree on SD.PUSH in every mode (`boundedAgrees`) and on SD.END (`boundedEnd_agrees`),
which emits nothing. -/
theorem boundedDecoderIsEquivalent : Obligations.BoundedDecoderIsEquivalent := by
  intro s x hInv h
  refine ⟨fun b hd => ?_, ?_⟩
  · obtain ⟨t, x', reply, hexec, hpush, hstands, hanswers⟩ := boundedAgrees h hInv hd b
    refine ⟨t, x', reply, hexec, hpush, hstands, ?_⟩
    cases reply <;> exact hanswers
  · obtain ⟨t, hexec, hstands, hanswers⟩ := boundedEnd_agrees h
    refine ⟨t, hexec, hstands, exec_sdEnd_out hexec, ?_⟩
    generalize (boundedEnd (frameLen s) x).2 = reply at hanswers
    cases reply <;> exact hanswers.2

/-! ### The operations compute `stream_decode` (R160) -/

/-- What the operations pushed from `s` must leave in `t` for a result of `stream_decode`. -/
structure SdDecodes (r : DecodeResult) (s t : State) : Prop where
  out : t.out = s.out ++ beatsOfFrames .sd r.frames
  clean : r.failure = none → t.rsp = okReply 0#40 ∧ t.err = s.err ∧ sdIdle t.sd
  failed : ∀ sub i, r.failure = some (sub, i) →
    t.rsp = some { code := 2#8, stage := 6#8, sub := sub, val := (satIndex i).setWidth 40 } ∧ t.sd.mode = .failed

/-- A clean end gives no further frame and no failure. -/
theorem sdDecodes_clean (s : State) :
    SdDecodes { frames := [], failure := none } s (respondOk 0#40 (reinitSd s)) where
  out := (List.append_nil _).symm
  clean _ := ⟨rfl, rfl, rfl⟩
  failed := nofun

/-- A failure of the frame `i` gives no further frame. -/
theorem sdDecodes_sdFail {s : State} {i : Nat} (hidx : s.sd.idx = satIndex i) (sub : Byte) :
    SdDecodes { frames := [], failure := some (sub, i) } s (sdFail sub s) where
  out := by simp [beatsOfFrames]
  clean := nofun
  failed := by
    rintro _ _ ⟨⟩
    rw [sdFail_rsp, hidx, sdFail_sd]
    exact ⟨rfl, rfl⟩

/-- Only OUT and the record of the state pushed from matter. -/
theorem SdDecodes.congr {r : DecodeResult} {s s' t : State} (h : SdDecodes r s' t) (hout : s'.out = s.out)
    (herr : s'.err = s.err) : SdDecodes r s t where
  out := hout ▸ h.out
  clean := herr ▸ h.clean
  failed := h.failed

/-- A delivered frame comes before those decoded after it. -/
theorem SdDecodes.consFrame {r : DecodeResult} {s t : State} {frame : List Byte}
    (h : SdDecodes r (respondOk 0#40 (sdDeliver frame frame s)) t) : SdDecodes (consFrame frame r) s t where
  out := h.out.trans (List.append_assoc _ _ _)
  clean := h.clean
  failed := h.failed

theorem satIndex_toNat (i : Nat) : (satIndex i).toNat = min i (2 ^ 32 - 1) := by
  have hlt : min i (2 ^ 32 - 1) < 2 ^ 32 := by omega
  exact (BitVec.toNat_ofNat _ _).trans (Nat.mod_eq_of_lt hlt)

/-- The index counts the frames delivered until it saturates (R222). -/
theorem satInc_satIndex (i : Nat) : satInc (satIndex i) = satIndex (i + 1) := by
  apply BitVec.eq_of_toNat_eq
  rw [satInc_toNat, satIndex_toNat, satIndex_toNat]
  omega

/-- A raise repeated changes nothing: the record holds an error after the first (R190). -/
theorem raise_raise (e : ErrKind) (u : UnitCode) (sub : Byte) (idx : Idx) (s : State) :
    raise e u sub idx (raise e u sub idx s) = raise e u sub idx s := by
  have hcode := raise_err_code_ne_zero e u sub idx s
  rw [raise_eq_raised _ _ _ _ (raise e u sub idx s), raised, if_neg hcode]
  rfl

/-- Once the unit has failed, the rest of the stream and SD.END repeat the failure (R192). -/
theorem execAll_sdPush_failed {s : State} (hd : dimsOk s = true) (hm : s.sd.mode = .failed) (bytes : List Byte) :
    execAll (bytes.map .sdPush ++ [.sdEnd]) s = .next (raise .corruptStream .sd s.sd.fsub s.sd.fidx s) := by
  induction bytes generalizing s with
  | nil => exact execAll_cons_of_next (exec_sdEnd_failed hm)
  | cons b bytes ih =>
    have hrest := ih (s := raise .corruptStream .sd s.sd.fsub s.sd.fidx s) (by rwa [dimsOk_raise]) (by rwa [raise_sd])
    rw [raise_sd, raise_raise] at hrest
    exact (execAll_cons_of_next (exec_sdPush_failed hd hm b)).trans hrest

/-- The failure that a byte raises is the answer to everything pushed after it. -/
theorem execAll_of_sdFail {b sub : Byte} {s u : State} (hpush : exec (.sdPush b) s = .next (sdFail sub u))
    (hd : dimsOk u = true) (bytes : List Byte) :
    execAll (.sdPush b :: (bytes.map .sdPush ++ [.sdEnd])) s = .next (sdFail sub u) := by
  have hrest := execAll_sdPush_failed (s := sdFail sub u) (by rwa [dimsOk_sdFail]) (by rw [sdFail_sd]) bytes
  rw [execAll_cons_of_next hpush, hrest, sdFail_sd]
  exact congrArg _ (raise_raise _ _ _ _ _)

/-- SD.END between two pairs: clean if the frame has none yet, else the frame is cut short (R155). -/
theorem SdBetweenPairs.exec_sdEnd {s : State} (h : SdBetweenPairs s) {i : Nat} (hidx : s.sd.idx = satIndex i) :
    ∃ t, exec .sdEnd s = .next t ∧
      SdDecodes { frames := [], failure := if pairsOf s.sd.acc = [] then none else some (2#8, i) } s t := by
  have hnf : s.sd.mode ≠ .failed := by rw [h.mode]; decide
  have hpairs := pairsOf_eq_nil_iff h.even
  by_cases hacc : s.sd.acc = []
  · rw [if_pos (hpairs.mpr hacc)]
    exact ⟨_, exec_sdEnd_clean hnf hacc, sdDecodes_clean s⟩
  · rw [if_neg (hacc ∘ hpairs.mp)]
    refine ⟨_, exec_sdEnd_truncated hnf hacc ?_, sdDecodes_sdFail hidx 2#8⟩
    rw [h.phase]
    simp

/-- A count past the frame's end fails the frame, whatever follows it (R152). -/
theorem SdBetweenPairs.execAll_overshoot {s : State} (h : SdBetweenPairs s) {i : Nat} (hidx : s.sd.idx = satIndex i)
    {c : Byte} (hgt : frameLen s < s.sd.tally.toNat + c.toNat) (bytes : List Byte) :
    ∃ t, execAll (.sdPush c :: (bytes.map .sdPush ++ [.sdEnd])) s = .next t ∧
      SdDecodes { frames := [], failure := some (1#8, i) } s t := by
  have hpush := exec_sdPush_overshoot h.dims h.mode h.phase h.unfinished.le hgt
  have hfailure := sdDecodes_sdFail (s := { s with sd := sdCounted c s.sd }) hidx 1#8
  exact ⟨_, execAll_of_sdFail hpush h.dims bytes, hfailure.congr rfl rfl⟩

/-- The state that answers a count byte within the frame (R152). -/
def countAnswered (c : Byte) (s : State) : State := { s with sd := sdCounted c s.sd, rsp := okReply 0#40 }

/-- SD.END on a pending count: MIDPAIR if the count fills the frame, else TRUNCATED (R155). -/
theorem SdBetweenPairs.exec_sdEnd_countAnswered {s : State} (h : SdBetweenPairs s) {c : Byte}
    (htally : (s.sd.tally + c.setWidth 34).toNat = s.sd.tally.toNat + c.toNat) :
    exec .sdEnd (countAnswered c s) =
      .next (sdFail (if s.sd.tally.toNat + c.toNat = frameLen s then 3#8 else 2#8) (countAnswered c s)) := by
  have hacc : (countAnswered c s).sd.acc ≠ [] := List.append_ne_nil_of_right_ne_nil _ (List.cons_ne_nil _ _)
  split
  · next hend => exact exec_sdEnd_midpair hacc h.mode rfl (htally.trans hend)
  · next hne =>
    refine exec_sdEnd_truncated (fun hf => nomatch h.mode.symm.trans hf) hacc ?_
    rintro ⟨-, -, hend⟩
    exact hne (htally.symm.trans hend)

/-- A stream that ends on a count byte fails, with the sub-cause that the tally gives (R152, R155). -/
theorem SdBetweenPairs.execAll_count_end {s : State} (h : SdBetweenPairs s) {i : Nat} (hidx : s.sd.idx = satIndex i)
    (c : Byte) : ∃ t, execAll [.sdPush c, .sdEnd] s = .next t ∧
      SdDecodes { frames := []
                  failure := some (if s.sd.tally.toNat + c.toNat > frameLen s then 1#8
                    else if s.sd.tally.toNat + c.toNat = frameLen s then 3#8 else 2#8, i) } s t := by
  split
  · next hgt => exact h.execAll_overshoot hidx hgt []
  · next hle =>
    have hL : frameLen s < 2 ^ 33 := frameLen_lt h.dims
    have hcount := exec_sdPush_count h.dims h.mode h.phase (Nat.le_of_not_lt hle)
    have hend := h.exec_sdEnd_countAnswered (len_add_byte_toNat s.sd.tally c (by omega))
    exact ⟨_, (execAll_cons_of_next hcount).trans (execAll_cons_of_next hend),
      (sdDecodes_sdFail (s := countAnswered c s) hidx _).congr rfl rfl⟩

/-- The pair that fills the frame gives a frame of `L` bytes (R153, R157). -/
theorem SdBetweenPairs.sdFrame_lastPair {s : State} (h : SdBetweenPairs s) {prev : List Byte}
    (hprev : bufReadAll .sdPrev (frameLen s) s.sd.prev = .ok prev) {c : Byte}
    (hend : s.sd.tally.toNat + c.toNat = frameLen s) (v : Byte) :
    let frame := List.zipWith deltaDec (expandPairs (pairsOf s.sd.acc ++ [(c, v)])) prev
    sdFrame (frameLen s) (s.sd.acc ++ [c] ++ [v]) s.sd.prev = .ok frame ∧ frame.length = frameLen s := by
  have hpar := h.even
  have hodd : (s.sd.acc ++ [c]).length % 2 = 1 := by simp; omega
  have hsum : countSum (s.sd.acc ++ [c]) = frameLen s := by rw [countSum_append_count hpar, h.sum, hend]
  obtain ⟨hplen, -⟩ := bufReadAll_ok_iff.mp hprev
  rw [← pairsOf_append_pair hpar]
  exact ⟨sdFrame_append_value hodd hsum hprev v, by
    rw [List.length_zipWith, length_expandPairs_append_value hodd, hsum, hplen, Nat.min_self]⟩

/-- The loop of R160 from a pair boundary of frame `i`: the tally and the pairs so far are those of the unit. -/
theorem SdBetweenPairs.execAll_streamDecodeAfter {bytes prev : List Byte} {s : State} {i : Nat} (h : SdBetweenPairs s)
    (hidx : s.sd.idx = satIndex i) (hprev : bufReadAll .sdPrev (frameLen s) s.sd.prev = .ok prev) :
    ∃ t, execAll (bytes.map .sdPush ++ [.sdEnd]) s = .next t ∧
      SdDecodes (streamDecodeAfter (frameLen s) prev i s.sd.tally.toNat (pairsOf s.sd.acc) bytes) s t := by
  induction bytes using countSum.induct generalizing s prev i with
  | case1 =>
    obtain ⟨t, hend, ht⟩ := h.exec_sdEnd hidx
    exact ⟨t, execAll_cons_of_next hend, ht⟩
  | case2 c => exact h.execAll_count_end hidx c
  | case3 c v rest ih =>
    have hL : frameLen s < 2 ^ 33 := frameLen_lt h.dims
    rw [streamDecodeAfter]
    split
    · next hgt => exact h.execAll_overshoot hidx hgt (v :: rest)
    · next hle =>
      split
      · next hend =>
        obtain ⟨hframe, hlen⟩ := h.sdFrame_lastPair hprev hend v
        have hpair := h.execAll_lastPair hend hframe
        have hafter := sdAfterFrame_sdDeliver h.dims hlen
        obtain ⟨t, hrest, ht⟩ := ih hafter.betweenPairs ((congrArg satInc hidx).trans (satInc_satIndex i)) hafter.prev
        exact ⟨t, (execAll_append_of_next (is := [_, _]) hpair).trans hrest, ht.consFrame⟩
      · next hne =>
        obtain ⟨hpair, hnext⟩ := h.execAll_pair (c := c) (by omega) v
        obtain ⟨t, hrest, ht⟩ := ih hnext hidx hprev
        refine ⟨t, (execAll_append_of_next (is := [_, _]) hpair).trans hrest, ?_⟩
        rw [← pairsOf_append_pair h.even, ← len_add_byte_toNat s.sd.tally c (by omega)]
        exact ht.congr rfl rfl

/-- An idle unit counts from frame 0. -/
theorem sdIdle_idx {sd : SdUnit} (h : sdIdle sd) : sd.idx = satIndex 0 := by
  unfold sdIdle at h
  rw [h]
  rfl

/-- Raw bytes that leave frame 0 unfinished are kept. -/
theorem execAll_sdPush_raw_inside {bytes : List Byte} {s : State} (hd : dimsOk s = true) (hm : s.sd.mode = .rawFrame)
    (hlt : s.sd.tally.toNat + bytes.length < frameLen s) :
    ∃ u, execAll (bytes.map .sdPush) s = .next u ∧
      u = { s with sd := { s.sd with acc := s.sd.acc ++ bytes, tally := u.sd.tally }, rsp := u.rsp } := by
  induction bytes generalizing s with
  | nil => exact ⟨s, rfl, by rw [List.append_nil]⟩
  | cons b bytes ih =>
    have hL : frameLen s < 2 ^ 33 := frameLen_lt hd
    have htally := len_add_one_toNat s.sd.tally (by omega)
    rw [List.length_cons] at hlt
    have hpush := exec_sdPush_raw_inside hd hm (by omega) b
    obtain ⟨u, hrest, hu⟩ := ih (s := { s with
      sd := { s.sd with acc := s.sd.acc ++ [b], tally := s.sd.tally + 1#34 }
      rsp := okReply 0#40 }) hd hm (show (s.sd.tally + 1#34).toNat + bytes.length < frameLen s by omega)
    refine ⟨u, (execAll_cons_of_next hpush).trans hrest, ?_⟩
    rw [List.append_cons]
    exact hu

/-- A stream shorter than frame 0 is cut short (R155). -/
theorem execAll_sdPush_short {bytes : List Byte} {s : State} (hd : dimsOk s = true) (hidle : sdIdle s.sd)
    (hne : bytes ≠ []) (hlt : bytes.length < frameLen s) :
    ∃ t, execAll (bytes.map .sdPush ++ [.sdEnd]) s = .next t ∧
      SdDecodes { frames := [], failure := some (2#8, 0) } s t := by
  obtain ⟨hm, htally, hacc⟩ := sdIdle_fields hidle
  obtain ⟨u, hpush, hu⟩ := execAll_sdPush_raw_inside hd hm (by rw [htally]; simpa using hlt)
  have hum : u.sd.mode = .rawFrame := by rw [hu]; exact hm
  have huacc : u.sd.acc = bytes := by rw [hu]; simp [hacc]
  have hend := exec_sdEnd_truncated (s := u) (by rw [hum]; decide) (by rwa [huacc]) (by simp [hum])
  have huidx : u.sd.idx = s.sd.idx := by rw [hu]
  exact ⟨_, (execAll_append_of_next hpush).trans (execAll_cons_of_next hend),
    (sdDecodes_sdFail (huidx.trans (sdIdle_idx hidle)) 2#8).congr (by rw [hu]) (by rw [hu])⟩

/-- Frame 0 is delivered raw, and the loop of R160 goes on from frame 1. -/
theorem execAll_sdPush_long {bytes : List Byte} {s : State} (hd : dimsOk s = true) (hidle : sdIdle s.sd)
    (hle : frameLen s ≤ bytes.length) :
    ∃ t, execAll (bytes.map .sdPush ++ [.sdEnd]) s = .next t ∧
      SdDecodes (consFrame (bytes.take (frameLen s)) (streamDecodeAfter (frameLen s) (bytes.take (frameLen s)) 1 0 []
        (bytes.drop (frameLen s)))) s t := by
  obtain ⟨hm, htally, hacc⟩ := sdIdle_fields hidle
  have hlen : (bytes.take (frameLen s)).length = frameLen s := List.length_take_of_le hle
  have hraw := execAll_sdPush_raw (rest := bytes.take (frameLen s)) hd hm (by rw [hacc, htally]; rfl)
    (ne_nil_of_length_frameLen hd hlen) (by rwa [hacc])
  rw [hacc, List.nil_append] at hraw
  have hafter := sdAfterFrame_sdDeliver hd hlen
  have hidx : satInc s.sd.idx = satIndex 1 := by rw [sdIdle_idx hidle]; exact satInc_satIndex 0
  obtain ⟨t, hrest, ht⟩ := hafter.betweenPairs.execAll_streamDecodeAfter (bytes := bytes.drop (frameLen s)) hidx
    hafter.prev
  have hsplit : bytes.map Instr.sdPush ++ [.sdEnd] = (bytes.take (frameLen s)).map .sdPush ++
      ((bytes.drop (frameLen s)).map .sdPush ++ [.sdEnd]) := by
    rw [← List.append_assoc, ← List.map_append, List.take_append_drop]
  rw [hsplit, execAll_append_of_next hraw]
  exact ⟨t, hrest, ht.consFrame⟩

/-- The branches of R160: no bytes, fewer than a frame, or a first frame and the loop. -/
theorem execAll_streamDecode {s : State} (hd : dimsOk s = true) (hidle : sdIdle s.sd) (bytes : List Byte) :
    ∃ t, execAll (bytes.map .sdPush ++ [.sdEnd]) s = .next t ∧ SdDecodes (streamDecode (frameLen s) bytes) s t := by
  rw [streamDecode]
  split
  · next hnil =>
    obtain ⟨hm, -, hacc⟩ := sdIdle_fields hidle
    subst hnil
    exact ⟨_, execAll_cons_of_next (exec_sdEnd_clean (by rw [hm]; decide) hacc), sdDecodes_clean s⟩
  · next hne =>
    split
    · next hlt => exact execAll_sdPush_short hd hidle hne hlt
    · next hge => exact execAll_sdPush_long hd hidle (Nat.le_of_not_lt hge)

/-- Settles O51, by `execAll_streamDecode`. -/
theorem decoderComputesStreamDecode : Obligations.DecoderComputesStreamDecode := by
  intro bytes s hd hidle
  obtain ⟨t, hrun, hout, hclean, hfailed⟩ := execAll_streamDecode hd hidle bytes
  refine ⟨t, hrun, hout, ?_⟩
  cases hf : (streamDecode (frameLen s) bytes).failure with
  | none => exact hclean hf
  | some p =>
    obtain ⟨sub, i⟩ := p
    exact hfailed sub i hf

end Sys2Proof.Machine
end

section
/-! Proofs for the family of 45_system.md: the writes of WRCR and its refusals (R172, R173), and INIT (R174). -/

namespace Sys2Proof.Machine

/-! ### WRCR where the value fits (R173) -/

/-- XLEN is as wide as the operand, so every value fits. -/
theorem exec_wrcr_xlen (imm : XWord) (s : State) :
    exec (.wrcr 0x04#8 imm) s = .next (respondOk 0#40 (reinitRld { s with ctl := { s.ctl with xlen := imm } })) := by
  have hwhole : imm.setWidth Config.widths.xlenBits = imm := BitVec.setWidth_eq imm
  have hcheck : writeCheck 0x04#8 imm = .toXlen := rfl
  simp only [exec, execWrcr, hcheck, hwhole]

/-- A one-bit value is its lowest bit. -/
theorem getLsbD_zero_of_lt_two {imm : XWord} (hfit : imm.toNat < 2) : imm.getLsbD 0 = decide (imm = 1#40) := by
  obtain rfl | rfl : imm = 0#40 ∨ imm = 1#40 := by bv_omega
  · rfl
  · rfl

theorem exec_wrcr_ctrl {imm : XWord} (hfit : imm.toNat < 2) (s : State) :
    exec (.wrcr 0x05#8 imm) s =
      .next (respondOk 0#40 { s with ctl := { s.ctl with chain := decide (imm = 1#40) } }) := by
  have hcheck : writeCheck 0x05#8 imm = .toCtrl := if_pos hfit
  simp only [exec, execWrcr, hcheck, getLsbD_zero_of_lt_two hfit]

/-! ### WRCR where it is refused (R172) -/

/-- The sub-cause of a check that refuses the write (R189). -/
def refusalSub : WriteCheck → Option Byte
  | .reserved => some 3#8
  | .readOnly => some 4#8
  | .tooWide => some 5#8
  | .toWidth | .toHeight | .toXlen | .toCtrl => none

/-- A refused write raises with its sub-cause and does nothing else. -/
theorem exec_wrcr_of_refused {cr sub : Byte} {imm : XWord} {check : WriteCheck} (hcheck : writeCheck cr imm = check)
    (hsub : refusalSub check = some sub) (s : State) :
    exec (.wrcr cr imm) s = .next (raised 4#8 0#8 sub 0#32 s) := by
  have hraise : execWrcr cr imm s = .next (raise .illegalCommand .sys sub 0#32 s) := by
    cases check <;> cases hsub <;> simp only [execWrcr, hcheck]
  exact hraise.trans (congrArg _ (raise_eq_raised _ _ _ _ _))

theorem writeCheck_of_reserved {cr : Byte} (hcr : 0x10 < cr.toNat) (imm : XWord) : writeCheck cr imm = .reserved := by
  rw [writeCheck, (ctlRegOf_eq_none_iff cr).mpr hcr]

/-- Every register but WIDTH, HEIGHT, XLEN and CTRL is read-only, whatever the value. -/
theorem writeCheck_of_readOnly {cr : Byte} (hcr : cr.toNat ≤ 0x10) (hro : cr ∉ [0x01#8, 0x02#8, 0x04#8, 0x05#8])
    (imm : XWord) : writeCheck cr imm = .readOnly := by
  rcases writeCheck_cases cr imm with ⟨hres, -⟩ | ⟨-, -, -, -, -, hcheck⟩ | ⟨rfl, -⟩ | ⟨rfl, -⟩ | ⟨rfl, -⟩ | ⟨rfl, -⟩
  · omega
  · exact hcheck
  all_goals exact absurd (by decide) hro

/-- A frame size is refused from `2 ^ 16` on; it is not cut to its low bits. -/
theorem writeCheck_of_wide_size {cr : Byte} (hcr : cr ∈ [0x01#8, 0x02#8]) {imm : XWord} (hwide : 2 ^ 16 ≤ imm.toNat) :
    writeCheck cr imm = .tooWide := by
  obtain rfl | rfl : cr = 0x01#8 ∨ cr = 0x02#8 := by simpa using hcr
  · exact if_neg (Nat.not_lt.mpr hwide)
  · exact if_neg (Nat.not_lt.mpr hwide)

theorem writeCheck_of_wide_ctrl {imm : XWord} (hwide : 2 ≤ imm.toNat) : writeCheck 0x05#8 imm = .tooWide :=
  if_neg (Nat.not_lt.mpr hwide)

/-- Settles O24: the word is the operation's encoding, each write has its lemma, and each refusal is
`exec_wrcr_of_refused` at the check that refuses. -/
theorem wrcrStoresOrRefuses : Obligations.WrcrStoresOrRefuses := by
  intro cr imm s
  exact ⟨decode_encode (.wrcr cr imm), fun hfit => exec_wrcr_width hfit s, fun hfit => exec_wrcr_height hfit s,
    exec_wrcr_xlen imm s, fun hfit => exec_wrcr_ctrl hfit s,
    fun hcr => exec_wrcr_of_refused (writeCheck_of_reserved hcr imm) rfl s,
    fun hcr hro => exec_wrcr_of_refused (writeCheck_of_readOnly hcr hro imm) rfl s,
    fun hcr hwide => exec_wrcr_of_refused (writeCheck_of_wide_size hcr hwide) rfl s,
    fun hwide => exec_wrcr_of_refused (writeCheck_of_wide_ctrl hwide) rfl s⟩

/-! ### INIT (R174) -/

/-- Settles O25: the word is the encoding of INIT, which `decode_encode` gives back, and the answer is the five
reinitialisations of R27 with the record cleared and the OK response. -/
theorem initStartsANewPass : Obligations.InitStartsANewPass :=
  ⟨decode_encode .init, fun _ => rfl⟩

end Sys2Proof.Machine
end

section
/-! Proofs for the family of 60_exceptions.md: what a raise does (R190), how every operation ends (R185, R200, R201),
the refusal of illegal dimensions (R187), and Failed mode (R192). -/

namespace Sys2Proof.Machine

/-! ### A raise (R190) -/

/-- Settles O17: `raised` is the statement's state, and `raise_eq_raised` the case split on the record. -/
theorem raiseLatchesAndAnswers : Obligations.RaiseLatchesAndAnswers := raise_eq_raised

/-! ### How an operation ends (R185, R200, R201) -/

/-- How operation `i` ends in `s`: with an OK, or with a raise of one of its rows of R200 before which only unit RLD,
for LengthMismatch, or unit SD, for CorruptStream, may have been written. The failure that SD latched has a row only
under the invariant, which bounds `fsub`. -/
inductive EndsByRow (i : Instr) (s : State) : State → Prop where
  | ok (val : XWord) (u : State) : EndsByRow i s (respondOk val u)
  | raised (e : ErrKind) (stage : UnitCode) (sub : Byte) (idx : Idx) (rld : RldUnit) (sd : SdUnit)
      (hrld : e ≠ .lengthMismatch → rld = s.rld) (hsd : e ≠ .corruptStream → sd = s.sd)
      (hrow : Inv s → (errCode e, sub) ∈ errorMatrix i) :
      EndsByRow i s (raise e stage sub idx { s with rld := rld, sd := sd })

namespace EndsByRow

variable {i : Instr} {s t : State} {r : Response}

/-- A raise in the state the operation was given. -/
theorem raise_only {e : ErrKind} {sub : Byte} (hrow : Inv s → (errCode e, sub) ∈ errorMatrix i) (stage : UnitCode)
    (idx : Idx) : EndsByRow i s (raise e stage sub idx s) :=
  .raised e stage sub idx s.rld s.sd (fun _ => rfl) (fun _ => rfl) hrow

/-- The refusal of an illegal size, in the units that check it (R187). -/
theorem raise_dims (hrow : ∀ sub, sub = 1#8 ∨ sub = 2#8 ∨ sub = 3#8 → (1#8, sub) ∈ errorMatrix i)
    (stage : UnitCode) (idx : Idx) : EndsByRow i s (raise .invalidDimensions stage (dimsSub s) idx s) :=
  raise_only (fun _ => hrow _ (dimsSub_mem s)) stage idx

/-- The failure that SD latched, raised again (R192). -/
theorem raise_latched (hm : s.sd.mode = .failed)
    (hrow : ∀ sub, sub = 1#8 ∨ sub = 2#8 ∨ sub = 3#8 → (2#8, sub) ∈ errorMatrix i) :
    EndsByRow i s (raise .corruptStream .sd s.sd.fsub s.sd.fidx s) := by
  refine raise_only (fun hInv => ?_) .sd s.sd.fidx
  obtain ⟨-, hfsub, -, -⟩ := hInv.sd.failed hm
  exact hrow _ hfsub

/-- A new failure of SD, after what the operation wrote of the unit (R154). -/
theorem raise_sdFail {sub : Byte} (hrow : (2#8, sub) ∈ errorMatrix i) (sd : SdUnit) :
    EndsByRow i s (sdFail sub { s with sd := sd }) :=
  .raised .corruptStream .sd sub sd.idx s.rld { sd with fsub := sub, fidx := sd.idx, mode := .failed }
    (fun _ => rfl) (fun h => absurd rfl h) (fun _ => hrow)

/-- A refusal of RLD.END, after the unit is reinitialised (R122). -/
theorem raise_length {sub : Byte} (hrow : (3#8, sub) ∈ errorMatrix i) :
    EndsByRow i s (raise .lengthMismatch .rld sub 0#32 (reinitRld s)) :=
  .raised .lengthMismatch .rld sub 0#32 (reinitRld s).rld s.sd (fun h => absurd rfl h) (fun _ => rfl) (fun _ => hrow)

/-- An OK carries no error code, so an answer with one is a raise of a row. -/
theorem mem_errorMatrix (h : EndsByRow i s t) (hInv : Inv s) (hr : t.rsp = some r) (hcode : r.code ≠ 0#8) :
    (r.code, r.sub) ∈ errorMatrix i := by
  cases h with
  | ok val u => cases hr; exact absurd rfl hcode
  | raised e stage sub idx rld sd hrld hsd hrow => cases hr; exact hrow hInv

/-- An answer with an error keeps OUT and all but the record, the response, RLD and SD; its code tells which of the two
units it may have written. -/
theorem frame_of_error (h : EndsByRow i s t) (hr : t.rsp = some r) (hcode : r.code ≠ 0#8) :
    t.out = s.out ∧ t = { s with err := t.err, rsp := t.rsp, rld := t.rld, sd := t.sd } ∧
      (r.code ≠ 2#8 → t.sd = s.sd) ∧ (r.code ≠ 3#8 → t.rld = s.rld) := by
  cases h with
  | ok val u => cases hr; exact absurd rfl hcode
  | raised e stage sub idx rld sd hrld hsd hrow =>
    cases hr
    have hnotCorrupt : errCode e ≠ 2#8 → e ≠ .corruptStream := fun hc he => hc (by rw [he]; rfl)
    have hnotLength : errCode e ≠ 3#8 → e ≠ .lengthMismatch := fun hc he => hc (by rw [he]; rfl)
    rw [raise_eq_raised]
    exact ⟨rfl, rfl, fun hc => hsd (hnotCorrupt hc), fun hc => hrld (hnotLength hc)⟩

end EndsByRow

theorem execWrcr_endsByRow {cr : Byte} {imm : XWord} {s t : State} (h : execWrcr cr imm s = .next t) :
    EndsByRow (.wrcr cr imm) s t := by
  unfold execWrcr at h
  cases hcheck : writeCheck cr imm <;> rw [hcheck] at h <;> cases h
  case reserved | readOnly | tooWide => exact .raise_only (fun _ => by simp [errorMatrix, errCode]) _ _
  case toWidth | toHeight | toXlen | toCtrl => exact .ok _ _

theorem execRldEnd_endsByRow {s t : State} (h : execRldEnd s = .next t) : EndsByRow .rldEnd s t := by
  unfold execRldEnd at h
  split at h
  · cases h
    exact .raise_length (by simp [errorMatrix])
  · split at h <;> cases h
    · exact .raise_length (by simp [errorMatrix])
    · exact .ok _ _

theorem execSdPush_endsByRow {b : Byte} {s t : State} (h : execSdPush b s = .next t) : EndsByRow (.sdPush b) s t := by
  obtain ⟨-, rfl⟩ | ⟨-, h⟩ := execSdPush_next_iff.mp h
  · exact .raise_dims (by simp [errorMatrix]) _ _
  obtain ⟨hm, rfl⟩ | ⟨-, h⟩ | ⟨-, -, h⟩ | ⟨-, -, rfl⟩ := sdPushByte_ok_iff.mp h
  · exact .raise_latched hm (by simp [errorMatrix])
  · obtain ⟨-, rfl⟩ | ⟨-, -, rfl⟩ := sdRaw_ok_iff.mp h <;> exact .ok _ _
  · obtain ⟨-, rfl⟩ | ⟨-, frame, -, rfl⟩ := sdValue_ok_iff.mp h <;> exact .ok _ _
  · rw [sdCount_eq]
    split
    · exact .raise_sdFail (by simp [errorMatrix]) _
    · exact .ok _ _

theorem execSdEnd_endsByRow {s t : State} (h : execSdEnd s = .next t) : EndsByRow .sdEnd s t := by
  rcases execSdEnd_cases s with ⟨hm, e⟩ | ⟨-, -, e⟩ | ⟨-, -, sub, hsub, e⟩ <;> cases e.symm.trans h
  · exact .raise_latched hm (by simp [errorMatrix])
  · exact .ok _ _
  · exact .raise_sdFail (by rcases hsub with rfl | rfl <;> simp [errorMatrix]) s.sd

theorem exec_endsByRow {i : Instr} {s t : State} (h : exec i s = .next t) : EndsByRow i s t := by
  cases i with
  | rdcr cr =>
    rcases execRdcr_cases cr s with e | ⟨v, e⟩ <;> cases e.symm.trans h
    · exact .raise_only (fun _ => by simp [errorMatrix, errCode]) _ _
    · exact .ok _ _
  | wrcr cr imm => exact execWrcr_endsByRow h
  | fcPix r g b =>
    obtain ⟨-, rfl⟩ | ⟨-, u, -, rfl⟩ := execFcPix_next_iff.mp h
    · exact .raise_dims (by simp [errorMatrix]) _ _
    · exact .ok _ _
  | rlePush b =>
    obtain ⟨bytes, rle, -, e⟩ := execRlePush_cases b s
    cases e.symm.trans h
    exact .ok _ _
  | rldPair c v =>
    rcases execRldPair_cases c v s with e | e | ⟨-, e⟩ <;> cases e.symm.trans h <;> exact .ok _ _
  | rldEnd => exact execRldEnd_endsByRow h
  | sePush b =>
    obtain ⟨-, rfl⟩ | ⟨-, u, -, rfl⟩ := execSePush_next_iff.mp h
    · exact .raise_dims (by simp [errorMatrix]) _ _
    · exact .ok _ _
  | sdPush b => exact execSdPush_endsByRow h
  | sdEnd => exact execSdEnd_endsByRow h
  | init | fcEnd | dltSub | dltAdd | rleEnd | seEnd => cases h; exact .ok _ _

/-- Settles O14: an operation ends as `EndsByRow` says, and `frame_of_error` reads off what its raises keep. -/
theorem raisingOperationsEmitNothing : Obligations.RaisingOperationsEmitNothing :=
  fun _ _ _ _ h => (exec_endsByRow h).frame_of_error

/-- A word that is no operation is answered by IllegalCommand with the sub-cause of `decode` (R66). -/
theorem runWord_of_decode_error {w : Cmd} {e : DecodeError} (hd : decode w = .error e) (s : State) :
    runWord w s = .next (raised 4#8 0#8 (decodeErrorSub e) 0#32 s) := by
  simp only [runWord, hd, raiseIllegalWord, raise_eq_raised]
  rfl

/-- Settles O15: a word that does not decode raises its sub-cause of `decode`; one that does ends by its operation's
row (`exec_endsByRow`). -/
theorem onlyTheMatrixErrorsAreRaised : Obligations.OnlyTheMatrixErrorsAreRaised := by
  intro w s t r hInv h hr hcode
  split
  next hd =>
    cases (runWord_of_decode_error hd s).symm.trans h
    cases hr
    rfl
  next hd =>
    cases (runWord_of_decode_error hd s).symm.trans h
    cases hr
    rfl
  next i hd =>
    rw [runWord_of_decode hd] at h
    exact (exec_endsByRow h).mem_errorMatrix hInv hr hcode

/-! ### Illegal dimensions (R187) -/

section
variable {s : State}

theorem exec_fcPix_of_illegal (hd : dimsOk s = false) (r g b : Byte) :
    exec (.fcPix r g b) s = .next (raised 1#8 1#8 (dimsSub s) s.fc.idx s) :=
  execFcPix_next_iff.mpr (.inl ⟨hd, (raise_eq_raised .invalidDimensions .fc _ _ _).symm⟩)

theorem exec_sePush_of_illegal (hd : dimsOk s = false) (b : Byte) :
    exec (.sePush b) s = .next (raised 1#8 5#8 (dimsSub s) s.se.idx s) :=
  execSePush_next_iff.mpr (.inl ⟨hd, (raise_eq_raised .invalidDimensions .se _ _ _).symm⟩)

/-- The size is checked before the mode. -/
theorem exec_sdPush_of_illegal (hd : dimsOk s = false) (b : Byte) :
    exec (.sdPush b) s = .next (raised 1#8 6#8 (dimsSub s) s.sd.idx s) :=
  execSdPush_next_iff.mpr (.inl ⟨hd, (raise_eq_raised .invalidDimensions .sd _ _ _).symm⟩)

end

theorem dimsSub_of_zero {s : State} (h : s.ctl.width = 0#16 ∨ s.ctl.height = 0#16) : dimsSub s = 1#8 :=
  if_pos (h.imp BitVec.toNat_eq.mp BitVec.toNat_eq.mp)

theorem dimsSub_of_odd {s : State} (hw : s.ctl.width ≠ 0#16) (hh : s.ctl.height ≠ 0#16)
    (hodd : s.ctl.width.toNat % 2 = 1 ∨ s.ctl.height.toNat % 2 = 1) : dimsSub s = 2#8 := by
  have hzero : ¬ (s.ctl.width.toNat = 0 ∨ s.ctl.height.toNat = 0) :=
    not_or.mpr ⟨BitVec.toNat_ne.mp hw, BitVec.toNat_ne.mp hh⟩
  have hne : s.ctl.width.toNat % 2 ≠ 0 ∨ s.ctl.height.toNat % 2 ≠ 0 := by omega
  exact (if_neg hzero).trans (if_pos hne)

/-- A size whose frame passes `L_MAX` is refused, and only for that when it is neither zero nor odd. -/
theorem dims_too_large {w h : Nat} (hw : w ≠ 0) (hh : h ≠ 0) (hwe : w % 2 = 0) (hhe : h % 2 = 0)
    (hlong : 6442057734 < 3 * w * h / 2) : dimsLegal w h = false ∧ dimsSubOf w h = 3#8 := by
  constructor
  · rw [Bool.eq_false_iff, Ne, dimsLegal_iff]
    rintro ⟨-, -, -, -, hmax⟩
    exact absurd hmax (Nat.not_le.mpr hlong)
  · exact (if_neg (by omega)).trans (if_neg (by omega))

/-- With illegal dimensions no unit has begun a frame, so each index still is that of frame 0. -/
theorem Inv.idx_of_illegal {s : State} (h : Inv s) (hd : dimsOk s = false) :
    s.fc.idx = 0#32 ∧ s.se.idx = 0#32 ∧ s.sd.idx = 0#32 := by
  obtain ⟨-, hfc⟩ := h.fc.idle hd
  obtain ⟨hfirst, -⟩ := h.se.idle hd
  obtain ⟨hraw, -⟩ := h.sd.idle hd
  obtain ⟨-, hsd, -, -⟩ := h.sd.raw hraw
  exact ⟨hfc, h.se.first.mp hfirst, hsd⟩

/-- Settles O18: the sub-cause is `dimsSub`, which the three operations report alike. -/
theorem illegalDimensionsRaise : Obligations.IllegalDimensionsRaise := by
  intro r g b s hd
  exact ⟨⟨dimsSub s, dimsSub_of_zero, dimsSub_of_odd, exec_fcPix_of_illegal hd r g b, exec_sePush_of_illegal hd b,
    exec_sdPush_of_illegal hd b⟩, fun hInv => hInv.idx_of_illegal hd, fun _ _ => dims_too_large⟩

/-! ### Failed mode (R192) -/

section
variable {s t : State}

/-- In Failed mode SD.PUSH leaves the unit, whether it repeats the failure or refuses the size. -/
theorem exec_sdPush_keeps_failed (hm : s.sd.mode = .failed) {b : Byte} (h : exec (.sdPush b) s = .next t) :
    t.sd = s.sd := by
  cases hd : dimsOk s with
  | true =>
    cases (exec_sdPush_failed hd hm b).symm.trans h
    exact raise_sd _ _ _ _ _
  | false =>
    cases (exec_sdPush_of_illegal hd b).symm.trans h
    rfl

/-- SD's own operations only repeat the failure; of the others INIT and the size writes alone reach the unit. -/
theorem exec_keeps_failed (hm : s.sd.mode = .failed) {i : Instr} (h : exec i s = .next t) (hinit : i ≠ .init)
    (hw : ∀ imm, i ≠ .wrcr 0x01#8 imm) (hh : ∀ imm, i ≠ .wrcr 0x02#8 imm) : t.sd = s.sd := by
  by_cases hpush : ∃ b, i = .sdPush b
  · obtain ⟨b, rfl⟩ := hpush
    exact exec_sdPush_keeps_failed hm h
  by_cases hend : i = .sdEnd
  · subst hend
    obtain ⟨-, -, hkeep⟩ := exec_sdEnd_transitions h
    exact hkeep hm
  · exact (exec_isolated h).sd (mayWrite_sd_eq_false _ (not_exists.mp hpush) hend hinit hw hh)

end

/-- Settles O19: the repeats and the reads are the operations' equations in Failed mode, `exec_keeps_failed` the frozen
unit, and the three ways out the reinitialisations. -/
theorem failedDecoderStaysFailed : Obligations.FailedDecoderStaysFailed := by
  intro s hm
  have hrepeat : raise .corruptStream .sd s.sd.fsub s.sd.fidx s = raised 2#8 6#8 s.sd.fsub s.sd.fidx s :=
    raise_eq_raised _ _ _ _ _
  refine ⟨fun b hd => hrepeat ▸ exec_sdPush_failed hd hm b, fun b hd => exec_sdPush_of_illegal hd b,
    hrepeat ▸ exec_sdEnd_failed hm, exec_rdcr_of_reg (reg := .sdTally) rfl s,
    exec_rdcr_of_reg (reg := .sdIdx) rfl s, ⟨statusValue s, exec_rdcr_of_reg (reg := .status) rfl s, ?_⟩,
    fun i t h => exec_keeps_failed hm h, ⟨_, rfl, rfl⟩,
    fun imm hfit => ⟨⟨_, exec_wrcr_width hfit s, rfl⟩, ⟨_, exec_wrcr_height hfit s, rfl⟩⟩,
    fun rest hq => ⟨_, step_of_rst hq, rfl⟩⟩
  rw [statusValue_mode, hm]
  rfl

end Sys2Proof.Machine
end

section
/-! Proof for the family of 70_reset_and_hazards.md: what RDCR returns right after reset (R211). -/

namespace Sys2Proof.Machine

/-- `CtlReg` lists the registers in the order of their numbers (R12). -/
theorem toNat_eq_ctorIdx_of_ctlRegOf {cr : Byte} {reg : CtlReg} (h : ctlRegOf cr = some reg) :
    cr.toNat = reg.ctorIdx := by
  unfold ctlRegOf at h
  split at h <;> cases h <;> rfl

theorem exists_ctlRegOf {cr : Byte} (hcr : cr.toNat ≤ 0x10) : ∃ reg, ctlRegOf cr = some reg :=
  Option.ne_none_iff_exists'.mp fun hnone => Nat.not_lt.mpr hcr ((ctlRegOf_eq_none_iff cr).mp hnone)

/-- SE_FIRST, bit 5 of STATUS, is the only flag set after reset (R13, R26). -/
theorem statusValue_reset : statusValue State.reset = 0x20#40 := by decide

/-- Past the constant ID and SE_FIRST in STATUS, every register reads a field, a flag or a derived length that reset
clears. -/
theorem ctlValue_reset {reg : CtlReg} (hid : reg ≠ .id) (hstatus : reg ≠ .status) :
    ctlValue reg State.reset = 0#40 := by
  cases reg with
  | id => exact absurd rfl hid
  | status => exact absurd rfl hstatus
  | _ => rfl

/-- Settles O21: each of the numbers names a register (`exec_rdcr_of_reg`), and only 0x00 names ID and 0x06 STATUS, so
the others read 0 (`ctlValue_reset`). -/
theorem registersReadAfterReset : Obligations.RegistersReadAfterReset := by
  refine ⟨rfl, rfl, rfl, rfl, exec_rdcr_of_reg (reg := .id) rfl _, ?_, fun cr hcr hne_id hne_status => ?_⟩
  · rw [exec_rdcr_of_reg (reg := .status) rfl, ctlValue, statusValue_reset]
  · obtain ⟨reg, hreg⟩ := exists_ctlRegOf hcr
    have hnum : cr.toNat = reg.ctorIdx := toNat_eq_ctorIdx_of_ctlRegOf hreg
    have hid : reg ≠ .id := by
      rintro rfl
      exact hne_id (BitVec.eq_of_toNat_eq hnum)
    have hstatus : reg ≠ .status := by
      rintro rfl
      exact hne_status (BitVec.eq_of_toNat_eq hnum)
    rw [exec_rdcr_of_reg hreg, ctlValue_reset hid hstatus]

end Sys2Proof.Machine
end
